-- ==== Sys2Proof/Word.lean ====
section
/-! DEFINITION. The value types of tp_cripto CORE: samples, field elements and command words. -/

namespace Sys2Proof

/-- A Sample, "an integer in [0,255]" (00_scope.md R17): the element of the 8-bit buffers. It is XORed and
masked, so it is a bit vector. -/
abbrev Byte := BitVec 8

/-- A field element: the integer in `[0, 256]` that represents a class modulo 257 (41_field.md R140).
10_state.md R50 says the patterns 257 to 511 of its nine bits never occur and that a model may use `Fin 257`. -/
abbrev GF := Fin 257

/-- A command word (30_encoding.md R90). -/
abbrev CmdWord := BitVec 64

end Sys2Proof
end

