-- ==== Sys2Proof/Syntax.lean ====
section
/-! DEFINITION. The commands of tp_cripto CORE: one constructor for each row of the opcode table
(30_encoding.md R98), with the operands its format carries (R92 to R96). -/

namespace Sys2Proof

/-- A control register, named as in the table of 10_state.md R24. -/
inductive CReg where
  | pmod | lmax | cmax | status | einfolo | einfohi
  | k | n | w | h | blk | b | seed | sel | clen | scseed | scidx | kslo | kshi
  | xi (j : Fin 10)
  | len (j : Fin 10)
  | sseed (j : Fin 10)
  deriving DecidableEq, Repr

/-- An element-addressed space, named as in the table of 20_memory.md R60. -/
inductive Space where
  | sg | dg | pm | tg | sh | cg | xv | yv | cv | mat
  deriving DecidableEq, Repr

/-- A grid selector of `PXOR` (30_encoding.md R93): 0 is `SG`, 1 is `DG`. -/
inductive Grid where
  | sg | dg
  deriving DecidableEq, Repr

/-- A command. Registers are `F0..F15`; a slot field is the four bits of its format, and which of its
values a command admits is `wellFormed`'s business (30_encoding.md R101). -/
inductive Instr where
  /-- No operation (40_system_access.md R121). -/
  | nop
  /-- Soft reset (R122). -/
  | rst
  /-- Clear the sticky error (R123). -/
  | clre
  /-- Write a control register (R125). -/
  | crw (cr : CReg) (imm : BitVec 32)
  /-- Read a control register (R124). -/
  | crr (cr : CReg)
  /-- Write one element of a space (R126). -/
  | put (sp : Space) (slot : Fin 16) (addr : BitVec 32) (data : BitVec 16)
  /-- Read one element of a space (R127). -/
  | get (sp : Space) (slot : Fin 16) (addr : BitVec 32)
  /-- Load a field element into `F[a]` (41_field.md R147). -/
  | fli (a : Fin 16) (imm : BitVec 32)
  /-- `F[a] <- F[b] + F[c]` modulo 257 (R148). -/
  | fadd (a b c : Fin 16)
  /-- `F[a] <- F[b] - F[c]` modulo 257 (R149). -/
  | fsub (a b c : Fin 16)
  /-- `F[a] <- F[b] * F[c]` modulo 257 (R150). -/
  | fmul (a b c : Fin 16)
  /-- `F[a] <-` the inverse of `F[b]` (R151). -/
  | finv (a b : Fin 16)
  /-- Respond with `F[a]` (R152). -/
  | frd (a : Fin 16)
  /-- Seed the generator from `SEED` (42_keystream.md R164). -/
  | kseed
  /-- Draw one byte into `F[a]` (R165). -/
  | knext (a : Fin 16)
  /-- Build the permutation table (43_permutation.md R174). -/
  | pbuild
  /-- `dst <- src XOR PM` (R175). -/
  | pxor (dst src : Grid)
  /-- `F[a] <-` the polynomial in `CV` at `F[b]` (44_share_generation.md R193). -/
  | peval (a b : Fin 16)
  /-- Generate the shares of `DG` (R194). -/
  | split
  /-- `F[a] <-` the Lagrange constant term of `XV`, `YV` (45_reconstruction.md R212). -/
  | lagr (a : Fin 16)
  /-- Build the Vandermonde system in `MAT` (R213). -/
  | vand
  /-- Solve the system in `MAT` (R214). -/
  | solve
  /-- Reconstruct `DG` from the selected slots (R215). -/
  | recon
  /-- Embed slot `slot` into the carrier (46_stego.md R236). -/
  | embed (slot : Fin 16)
  /-- Extract slot `slot` from the carrier (R237). -/
  | extract (slot : Fin 16)
  /-- Diffuse `SG` and generate its shares (47_scheme.md R252). -/
  | distrib
  /-- Reconstruct and undiffuse into `SG` (R253). -/
  | recover
  deriving DecidableEq, Repr

end Sys2Proof
end

