-- ==== Sys2Proof/WellFormed.lean ====
section
/-! DEFINITION. Which commands of `Instr` are legal: the selector ranges of 30_encoding.md R101 and R108 that
the operand types do not already enforce. -/

namespace Sys2Proof

/-- A control register that `CRW` may write: every register of 10_state.md R24 but its read-only ones. -/
def CReg.writable : CReg → Bool
  | .pmod | .lmax | .cmax | .status | .einfolo | .einfohi | .kslo | .kshi => false
  | _ => true

/-- The slot rule of 20_memory.md R64: 0 to 9 for `SH`, 0 for every other space. -/
def Space.slotLegal (sp : Space) (slot : Fin 16) : Bool :=
  match sp with
  | .sh => slot.val ≤ 9
  | _ => slot.val = 0

/-- The command has a legal encoding (30_encoding.md R101). -/
def Instr.wellFormed : Instr → Bool
  | .crw cr _ => cr.writable
  | .put sp slot _ _ => decide (sp ≠ .tg) && sp.slotLegal slot
  | .get sp slot _ => sp.slotLegal slot
  | .embed slot => slot.val ≤ 9
  | .extract slot => slot.val ≤ 9
  | _ => true

end Sys2Proof
end

