-- ==== Sys2Proof/Decode.lean ====
section
/-! DEFINITION. Decoding a command word (30_encoding.md R99), total on all `2^64` words and rejecting by name,
and encoding a command (R92 to R96, R98). -/

namespace Sys2Proof

/-- Why a word is no legal command (60_exceptions.md R277). Every one of these faults `E_ILLEGAL`. -/
inductive Reject where
  /-- The opcode is not in the table of 30_encoding.md R98 (R102). -/
  | unassignedOpcode
  /-- A must-be-zero bit is set (R100). -/
  | mustBeZero
  /-- A grid, slot or space selector is out of range (R101, R108). -/
  | selectorRange
  /-- The number names no control register (10_state.md R41). -/
  | unknownRegister
  /-- `CRW` to a read-only control register (10_state.md R24). -/
  | readOnlyRegister
  deriving DecidableEq, Repr

/-- The number of a control register (10_state.md R24). -/
def CReg.num : CReg → BitVec 8
  | .pmod => 0x00 | .lmax => 0x01 | .cmax => 0x02
  | .status => 0x04 | .einfolo => 0x05 | .einfohi => 0x06
  | .k => 0x08 | .n => 0x09 | .w => 0x0A | .h => 0x0B | .blk => 0x0C | .b => 0x0D
  | .seed => 0x0E | .sel => 0x0F | .clen => 0x10 | .scseed => 0x11 | .scidx => 0x12
  | .kslo => 0x13 | .kshi => 0x14
  | .xi j => BitVec.ofNat 8 (0x20 + j.val)
  | .len j => BitVec.ofNat 8 (0x30 + j.val)
  | .sseed j => BitVec.ofNat 8 (0x40 + j.val)

/-- The control register a number names, if it names one (10_state.md R24, R41). -/
def CReg.ofNum? (num : BitVec 8) : Option CReg :=
  match num.toNat with
  | 0x00 => some .pmod | 0x01 => some .lmax | 0x02 => some .cmax
  | 0x04 => some .status | 0x05 => some .einfolo | 0x06 => some .einfohi
  | 0x08 => some .k | 0x09 => some .n | 0x0A => some .w | 0x0B => some .h
  | 0x0C => some .blk | 0x0D => some .b | 0x0E => some .seed | 0x0F => some .sel
  | 0x10 => some .clen | 0x11 => some .scseed | 0x12 => some .scidx
  | 0x13 => some .kslo | 0x14 => some .kshi
  | m =>
    if h : 0x20 ≤ m ∧ m < 0x2A then some (.xi ⟨m - 0x20, by omega⟩)
    else if h : 0x30 ≤ m ∧ m < 0x3A then some (.len ⟨m - 0x30, by omega⟩)
    else if h : 0x40 ≤ m ∧ m < 0x4A then some (.sseed ⟨m - 0x40, by omega⟩)
    else none

/-- The code of a space (20_memory.md R60). -/
def Space.code : Space → BitVec 4
  | .sg => 0 | .dg => 1 | .pm => 2 | .tg => 3 | .sh => 4
  | .cg => 5 | .xv => 6 | .yv => 7 | .cv => 8 | .mat => 9

/-- The space a code names; codes 10 to 15 name none (20_memory.md R60). -/
def Space.ofCode? (code : BitVec 4) : Option Space :=
  match code.toNat with
  | 0 => some .sg | 1 => some .dg | 2 => some .pm | 3 => some .tg | 4 => some .sh
  | 5 => some .cg | 6 => some .xv | 7 => some .yv | 8 => some .cv | 9 => some .mat
  | _ => none

/-- The number of a grid selector (30_encoding.md R93). -/
def Grid.code : Grid → BitVec 4
  | .sg => 0
  | .dg => 1

/-- The grid a selector names; only 0 and 1 name one (30_encoding.md R101). -/
def Grid.ofCode? (code : BitVec 4) : Option Grid :=
  match code.toNat with
  | 0 => some .sg
  | 1 => some .dg
  | _ => none

/-! ### Fields of a word (30_encoding.md R91) -/

/-- `op`, bits 63:56. -/
def opField (w : CmdWord) : BitVec 8 := w.extractLsb' 56 8
/-- `a` of formats F and I, and `space` of format M: bits 55:52. -/
def aField (w : CmdWord) : BitVec 4 := w.extractLsb' 52 4
/-- `b` of format F and `slot` of format M: bits 51:48. -/
def bField (w : CmdWord) : BitVec 4 := w.extractLsb' 48 4
/-- `c` of format F: bits 47:44. -/
def cField (w : CmdWord) : BitVec 4 := w.extractLsb' 44 4
/-- `cr` of format C: bits 55:48. -/
def crField (w : CmdWord) : BitVec 8 := w.extractLsb' 48 8
/-- `data` of format M: bits 47:32. -/
def dataField (w : CmdWord) : BitVec 16 := w.extractLsb' 32 16
/-- `imm32` of formats I and C, and `addr` of format M: bits 31:0. -/
def immField (w : CmdWord) : BitVec 32 := w.extractLsb' 0 32

/-- Go on only if the `len` bits from bit `lo` up are zero (30_encoding.md R100). -/
def ifZero (w : CmdWord) (lo len : Nat) (r : Except Reject Instr) : Except Reject Instr :=
  if w.extractLsb' lo len = 0 then r else .error .mustBeZero

/-- Go on only if the command is in the selector ranges of 30_encoding.md R101. -/
def ifWellFormed (i : Instr) (e : Reject) : Except Reject Instr :=
  if i.wellFormed then .ok i else .error e

/-- A `PUT` or `GET` operand pair: the space must exist (30_encoding.md R108). -/
def withSpace (w : CmdWord) (f : Space → Instr) : Except Reject Instr :=
  match Space.ofCode? (aField w) with
  | some sp => ifWellFormed (f sp) .selectorRange
  | none => .error .selectorRange

/-- The control register of `CRW` or `CRR` must exist (10_state.md R41). -/
def withCReg (w : CmdWord) (f : CReg → Instr) : Except Reject Instr :=
  match CReg.ofNum? (crField w) with
  | some cr => ifWellFormed (f cr) .readOnlyRegister
  | none => .error .unknownRegister

/-- The two grid selectors of `PXOR` must be 0 or 1 (30_encoding.md R101). -/
def withGrids (w : CmdWord) (f : Grid → Grid → Instr) : Except Reject Instr :=
  match Grid.ofCode? (aField w), Grid.ofCode? (bField w) with
  | some d, some s => .ok (f d s)
  | _, _ => .error .selectorRange

/-- Decoding (30_encoding.md R99): the opcode, then the must-be-zero bits, then the selector ranges. It
looks at nothing but the word. -/
def decode (w : CmdWord) : Except Reject Instr :=
  match (opField w).toNat with
  | 0x00 => ifZero w 0 56 (.ok .nop)
  | 0x01 => ifZero w 0 56 (.ok .rst)
  | 0x02 => ifZero w 0 56 (.ok .clre)
  | 0x03 => ifZero w 32 16 (withCReg w fun cr => .crw cr (immField w))
  | 0x04 => ifZero w 0 48 (withCReg w fun cr => .crr cr)
  | 0x08 => withSpace w fun sp => .put sp (bField w).toFin (immField w) (dataField w)
  | 0x09 => ifZero w 32 16 (withSpace w fun sp => .get sp (bField w).toFin (immField w))
  | 0x10 => ifZero w 32 20 (.ok (.fli (aField w).toFin (immField w)))
  | 0x11 => ifZero w 0 44 (.ok (.fadd (aField w).toFin (bField w).toFin (cField w).toFin))
  | 0x12 => ifZero w 0 44 (.ok (.fsub (aField w).toFin (bField w).toFin (cField w).toFin))
  | 0x13 => ifZero w 0 44 (.ok (.fmul (aField w).toFin (bField w).toFin (cField w).toFin))
  | 0x14 => ifZero w 0 48 (.ok (.finv (aField w).toFin (bField w).toFin))
  | 0x15 => ifZero w 0 52 (.ok (.frd (aField w).toFin))
  | 0x20 => ifZero w 0 56 (.ok .kseed)
  | 0x21 => ifZero w 0 52 (.ok (.knext (aField w).toFin))
  | 0x28 => ifZero w 0 56 (.ok .pbuild)
  | 0x29 => ifZero w 0 48 (withGrids w .pxor)
  | 0x30 => ifZero w 0 48 (.ok (.peval (aField w).toFin (bField w).toFin))
  | 0x31 => ifZero w 0 56 (.ok .split)
  | 0x38 => ifZero w 0 52 (.ok (.lagr (aField w).toFin))
  | 0x39 => ifZero w 0 56 (.ok .vand)
  | 0x3A => ifZero w 0 56 (.ok .solve)
  | 0x3B => ifZero w 0 56 (.ok .recon)
  | 0x40 => ifZero w 0 52 (ifWellFormed (.embed (aField w).toFin) .selectorRange)
  | 0x41 => ifZero w 0 52 (ifWellFormed (.extract (aField w).toFin) .selectorRange)
  | 0x48 => ifZero w 0 56 (.ok .distrib)
  | 0x49 => ifZero w 0 56 (.ok .recover)
  | _ => .error .unassignedOpcode

/-! ### Encoding -/

/-- Format N (30_encoding.md R92). -/
def formatN (op : BitVec 8) : CmdWord := op ++ 0#56
/-- Format F (30_encoding.md R93). -/
def formatF (op : BitVec 8) (a b c : BitVec 4) : CmdWord := op ++ a ++ b ++ c ++ 0#44
/-- Format I (30_encoding.md R94). -/
def formatI (op : BitVec 8) (a : BitVec 4) (imm : BitVec 32) : CmdWord := op ++ a ++ 0#20 ++ imm
/-- Format C (30_encoding.md R95). -/
def formatC (op : BitVec 8) (cr : BitVec 8) (imm : BitVec 32) : CmdWord := op ++ cr ++ 0#16 ++ imm
/-- Format M (30_encoding.md R96). -/
def formatM (op : BitVec 8) (space slot : BitVec 4) (data : BitVec 16) (addr : BitVec 32) : CmdWord :=
  op ++ space ++ slot ++ data ++ addr

/-- A register number or a slot number as the four bits of its field. -/
def fieldBits (a : Fin 16) : BitVec 4 := BitVec.ofFin a

/-- The opcode of a command (30_encoding.md R98). -/
def Instr.opcode : Instr → BitVec 8
  | .nop => 0x00 | .rst => 0x01 | .clre => 0x02 | .crw .. => 0x03 | .crr .. => 0x04
  | .put .. => 0x08 | .get .. => 0x09
  | .fli .. => 0x10 | .fadd .. => 0x11 | .fsub .. => 0x12 | .fmul .. => 0x13
  | .finv .. => 0x14 | .frd .. => 0x15
  | .kseed => 0x20 | .knext .. => 0x21
  | .pbuild => 0x28 | .pxor .. => 0x29
  | .peval .. => 0x30 | .split => 0x31
  | .lagr .. => 0x38 | .vand => 0x39 | .solve => 0x3A | .recon => 0x3B
  | .embed .. => 0x40 | .extract .. => 0x41
  | .distrib => 0x48 | .recover => 0x49

/-- The word of a command (30_encoding.md R92 to R98). -/
def encode (i : Instr) : CmdWord :=
  match i with
  | .nop => formatN i.opcode
  | .rst => formatN i.opcode
  | .clre => formatN i.opcode
  | .crw cr imm => formatC i.opcode cr.num imm
  | .crr cr => formatC i.opcode cr.num 0
  | .put sp slot addr data => formatM i.opcode sp.code (fieldBits slot) data addr
  | .get sp slot addr => formatM i.opcode sp.code (fieldBits slot) 0 addr
  | .fli a imm => formatI i.opcode (fieldBits a) imm
  | .fadd a b c => formatF i.opcode (fieldBits a) (fieldBits b) (fieldBits c)
  | .fsub a b c => formatF i.opcode (fieldBits a) (fieldBits b) (fieldBits c)
  | .fmul a b c => formatF i.opcode (fieldBits a) (fieldBits b) (fieldBits c)
  | .finv a b => formatF i.opcode (fieldBits a) (fieldBits b) 0
  | .frd a => formatF i.opcode (fieldBits a) 0 0
  | .kseed => formatN i.opcode
  | .knext a => formatF i.opcode (fieldBits a) 0 0
  | .pbuild => formatN i.opcode
  | .pxor d s => formatF i.opcode d.code s.code 0
  | .peval a b => formatF i.opcode (fieldBits a) (fieldBits b) 0
  | .split => formatN i.opcode
  | .lagr a => formatF i.opcode (fieldBits a) 0 0
  | .vand => formatN i.opcode
  | .solve => formatN i.opcode
  | .recon => formatN i.opcode
  | .embed slot => formatF i.opcode (fieldBits slot) 0 0
  | .extract slot => formatF i.opcode (fieldBits slot) 0 0
  | .distrib => formatN i.opcode
  | .recover => formatN i.opcode

/-- The command word whose bits are the low `nbits` bits of `w`, every bit above them zero. -/
def tableWord (nbits w : Nat) : CmdWord := BitVec.ofNat 64 (w % 2 ^ nbits)

/-- The command the decoder reads from an opcode-table word. -/
def decodeTableWord (nbits w : Nat) : Option Instr :=
  match decode (tableWord nbits w) with
  | .ok i => some i
  | .error _ => none

end Sys2Proof
end

