-- ==== Sys2Proof/Config.lean ====
section
/-! DEFINITION. What an implementation of the unit fixes and the spec leaves open: the two capacities
(00_scope.md R11) and the contents of the buffers after hard reset (10_state.md R51). The free constants have
no body, so no proof can see their values. -/

namespace Sys2Proof

/-- Free constant behind `Config.lmax`; see log entry 4. -/
opaque Config.lmaxChoice : Fin 268435455

/-- Free constant behind `Config.cmax`; see log entry 4. -/
opaque Config.cmaxChoice : Fin 4294967295

/-- `LMAX`, the number of elements of each grid-sized buffer: any value with `1 ≤ LMAX < 2^28`
(00_scope.md R11). `Fin.rev` only renames the choices. -/
def Config.lmax : Nat := Config.lmaxChoice.rev.val + 1

/-- `CMAX`, the number of bytes of the carrier buffer: any value with `1 ≤ CMAX < 2^32` (00_scope.md R11). -/
def Config.cmax : Nat := Config.cmaxChoice.rev.val + 1

/-- What element `a` of `SG` holds from hard reset until it is written (10_state.md R51; log entry 5). -/
opaque Config.powerOnSG : Nat → Byte

/-- What element `a` of `DG` holds from hard reset until it is written (10_state.md R51; log entry 5). -/
opaque Config.powerOnDG : Nat → Byte

/-- What element `a` of `PM` holds from hard reset until it is written (10_state.md R51; log entry 5). -/
opaque Config.powerOnPM : Nat → Byte

/-- What element `a` of `CG` holds from hard reset until it is written (10_state.md R51; log entry 5). -/
opaque Config.powerOnCG : Nat → Byte

/-- What element `a` of share slot `j` holds from hard reset until it is written (10_state.md R51; log entry 5). -/
opaque Config.powerOnSH : Fin 10 → Nat → GF

end Sys2Proof
end

