-- ==== Sys2Proof/Machine/State.lean ====
section
/-! DEFINITION. The state of tp_cripto CORE as plain data (10_state.md), the outcomes of a step that are no
next state, and the state after reset. -/

namespace Sys2Proof.Machine

/-- Why a step could stop the machine. Nothing raises it and it has no constructor: "No command is stuck, none
hangs ..., none is refused" (60_exceptions.md R289), and a fault of the spec is a next state, with its code in
the response (R285). Safe: there is no stop a claim could hide behind. -/
inductive Fault : Type
  deriving DecidableEq, Repr

/-- Why a step could refuse a command. -/
inductive Refusal where
  /-- The command has no meaning in the model yet. Raised only by an arm of `exec` that rejects its command by
  name; no arm does. Safe: the run stops. -/
  | notModelled (mnemonic : String)
  deriving DecidableEq, Repr

/-- The error kinds of 60_exceptions.md R271 that a command can raise. Each is a fault of the spec: it is taken
by `takeFault` and the unit goes on (R286). Code 6, `UnsupportedFormat`, is reserved for the host's own software
and no command produces it (R276), so it has no constructor. -/
inductive ErrKind where
  | invalidParameters
  | insufficientShares
  | duplicateIndex
  | mismatchedLength
  | singularSystem
  | noInverse
  | illegal
  | addr
  | operand
  | capacity
  deriving DecidableEq, Repr

/-- The answer to one command (30_encoding.md R109). -/
structure Response where
  status : BitVec 8
  data : BitVec 32
  deriving DecidableEq, Repr

/-- A buffer: the elements written since hard reset, as (address, element) pairs with strictly rising addresses.
An address that is not listed holds no known element: what it reads as is a free constant of `Config`
(10_state.md R51; log entry 5). `Buf Byte` is a list of `Host.Cell`. -/
abbrev Buf (α : Type) := List (Nat × α)

/-- The buffers (10_state.md R45 to R48). `TG` has no storage (R46). -/
@[ext]
structure Memory where
  /-- The secret grid. -/
  sg : Buf Byte
  /-- The diffused grid. -/
  dg : Buf Byte
  /-- The permutation table. -/
  pm : Buf Byte
  /-- The ten share slots. -/
  sh : Vector (Buf GF) 10
  /-- The carrier. -/
  cg : Buf Byte
  deriving DecidableEq, Repr

/-- Strictly rising addresses: the canonical form of a buffer. No entry can equal what an unlisted address holds,
since that is no value of the buffer's data (log entry 5). -/
def Buf.sorted {α : Type} : Buf α → Bool
  | [] => true
  | (a, _) :: rest => rest.all (fun p => decide (a < p.1)) && Buf.sorted rest

/-- Every buffer is in its canonical form. -/
def Memory.wf (m : Memory) : Bool :=
  Buf.sorted m.sg && Buf.sorted m.dg && Buf.sorted m.pm && Buf.sorted m.cg &&
    m.sh.toList.all (fun b => Buf.sorted b)

/-- The state of the unit (10_state.md R20), and, in the last two fields, the two sides of its command port. -/
@[ext]
structure State where
  /-- `F0..F15` (R21). -/
  f : Vector GF 16
  /-- Control register `LMAX` (R25), the open parameter of 00_scope.md R11. No command writes it. -/
  lmax : Nat
  /-- Control register `CMAX` (R25), the open parameter of 00_scope.md R11. No command writes it. -/
  cmax : Nat
  /-- `STATUS.ERR`, bits 7:0 of `STATUS` (R26). -/
  err : BitVec 8
  /-- `EINFOLO` (R27). -/
  einfolo : BitVec 32
  /-- `EINFOHI` (R27). -/
  einfohi : BitVec 32
  /-- `K` (R28). -/
  k : BitVec 4
  /-- `N` (R29). -/
  n : BitVec 4
  /-- `W` (R30). -/
  w : BitVec 16
  /-- `H` (R30). -/
  h : BitVec 16
  /-- `BLK` (R31). -/
  blk : BitVec 4
  /-- `B` (R32). -/
  b : BitVec 4
  /-- `SEED` (R33). -/
  seed : BitVec 16
  /-- `SEL` (R34). -/
  sel : BitVec 10
  /-- `CLEN` (R35). -/
  clen : BitVec 32
  /-- `SCSEED` (R36). -/
  scseed : BitVec 16
  /-- `SCIDX` (R36). -/
  scidx : BitVec 16
  /-- `XI[0..9]` (R38). -/
  xi : Vector (BitVec 16) 10
  /-- `LEN[0..9]` (R39). -/
  len : Vector (BitVec 32) 10
  /-- `SSEED[0..9]` (R40). -/
  sseed : Vector (BitVec 16) 10
  /-- The generator state `KS` (R42). -/
  ks : BitVec 48
  /-- `XV` (R43). -/
  xv : Vector GF 10
  /-- `YV` (R43). -/
  yv : Vector GF 10
  /-- `CV` (R43). -/
  cv : Vector GF 10
  /-- `MAT`, element `(i, j)` at `11 * i + j` (R44). -/
  mat : Vector GF 110
  /-- The buffers (R45 to R48). -/
  mem : Memory
  /-- The model's own: the commands the host has issued and the unit has not executed, oldest first
  (log entry 1). -/
  cmds : List CmdWord
  /-- The model's own: the responses given, newest first (log entry 3). -/
  resps : List Response
  deriving DecidableEq, Repr

/-- Buffers in which nothing has been written since hard reset. -/
def Memory.unwritten : Memory :=
  { sg := [], dg := [], pm := [], sh := Vector.replicate 10 [], cg := [] }

/-- The state after hard reset of a unit with capacities `lmax` and `cmax` (10_state.md R51,
70_reset_and_hazards.md R310). -/
def State.hardReset (lmax cmax : Nat) : State :=
  { f := Vector.replicate 16 0
    lmax := lmax
    cmax := cmax
    err := 0
    einfolo := 0
    einfohi := 0
    k := 0
    n := 0
    w := 0
    h := 0
    blk := 1
    b := 0
    seed := 0
    sel := 0
    clen := 0
    scseed := 0
    scidx := 0
    xi := Vector.replicate 10 0
    len := Vector.replicate 10 0
    sseed := Vector.replicate 10 0
    ks := 0
    xv := Vector.replicate 10 0
    yv := Vector.replicate 10 0
    cv := Vector.replicate 10 0
    mat := Vector.replicate 110 0
    mem := Memory.unwritten
    cmds := []
    resps := [] }

/-- The machine right after hard reset, for whatever capacities it was built with (00_scope.md R11). -/
def State.reset : State := State.hardReset Config.lmax Config.cmax

end Sys2Proof.Machine
end

