-- ==== Sys2Proof/Machine/Flags.lean ====
section
/-! DEFINITION. What a command leaves behind besides its result. The unit has no condition codes and no
arithmetic flags (10_state.md R23); the sticky error code is the only status, and this file gives the error kinds
their numbers and the status register its bits. -/

namespace Sys2Proof.Machine

/-- The code of an error kind (60_exceptions.md R271). -/
def ErrKind.code : ErrKind → BitVec 8
  | .invalidParameters => 0x01
  | .insufficientShares => 0x02
  | .duplicateIndex => 0x03
  | .mismatchedLength => 0x04
  | .singularSystem => 0x05
  | .noInverse => 0x07
  | .illegal => 0x10
  | .addr => 0x11
  | .operand => 0x12
  | .capacity => 0x13

/-- `STATUS`: bits 7:0 are `ERR`, bits 31:8 read 0 (10_state.md R26). -/
def statusWord (s : State) : BitVec 32 := 0#24 ++ s.err

end Sys2Proof.Machine
end

