-- ==== Sys2Proof/Machine/Arith.lean ====
section
/-! DEFINITION. The pure functions behind the commands: field arithmetic (41_field.md), the generator
(42_keystream.md), polynomial evaluation (44_share_generation.md), interpolation and elimination
(45_reconstruction.md), and the bit groups of the codec (46_stego.md). -/

namespace Sys2Proof.Machine

/-! ### Checked iteration -/

/-- Run `f` over a list from left to right, stopping at the first error. -/
def foldE {σ α : Type} (f : σ → α → Except ErrKind σ) : σ → List α → Except ErrKind σ
  | s, [] => .ok s
  | s, a :: as =>
    match f s a with
    | .ok s' => foldE f s' as
    | .error e => .error e

/-- Collect the results of `f` over a list, stopping at the first error. -/
def collectE {α β : Type} (f : α → Except ErrKind β) : List α → Except ErrKind (List β)
  | [] => .ok []
  | a :: as =>
    match f a with
    | .error e => .error e
    | .ok b =>
      match collectE f as with
      | .error e => .error e
      | .ok bs => .ok (b :: bs)

/-! ### Field arithmetic modulo 257 -/

/-- `fadd(a, b) = (a + b) mod 257` (41_field.md R141). -/
def fadd (a b : GF) : GF := Fin.ofNat 257 (a.val + b.val)

/-- `fsub(a, b) = (a + 257 − b) mod 257` (41_field.md R142). -/
def fsub (a b : GF) : GF := Fin.ofNat 257 (a.val + 257 - b.val)

/-- `fmul(a, b) = (a · b) mod 257`, the product not truncated before it is reduced (41_field.md R143). -/
def fmul (a b : GF) : GF := Fin.ofNat 257 (a.val * b.val)

/-- `finv(a)`: the `x` with `a · x ≡ 1`, none for `a = 0` (41_field.md R144). By search, one of the methods
R145 allows (log entry 8). -/
def finv (a : GF) : Option GF := (List.finRange 257).find? (fun x => fmul a x = 1)

/-- `x^j` with `x^0 = 1` for every `x` (00_scope.md R12, 45_reconstruction.md R205). -/
def fpow (x : GF) : Nat → GF
  | 0 => 1
  | j + 1 => fmul (fpow x j) x

/-- `horner(c, x)` (44_share_generation.md R186). Starting below the last coefficient with 0 gives
`acc = c_{k−1}` after the first step. -/
def horner (c : List GF) (x : GF) : GF := c.foldr (fun ci acc => fadd (fmul acc x) ci) 0

/-! ### Lagrange form -/

/-- The two products over `j ≠ i` of 45_reconstruction.md R201, `(num, den)`. -/
def lagrangeProducts (xs : List GF) (i : Nat) : GF × GF :=
  ((List.range xs.length).filter (fun j => decide (j ≠ i))).foldl
    (fun p j => (fmul p.1 (fsub 0 (xs.getD j 0)), fmul p.2 (fsub (xs.getD i 0) (xs.getD j 0)))) (1, 1)

/-- `lagrange0(xs, ys)` (45_reconstruction.md R201); `NoInverse` where a denominator is 0 (R202). -/
def lagrange0 (xs ys : List GF) : Except ErrKind GF :=
  foldE (fun total i =>
    match finv (lagrangeProducts xs i).2 with
    | some inv => .ok (fadd total (fmul (ys.getD i 0) (fmul (lagrangeProducts xs i).1 inv)))
    | none => .error .noInverse) 0 (List.range xs.length)

/-! ### Linear-system form. An augmented matrix is the list of its rows. -/

/-- `vandermonde(xs, ys)`: row `i` is `x_i^0, …, x_i^(k−1)` and then `y_i` (45_reconstruction.md R205). -/
def vandermonde (xs ys : List GF) : List (List GF) :=
  List.zipWith (fun x y => (List.range xs.length).map (fpow x) ++ [y]) xs ys

/-- `A[r][c]`. -/
def entry (A : List (List GF)) (r c : Nat) : GF := (A.getD r []).getD c 0

/-- The least row `r ≥ col` with `A[r][col] ≠ 0` (45_reconstruction.md R206). -/
def pivotRow? (k : Nat) (A : List (List GF)) (col : Nat) : Option Nat :=
  (List.range k).find? (fun r => decide (col ≤ r) && decide (entry A r col ≠ 0))

/-- Exchange two rows. -/
def swapRows (A : List (List GF)) (i j : Nat) : List (List GF) :=
  (A.set i (A.getD j [])).set j (A.getD i [])

/-- Clear column `col` of `row` with the scaled pivot row: `A[r][t] − f · A[col][t]` for `f = A[r][col]`. -/
def eliminateRow (col : Nat) (pivot row : List GF) : List GF :=
  List.zipWith (fun x p => fsub x (fmul (row.getD col 0) p)) row pivot

/-- One column of `gauss_jordan`: pick the pivot row, exchange, scale, and clear the column in every other row
(45_reconstruction.md R206). The pivot is nonzero by choice, so the second error cannot occur (log entry 9). -/
def gaussColumn (k : Nat) (A : List (List GF)) (col : Nat) : Except ErrKind (List (List GF)) :=
  match pivotRow? k A col with
  | none => .error .singularSystem
  | some piv =>
    let A1 := swapRows A piv col
    match finv (entry A1 col col) with
    | none => .error .noInverse
    | some inv =>
      let pivot := (A1.getD col []).map (fmul inv)
      .ok (A1.mapIdx fun r row => if r = col then pivot else eliminateRow col pivot row)

/-- `gauss_jordan(A)` for a `k × (k+1)` augmented matrix (45_reconstruction.md R206): the reduced matrix. -/
def gaussJordan (k : Nat) (A : List (List GF)) : Except ErrKind (List (List GF)) :=
  foldE (gaussColumn k) A (List.range k)

/-- The solution read from a reduced matrix: `c[i] = A[i][k]` (45_reconstruction.md R206). -/
def solution (k : Nat) (A : List (List GF)) : List GF := (List.range k).map (fun i => entry A i k)

/-- The coefficients `gauss_jordan(vandermonde(xs, ys)).c` (45_reconstruction.md R215). -/
def interpolate (xs ys : List GF) : Except ErrKind (List GF) :=
  match gaussJordan xs.length (vandermonde xs ys) with
  | .ok A => .ok (solution xs.length A)
  | .error e => .error e

/-! ### Keystream -/

/-- `ks_seed(v)`: the seed zero-extended, XORed with the multiplier and masked to 48 bits
(42_keystream.md R161). -/
def ksSeed (v : BitVec 16) : BitVec 48 := (v.setWidth 48 ^^^ 0x5DEECE66D#48) &&& 0xFFFFFFFFFFFF#48

/-- The new state of `ks_next` (42_keystream.md R162); 48-bit arithmetic is exact modulo `2^48`. -/
def ksStep (s : BitVec 48) : BitVec 48 := 0x5DEECE66D#48 * s + 0xB#48

/-- The byte of `ks_next`: bits 47:40 of the new state (42_keystream.md R162). -/
def ksByte (s : BitVec 48) : Byte := (ksStep s).extractLsb' 40 8

/-- The next `count` bytes drawn from state `s` (43_permutation.md R171). -/
def ksBytes : Nat → BitVec 48 → List Byte
  | 0, _ => []
  | count + 1, s => ksByte s :: ksBytes count (ksStep s)

/-- The state after `count` draws from `s`. -/
def ksAfter : Nat → BitVec 48 → BitVec 48
  | 0, s => s
  | count + 1, s => ksAfter count (ksStep s)

/-! ### Samples and field elements -/

/-- A Sample as a field element, "by value" (41_field.md R140). -/
def sampleToGF (v : Byte) : GF := Fin.ofNat 257 v.toNat

/-- A field element as a Sample, if it is one (45_reconstruction.md R217, 46_stego.md R234). -/
def gfToSample (x : GF) : Except ErrKind Byte :=
  if 255 < x.val then .error .operand else .ok (BitVec.ofNat 8 x.val)

/-! ### The codec's groups -/

/-- The mask `(1 << B) − 1` (46_stego.md R233). -/
def groupMask (width : Nat) : Byte := BitVec.ofNat 8 (2 ^ width - 1)

/-- Group `g_t` of a share byte, most significant group first (46_stego.md R232). -/
def shareGroup (width : Nat) (v : Byte) (t : Nat) : Byte :=
  (v >>> (8 - width * (t + 1))) &&& groupMask width

/-- `embed_byte(cb, g)` (46_stego.md R233). -/
def embedByte (width : Nat) (cb g : Byte) : Byte := (cb &&& ~~~(groupMask width)) ||| g

/-- `extract_group(cb)` (46_stego.md R233). -/
def extractGroup (width : Nat) (cb : Byte) : Byte := cb &&& groupMask width

/-- A share byte from its groups, first group on top (46_stego.md R237). -/
def assembleByte (width : Nat) (groups : List Byte) : Byte :=
  groups.foldl (fun v g => (v <<< width) ||| g) 0

end Sys2Proof.Machine
end

