-- ==== Sys2Proof/Machine/Ops.lean ====
section
/-! DEFINITION. The shared operations over the state: buffers, registers, the host's element accesses, taking a
fault, clearing it, and completing a command. -/

namespace Sys2Proof.Machine

/-! ### Buffers -/

/-- The element written last at an address, if one was written since hard reset. -/
def bufGet {α : Type} : Buf α → Nat → Option α
  | [], _ => none
  | (b, v) :: rest, a => if b = a then some v else bufGet rest a

/-- Write one element, keeping the addresses strictly rising. -/
def bufSet {α : Type} : Buf α → Nat → α → Buf α
  | [], a, v => [(a, v)]
  | (b, u) :: rest, a, v =>
    if a < b then (a, v) :: (b, u) :: rest
    else if a = b then (a, v) :: rest
    else (b, u) :: bufSet rest a v

/-- Write the elements `vs` at addresses `a`, `a + 1`, … -/
def bufSetList {α : Type} : Buf α → Nat → List α → Buf α
  | m, _, [] => m
  | m, a, v :: vs => bufSetList (bufSet m a v) (a + 1) vs

/-- `Mem.SG[a]`; the free constant where nothing was written (10_state.md R51). -/
def Memory.sgAt (m : Memory) (a : Nat) : Byte := (bufGet m.sg a).getD (Config.powerOnSG a)

/-- `Mem.DG[a]`. -/
def Memory.dgAt (m : Memory) (a : Nat) : Byte := (bufGet m.dg a).getD (Config.powerOnDG a)

/-- `Mem.PM[a]`. -/
def Memory.pmAt (m : Memory) (a : Nat) : Byte := (bufGet m.pm a).getD (Config.powerOnPM a)

/-- `Mem.CG[a]`. -/
def Memory.cgAt (m : Memory) (a : Nat) : Byte := (bufGet m.cg a).getD (Config.powerOnCG a)

/-- `Mem.SH[j][a]`. -/
def Memory.shAt (m : Memory) (j : Fin 10) (a : Nat) : GF :=
  (bufGet m.sh[j] a).getD (Config.powerOnSH j a)

/-- The grid a `PXOR` selector names (43_permutation.md R175). -/
def Memory.gridAt (m : Memory) (g : Grid) (a : Nat) : Byte :=
  match g with
  | .sg => m.sgAt a
  | .dg => m.dgAt a

/-! ### Vector registers -/

/-- Element `i` of a vector register; the commands use only indexes inside it. -/
def vecAt {n : Nat} (v : Vector GF n) (i : Nat) : GF := v[i]?.getD 0

/-- Elements `0..count−1` of a vector register. -/
def vecTake {n : Nat} (v : Vector GF n) (count : Nat) : List GF := (List.range count).map (vecAt v)

/-! ### Field registers -/

/-- `F[a]` (10_state.md R21). -/
def State.readF (s : State) (a : Fin 16) : GF := s.f[a]

/-- `F[a] <- v` (10_state.md R21). -/
def State.writeF (s : State) (a : Fin 16) (v : GF) : State := { s with f := s.f.set a.val v }

/-! ### Control registers -/

/-- `CR.cr` as `CRR` reads it (10_state.md R24 to R40). -/
def State.readCR (s : State) (cr : CReg) : BitVec 32 :=
  match cr with
  | .pmod => 257
  | .lmax => BitVec.ofNat 32 s.lmax
  | .cmax => BitVec.ofNat 32 s.cmax
  | .status => statusWord s
  | .einfolo => s.einfolo
  | .einfohi => s.einfohi
  | .k => s.k.setWidth 32
  | .n => s.n.setWidth 32
  | .w => s.w.setWidth 32
  | .h => s.h.setWidth 32
  | .blk => s.blk.setWidth 32
  | .b => s.b.setWidth 32
  | .seed => s.seed.setWidth 32
  | .sel => s.sel.setWidth 32
  | .clen => s.clen
  | .scseed => s.scseed.setWidth 32
  | .scidx => s.scidx.setWidth 32
  | .kslo => s.ks.extractLsb' 0 32
  | .kshi => (s.ks.extractLsb' 32 16).setWidth 32
  | .xi j => s.xi[j].setWidth 32
  | .len j => s.len[j]
  | .sseed j => s.sseed[j].setWidth 32

/-- `max(cr)` of 10_state.md R24. The read-only registers have none; they are never written. -/
def State.maxCR (s : State) (cr : CReg) : Nat :=
  match cr with
  | .k | .n | .blk | .b => 15
  | .w | .h | .seed | .scseed | .scidx | .xi _ | .sseed _ => 65535
  | .sel => 1023
  | .clen => s.cmax
  | .len _ => s.lmax
  | .pmod | .lmax | .cmax | .status | .einfolo | .einfohi | .kslo | .kshi => 0

/-- `CR.cr <- v` for a value not above `max(cr)` (10_state.md R24); a read-only register is left alone. -/
def State.writeCR (s : State) (cr : CReg) (v : BitVec 32) : State :=
  match cr with
  | .k => { s with k := v.setWidth 4 }
  | .n => { s with n := v.setWidth 4 }
  | .w => { s with w := v.setWidth 16 }
  | .h => { s with h := v.setWidth 16 }
  | .blk => { s with blk := v.setWidth 4 }
  | .b => { s with b := v.setWidth 4 }
  | .seed => { s with seed := v.setWidth 16 }
  | .sel => { s with sel := v.setWidth 10 }
  | .clen => { s with clen := v }
  | .scseed => { s with scseed := v.setWidth 16 }
  | .scidx => { s with scidx := v.setWidth 16 }
  | .xi j => { s with xi := s.xi.set j.val (v.setWidth 16) }
  | .len j => { s with len := s.len.set j.val v }
  | .sseed j => { s with sseed := s.sseed.set j.val (v.setWidth 16) }
  | .pmod | .lmax | .cmax | .status | .einfolo | .einfohi | .kslo | .kshi => s

/-! ### Element accesses -/

/-- The slot a slot field names, 0 to 9 (20_memory.md R64). -/
def slotOf? (slot : Fin 16) : Option (Fin 10) :=
  if h : slot.val < 10 then some ⟨slot.val, h⟩ else none

/-- The size of a space in elements (20_memory.md R60, R63). -/
def State.spaceSize (s : State) (sp : Space) : Nat :=
  match sp with
  | .sg | .dg | .pm | .tg | .sh => s.lmax
  | .cg => s.cmax
  | .xv | .yv | .cv => 10
  | .mat => 110

/-- The greatest element value of a space (20_memory.md R65). -/
def elementMax (sp : Space) : Nat :=
  match sp with
  | .sg | .dg | .pm | .tg | .cg => 255
  | .sh | .xv | .yv | .cv | .mat => 256

/-- The grid length `L = W · H`, refused for an empty or oversize grid (10_state.md R30, 43_permutation.md
R174). -/
def State.gridLength (s : State) : Except ErrKind Nat :=
  if s.w.toNat = 0 ∨ s.h.toNat = 0 ∨ s.lmax < s.w.toNat * s.h.toNat then .error .invalidParameters
  else .ok (s.w.toNat * s.h.toNat)

/-- The stored element at an address of a space other than `TG`, as a number. `slot` counts for `SH` only. -/
def State.element (s : State) (sp : Space) (slot : Fin 10) (a : Nat) : Nat :=
  match sp with
  | .sg => (s.mem.sgAt a).toNat
  | .dg => (s.mem.dgAt a).toNat
  | .pm | .tg => (s.mem.pmAt a).toNat
  | .sh => (s.mem.shAt slot a).val
  | .cg => (s.mem.cgAt a).toNat
  | .xv => (vecAt s.xv a).val
  | .yv => (vecAt s.yv a).val
  | .cv => (vecAt s.cv a).val
  | .mat => (vecAt s.mat a).val

/-- Store `v` at an address of a space; `TG` has no storage (20_memory.md R68). -/
def State.setElement (s : State) (sp : Space) (slot : Fin 10) (a v : Nat) : State :=
  match sp with
  | .sg => { s with mem := { s.mem with sg := bufSet s.mem.sg a (BitVec.ofNat 8 v) } }
  | .dg => { s with mem := { s.mem with dg := bufSet s.mem.dg a (BitVec.ofNat 8 v) } }
  | .pm => { s with mem := { s.mem with pm := bufSet s.mem.pm a (BitVec.ofNat 8 v) } }
  | .tg => s
  | .sh =>
    { s with mem := { s.mem with
        sh := s.mem.sh.set slot.val (bufSet s.mem.sh[slot] a (Fin.ofNat 257 v)) } }
  | .cg => { s with mem := { s.mem with cg := bufSet s.mem.cg a (BitVec.ofNat 8 v) } }
  | .xv => { s with xv := s.xv.setIfInBounds a (Fin.ofNat 257 v) }
  | .yv => { s with yv := s.yv.setIfInBounds a (Fin.ofNat 257 v) }
  | .cv => { s with cv := s.cv.setIfInBounds a (Fin.ofNat 257 v) }
  | .mat => { s with mat := s.mat.setIfInBounds a (Fin.ofNat 257 v) }

/-- The share slot an access uses, with the slot rule of 20_memory.md R64; slot 0 stands for "none" where the
space has no slots. -/
def accessSlot (sp : Space) (slot : Fin 16) : Except ErrKind (Fin 10) :=
  if sp.slotLegal slot then
    match slotOf? slot with
    | some j => .ok j
    | none => .error .illegal
  else .error .illegal

/-- `MemRead(space, slot, addr)` (20_memory.md R66), with the `TG` view of R68. -/
def State.memRead (s : State) (sp : Space) (slot : Fin 16) (addr : Nat) : Except ErrKind Nat :=
  match accessSlot sp slot with
  | .error e => .error e
  | .ok j =>
    if s.spaceSize sp ≤ addr then .error .addr
    else if sp = .tg then
      match s.gridLength with
      | .error e => .error e
      | .ok L => .ok ((s.mem.pmAt addr).toNat % L)
    else .ok (s.element sp j addr)

/-- `MemWrite(space, slot, addr, v)` (20_memory.md R67). -/
def State.memWrite (s : State) (sp : Space) (slot : Fin 16) (addr v : Nat) : Except ErrKind State :=
  if sp = .tg then .error .illegal
  else
    match accessSlot sp slot with
    | .error e => .error e
    | .ok j =>
      if s.spaceSize sp ≤ addr then .error .addr
      else if elementMax sp < v then .error .operand
      else .ok (s.setElement sp j addr v)

/-! ### The command port, taking a fault, clearing it -/

/-- Give the response of the command just executed (30_encoding.md R109). -/
def State.respond (s : State) (status : BitVec 8) (data : BitVec 32) : State :=
  { s with resps := ⟨status, data⟩ :: s.resps }

/-- Fault entry (60_exceptions.md R285) in the state before the command, whose word is `word`: the first fault
since the last clear is recorded (R287), every fault is in its response. What the command wrote is discarded
because the meanings hand over the state they started from. -/
def takeFault (e : ErrKind) (word : CmdWord) (s : State) : State :=
  (if s.err = 0 then
    { s with err := e.code, einfolo := word.extractLsb' 0 32, einfohi := word.extractLsb' 32 32 }
   else s).respond e.code 0

/-- Clearing the sticky error, the counterpart of a return from a fault (60_exceptions.md R288). -/
def clearError (s : State) : State := { s with err := 0, einfolo := 0, einfohi := 0 }

/-- Soft reset (70_reset_and_hazards.md R311): hard reset on everything but the buffers. The command port is no
state of the unit and stays. -/
def softReset (s : State) : State :=
  { State.hardReset s.lmax s.cmax with mem := s.mem, cmds := s.cmds, resps := s.resps }

/-- End of a command (40_system_access.md R120): commit and respond, or take the fault in the state before it.
The word of command `i` is `encode i`, since a word decodes to `i` only if it is `encode i` (log entry 6). -/
def complete (i : Instr) (s : State) (r : Except ErrKind (State × BitVec 32)) :
    Host.Outcome State Fault Refusal :=
  match r with
  | .ok (t, data) => .next (t.respond 0 data)
  | .error e => .next (takeFault e (encode i) s)

/-- End of a command that answers no data (30_encoding.md R109). -/
def completeQuiet (i : Instr) (s : State) (r : Except ErrKind State) : Host.Outcome State Fault Refusal :=
  complete i s (match r with
    | .ok t => .ok (t, 0)
    | .error e => .error e)

/-- The next command the host has issued, and the state without it (10_state.md R22). -/
def fetch (s : State) : Option (CmdWord × State) :=
  match s.cmds with
  | [] => none
  | word :: rest => some (word, { s with cmds := rest })

end Sys2Proof.Machine
end

