-- ==== Sys2Proof/Machine/Operands.lean ====
section
/-! DEFINITION. The parameter checks of the commands, each in the order its rule lists (60_exceptions.md R284),
and the operation bodies that several commands share. -/

namespace Sys2Proof.Machine

/-- `2 ≤ K ≤ 10`, else `InvalidParameters` (10_state.md R28). The answer is `K`. -/
def State.threshold (s : State) : Except ErrKind Nat :=
  if s.k.toNat < 2 ∨ 10 < s.k.toNat then .error .invalidParameters else .ok s.k.toNat

/-- Checks 5 and 6 of 44_share_generation.md R195 for a grid of length `L`: `BLK` is 1 or `K` and divides `L`.
The answer is the number of elements of a stream, `L div BLK`. -/
def State.blockCount (s : State) (L : Nat) : Except ErrKind Nat :=
  if s.blk.toNat ≠ 1 ∧ s.blk ≠ s.k then .error .invalidParameters
  else if L % s.blk.toNat ≠ 0 then .error .invalidParameters
  else .ok (L / s.blk.toNat)

/-- `check_grid()`: checks 1, 4, 5 and 6 of 44_share_generation.md R195. The answer is `(L, L div BLK)`. -/
def State.checkGrid (s : State) : Except ErrKind (Nat × Nat) :=
  match s.threshold with
  | .error e => .error e
  | .ok _ =>
    match s.gridLength with
    | .error e => .error e
    | .ok L =>
      match s.blockCount L with
      | .error e => .error e
      | .ok count => .ok (L, count)

/-- `check_split()`: all six checks of 44_share_generation.md R195; they report one code, so that the checks on
`N` stand after the others is not observable. The answer is `(L, L div BLK)`. -/
def State.checkSplit (s : State) : Except ErrKind (Nat × Nat) :=
  if s.k.toNat < 2 ∨ 10 < s.k.toNat then .error .invalidParameters
  else if 10 < s.n.toNat then .error .invalidParameters
  else if s.n.toNat < s.k.toNat then .error .invalidParameters
  else s.checkGrid

/-- The supplied slots, ascending (10_state.md R34, 45_reconstruction.md R216). -/
def State.selected (s : State) : List (Fin 10) := (List.finRange 10).filter (fun j => s.sel.getLsbD j.val)

/-- What `recon_checks()` answers (45_reconstruction.md R216), with the grid length beside it. -/
structure ReconInput where
  sel : List (Fin 10)
  xs : List GF
  gridLen : Nat
  count : Nat
  deriving DecidableEq, Repr

/-- `recon_checks()`: the six checks of 45_reconstruction.md R216, in their order. -/
def State.reconChecks (s : State) : Except ErrKind ReconInput :=
  match s.checkGrid with
  | .error e => .error e
  | .ok (L, count) =>
    if s.selected.length < s.k.toNat then .error .insufficientShares
    else if s.k.toNat < s.selected.length then .error .invalidParameters
    else if s.selected.any (fun j => decide (s.xi[j].toNat = 0 ∨ 10 < s.xi[j].toNat)) then
      .error .invalidParameters
    else if ¬ (s.selected.map (fun j => s.xi[j])).Nodup then .error .duplicateIndex
    else if s.selected.any (fun j => decide (s.len[j].toNat ≠ count)) then .error .mismatchedLength
    else .ok ⟨s.selected, s.selected.map (fun j => Fin.ofNat 257 s.xi[j].toNat), L, count⟩

/-- The embedding width: `B` must be 1, 2 or 8 (46_stego.md R230). -/
def State.embedWidth (s : State) : Except ErrKind Nat :=
  if s.b.toNat = 1 ∨ s.b.toNat = 2 ∨ s.b.toNat = 8 then .ok s.b.toNat else .error .invalidParameters

/-- `per(B) = 8 div B`, the carrier bytes a share byte takes (46_stego.md R231). -/
def perShare (width : Nat) : Nat := 8 / width

/-- The checks `EMBED` and `EXTRACT` share, in order: the slot, the width, the capacity (46_stego.md R236,
R237). The answer is the slot and the width. -/
def State.codecChecks (s : State) (slot : Fin 16) : Except ErrKind (Fin 10 × Nat) :=
  match slotOf? slot with
  | none => .error .illegal
  | some j =>
    match s.embedWidth with
    | .error e => .error e
    | .ok width =>
      if s.clen.toNat < s.len[j].toNat * perShare width then .error .capacity else .ok (j, width)

/-! ### Operation bodies -/

/-- The writes of `PBUILD` for a grid of length `L`: the first `L` table entries and `KS` (43_permutation.md
R171, R174). -/
def State.buildTable (s : State) (L : Nat) : State :=
  { s with
    mem := { s.mem with pm := bufSetList s.mem.pm 0 (ksBytes L (ksSeed s.seed)) }
    ks := ksAfter L (ksSeed s.seed) }

/-- `src[p] XOR PM[p]` for `p = 0 .. L−1` (43_permutation.md R172). -/
def State.maskedGrid (s : State) (src : Grid) (L : Nat) : List Byte :=
  (List.range L).map (fun p => s.mem.gridAt src p ^^^ s.mem.pmAt p)

/-- Replace elements `0 ..` of a grid. -/
def State.writeGrid (s : State) (dst : Grid) (vs : List Byte) : State :=
  match dst with
  | .sg => { s with mem := { s.mem with sg := bufSetList s.mem.sg 0 vs } }
  | .dg => { s with mem := { s.mem with dg := bufSetList s.mem.dg 0 vs } }

/-- The writes of `PXOR` for a grid of length `L`; every source element is read before one is written
(43_permutation.md R175). -/
def State.xorGrid (s : State) (dst src : Grid) (L : Nat) : State := s.writeGrid dst (s.maskedGrid src L)

/-- The coefficients of position or block `q` (44_share_generation.md R187, R189). -/
def State.shareCoeffs (s : State) (q : Nat) : List GF :=
  if s.blk.toNat = 1 then List.replicate s.k.toNat (sampleToGF (s.mem.dgAt q))
  else (List.range s.k.toNat).map (fun i => sampleToGF (s.mem.dgAt (q * s.k.toNat + i)))

/-- The share stream with index `x`, of `count` elements (44_share_generation.md R191). -/
def State.shareStream (s : State) (count x : Nat) : List GF :=
  (List.range count).map (fun q => horner (s.shareCoeffs q) (Fin.ofNat 257 x))

/-- The writes of `SPLIT` for streams of `count` elements: slot `x − 1` for `x = 1 .. N` (44_share_generation.md
R194). -/
def State.splitStreams (s : State) (count : Nat) : State :=
  { s with
    mem := { s.mem with
      sh := Vector.ofFn fun j : Fin 10 =>
        if j.val < s.n.toNat then bufSetList s.mem.sh[j] 0 (s.shareStream count (j.val + 1)) else s.mem.sh[j] }
    xi := Vector.ofFn fun j : Fin 10 =>
      if j.val < s.n.toNat then BitVec.ofNat 16 (j.val + 1) else s.xi[j]
    len := Vector.ofFn fun j : Fin 10 => if j.val < s.n.toNat then BitVec.ofNat 32 count else s.len[j]
    sseed := Vector.ofFn fun j : Fin 10 => if j.val < s.n.toNat then s.seed else s.sseed[j] }

/-- The samples recovered for position or block `q`: `c[0]` or, in block mode, all of `c`
(45_reconstruction.md R215, R217). -/
def State.reconBlock (s : State) (r : ReconInput) (q : Nat) : Except ErrKind (List Byte) :=
  match interpolate r.xs (r.sel.map (fun j => s.mem.shAt j q)) with
  | .error e => .error e
  | .ok c => collectE gfToSample (if s.blk.toNat = 1 then c.take 1 else c)

/-- The grid `RECON` computes (45_reconstruction.md R215). -/
def State.reconGrid (s : State) (r : ReconInput) : Except ErrKind (List Byte) :=
  match collectE (s.reconBlock r) (List.range r.count) with
  | .error e => .error e
  | .ok blocks => .ok blocks.flatten

end Sys2Proof.Machine
end

