-- ==== Sys2Proof/Machine/Field.lean ====
section
/-! DEFINITION. The field commands (41_field.md). -/

namespace Sys2Proof.Machine

/-- `FLI a, imm32`: refused above 256, never reduced (41_field.md R147). -/
def execFli (a : Fin 16) (imm : BitVec 32) (s : State) : Host.Outcome State Fault Refusal :=
  completeQuiet (.fli a imm) s
    (if 256 < imm.toNat then .error .operand else .ok (s.writeF a (Fin.ofNat 257 imm.toNat)))

/-- `FADD a, b, c` (41_field.md R148). -/
def execFadd (a b c : Fin 16) (s : State) : Host.Outcome State Fault Refusal :=
  completeQuiet (.fadd a b c) s (.ok (s.writeF a (fadd (s.readF b) (s.readF c))))

/-- `FSUB a, b, c`: minuend `F[b]`, subtrahend `F[c]` (41_field.md R149). -/
def execFsub (a b c : Fin 16) (s : State) : Host.Outcome State Fault Refusal :=
  completeQuiet (.fsub a b c) s (.ok (s.writeF a (fsub (s.readF b) (s.readF c))))

/-- `FMUL a, b, c` (41_field.md R150). -/
def execFmul (a b c : Fin 16) (s : State) : Host.Outcome State Fault Refusal :=
  completeQuiet (.fmul a b c) s (.ok (s.writeF a (fmul (s.readF b) (s.readF c))))

/-- `FINV a, b`: `NoInverse` when `F[b] = 0` (41_field.md R151). -/
def execFinv (a b : Fin 16) (s : State) : Host.Outcome State Fault Refusal :=
  completeQuiet (.finv a b) s
    (match finv (s.readF b) with
     | some x => .ok (s.writeF a x)
     | none => .error .noInverse)

/-- `FRD a` (41_field.md R152). -/
def execFrd (a : Fin 16) (s : State) : Host.Outcome State Fault Refusal :=
  complete (.frd a) s (.ok (s, BitVec.ofNat 32 (s.readF a).val))

end Sys2Proof.Machine
end

