-- ==== Sys2Proof/Machine/Keystream.lean ====
section
/-! DEFINITION. The generator commands (42_keystream.md). -/

namespace Sys2Proof.Machine

/-- `KSEED` (42_keystream.md R164). -/
def execKseed (s : State) : Host.Outcome State Fault Refusal :=
  completeQuiet .kseed s (.ok { s with ks := ksSeed s.seed })

/-- `KNEXT a` (42_keystream.md R165). -/
def execKnext (a : Fin 16) (s : State) : Host.Outcome State Fault Refusal :=
  completeQuiet (.knext a) s (.ok ({ s with ks := ksStep s.ks }.writeF a (sampleToGF (ksByte s.ks))))

end Sys2Proof.Machine
end

