-- ==== Sys2Proof/Machine/Permutation.lean ====
section
/-! DEFINITION. The permutation (diffusion) commands (43_permutation.md). -/

namespace Sys2Proof.Machine

/-- `PBUILD` (43_permutation.md R174). -/
def execPbuild (s : State) : Host.Outcome State Fault Refusal :=
  completeQuiet .pbuild s
    (match s.gridLength with
     | .error e => .error e
     | .ok L => .ok (s.buildTable L))

/-- `PXOR a, b` (43_permutation.md R175). -/
def execPxor (dst src : Grid) (s : State) : Host.Outcome State Fault Refusal :=
  completeQuiet (.pxor dst src) s
    (match s.gridLength with
     | .error e => .error e
     | .ok L => .ok (s.xorGrid dst src L))

end Sys2Proof.Machine
end

