-- ==== Sys2Proof/Machine/Reconstruct.lean ====
section
/-! DEFINITION. Interpolation, the linear-system solver and the share reconstructor (45_reconstruction.md). -/

namespace Sys2Proof.Machine

/-- `MAT` with a `k × (k+1)` augmented matrix written to it: its columns `0..k−1` in columns `0..k−1` and its last
column in column 10, in rows `0..k−1`; the other elements stay (10_state.md R44). -/
def systemMatrix (m : Vector GF 110) (k : Nat) (A : List (List GF)) : Vector GF 110 :=
  Vector.ofFn fun p : Fin 110 =>
    if p.val / 11 < k ∧ p.val % 11 < k then entry A (p.val / 11) (p.val % 11)
    else if p.val / 11 < k ∧ p.val % 11 = 10 then entry A (p.val / 11) k
    else m[p]

/-- Write a `k × (k+1)` augmented matrix to `MAT`. -/
def State.storeSystem (s : State) (k : Nat) (A : List (List GF)) : State :=
  { s with mat := systemMatrix s.mat k A }

/-- `CV` with `c[i]` in element `i` for `i < k`; the other elements stay (45_reconstruction.md R214). -/
def coeffVector (v : Vector GF 10) (k : Nat) (c : List GF) : Vector GF 10 :=
  Vector.ofFn fun i : Fin 10 => if i.val < k then c.getD i.val 0 else v[i]

/-- `CV[i] <- c[i]` for `i < k`. -/
def State.storeCoeffs (s : State) (k : Nat) (c : List GF) : State := { s with cv := coeffVector s.cv k c }

/-- Read the `k × (k+1)` augmented matrix of `MAT` (10_state.md R44, 45_reconstruction.md R214). -/
def State.loadSystem (s : State) (k : Nat) : List (List GF) :=
  (List.range k).map fun i =>
    (List.range k).map (fun j => vecAt s.mat (11 * i + j)) ++ [vecAt s.mat (11 * i + 10)]

/-- `LAGR a` (45_reconstruction.md R212). -/
def execLagr (a : Fin 16) (s : State) : Host.Outcome State Fault Refusal :=
  completeQuiet (.lagr a) s
    (match s.threshold with
     | .error e => .error e
     | .ok k =>
       match lagrange0 (vecTake s.xv k) (vecTake s.yv k) with
       | .error e => .error e
       | .ok x => .ok (s.writeF a x))

/-- `VAND` (45_reconstruction.md R213). -/
def execVand (s : State) : Host.Outcome State Fault Refusal :=
  completeQuiet .vand s
    (match s.threshold with
     | .error e => .error e
     | .ok k => .ok (s.storeSystem k (vandermonde (vecTake s.xv k) (vecTake s.yv k))))

/-- `SOLVE` (45_reconstruction.md R214). -/
def execSolve (s : State) : Host.Outcome State Fault Refusal :=
  completeQuiet .solve s
    (match s.threshold with
     | .error e => .error e
     | .ok k =>
       match gaussJordan k (s.loadSystem k) with
       | .error e => .error e
       | .ok A => .ok ((s.storeSystem k A).storeCoeffs k (solution k A)))

/-- `RECON` (45_reconstruction.md R215). -/
def execRecon (s : State) : Host.Outcome State Fault Refusal :=
  completeQuiet .recon s
    (match s.reconChecks with
     | .error e => .error e
     | .ok r =>
       match s.reconGrid r with
       | .error e => .error e
       | .ok vs => .ok (s.writeGrid .dg vs))

end Sys2Proof.Machine
end

