-- ==== Sys2Proof/Machine/Scheme.lean ====
section
/-! DEFINITION. The scheme operations (47_scheme.md). -/

namespace Sys2Proof.Machine

/-- `DISTRIB`: the writes of `PBUILD`, of `PXOR DG, SG` and of `SPLIT` (47_scheme.md R252). -/
def execDistrib (s : State) : Host.Outcome State Fault Refusal :=
  completeQuiet .distrib s
    (match s.checkSplit with
     | .error e => .error e
     | .ok (L, count) => .ok (((s.buildTable L).xorGrid .dg .sg L).splitStreams count))

/-- The common seed of the supplied shares (47_scheme.md R253); `InvalidParameters` if they differ. The list of
slots is not empty after `recon_checks()`, since `K ≥ 2`. -/
def State.commonSeed (s : State) (sel : List (Fin 10)) : Except ErrKind (BitVec 16) :=
  match sel with
  | [] => .error .invalidParameters
  | j :: rest =>
    if rest.all (fun i => decide (s.sseed[i] = s.sseed[j])) then .ok s.sseed[j] else .error .invalidParameters

/-- `RECOVER` (47_scheme.md R253). -/
def execRecover (s : State) : Host.Outcome State Fault Refusal :=
  completeQuiet .recover s
    (match s.reconChecks with
     | .error e => .error e
     | .ok r =>
       match s.commonSeed r.sel with
       | .error e => .error e
       | .ok seed =>
         match s.reconGrid r with
         | .error e => .error e
         | .ok vs =>
           .ok (({ s.writeGrid .dg vs with seed := seed }.buildTable r.gridLen).xorGrid .sg .dg r.gridLen))

end Sys2Proof.Machine
end

