-- ==== Sys2Proof/Machine/ShareGen.lean ====
section
/-! DEFINITION. Polynomial evaluation and share generation (44_share_generation.md). -/

namespace Sys2Proof.Machine

/-- `PEVAL a, b` (44_share_generation.md R193). -/
def execPeval (a b : Fin 16) (s : State) : Host.Outcome State Fault Refusal :=
  completeQuiet (.peval a b) s
    (match s.threshold with
     | .error e => .error e
     | .ok k => .ok (s.writeF a (horner (vecTake s.cv k) (s.readF b))))

/-- `SPLIT` (44_share_generation.md R194). -/
def execSplit (s : State) : Host.Outcome State Fault Refusal :=
  completeQuiet .split s
    (match s.checkSplit with
     | .error e => .error e
     | .ok (_, count) => .ok (s.splitStreams count))

end Sys2Proof.Machine
end

