-- ==== Sys2Proof/Machine/Stego.lean ====
section
/-! DEFINITION. The steganographic codec (46_stego.md). -/

namespace Sys2Proof.Machine

/-- The `count` share bytes of slot `j` to embed; an element of 256 is no byte (46_stego.md R234). -/
def State.shareBytes (s : State) (j : Fin 10) (count : Nat) : Except ErrKind (List Byte) :=
  collectE (fun i => gfToSample (s.mem.shAt j i)) (List.range count)

/-- The carrier bytes from byte 0 on after embedding `vs` with width `width`: byte `i·per + t` takes group `t`
of share byte `i` (46_stego.md R232, R236). -/
def State.embeddedBytes (s : State) (width : Nat) (vs : List Byte) : List Byte :=
  (List.range (vs.length * perShare width)).map fun c =>
    embedByte width (s.mem.cgAt c) (shareGroup width (vs.getD (c / perShare width) 0) (c % perShare width))

/-- Share byte `i` as the carrier holds it (46_stego.md R237). -/
def State.extractedByte (s : State) (width i : Nat) : Byte :=
  assembleByte width ((List.range (perShare width)).map fun t =>
    extractGroup width (s.mem.cgAt (i * perShare width + t)))

/-- `EMBED a` (46_stego.md R236). -/
def execEmbed (slot : Fin 16) (s : State) : Host.Outcome State Fault Refusal :=
  completeQuiet (.embed slot) s
    (match s.codecChecks slot with
     | .error e => .error e
     | .ok (j, width) =>
       match s.shareBytes j s.len[j].toNat with
       | .error e => .error e
       | .ok vs =>
         .ok { s with
           mem := { s.mem with cg := bufSetList s.mem.cg 0 (s.embeddedBytes width vs) }
           scseed := s.sseed[j]
           scidx := s.xi[j] })

/-- `EXTRACT a` (46_stego.md R237). -/
def execExtract (slot : Fin 16) (s : State) : Host.Outcome State Fault Refusal :=
  completeQuiet (.extract slot) s
    (match s.codecChecks slot with
     | .error e => .error e
     | .ok (j, width) =>
       .ok { s with
         mem := { s.mem with
           sh := s.mem.sh.set j.val (bufSetList s.mem.sh[j] 0
             ((List.range s.len[j].toNat).map fun i => sampleToGF (s.extractedByte width i))) }
         xi := s.xi.set j.val s.scidx
         sseed := s.sseed.set j.val s.scseed })

end Sys2Proof.Machine
end

