-- ==== Sys2Proof/Machine/System.lean ====
section
/-! DEFINITION. The system and access commands (40_system_access.md). -/

namespace Sys2Proof.Machine

/-- `NOP` (40_system_access.md R121). -/
def execNop (s : State) : Host.Outcome State Fault Refusal :=
  completeQuiet .nop s (.ok s)

/-- `RST` (40_system_access.md R122). -/
def execRst (s : State) : Host.Outcome State Fault Refusal :=
  completeQuiet .rst s (.ok (softReset s))

/-- `CLRE` (40_system_access.md R123). -/
def execClre (s : State) : Host.Outcome State Fault Refusal :=
  completeQuiet .clre s (.ok (clearError s))

/-- `CRW cr, imm32` (40_system_access.md R125). -/
def execCrw (cr : CReg) (imm : BitVec 32) (s : State) : Host.Outcome State Fault Refusal :=
  completeQuiet (.crw cr imm) s
    (if ¬ cr.writable then .error .illegal
     else if s.maxCR cr < imm.toNat then .error .operand
     else .ok (s.writeCR cr imm))

/-- `CRR cr` (40_system_access.md R124). -/
def execCrr (cr : CReg) (s : State) : Host.Outcome State Fault Refusal :=
  complete (.crr cr) s (.ok (s, s.readCR cr))

/-- `PUT space, slot, addr, data` (40_system_access.md R126). -/
def execPut (sp : Space) (slot : Fin 16) (addr : BitVec 32) (data : BitVec 16) (s : State) :
    Host.Outcome State Fault Refusal :=
  completeQuiet (.put sp slot addr data) s (s.memWrite sp slot addr.toNat data.toNat)

/-- `GET space, slot, addr` (40_system_access.md R127); the element is zero-extended (20_memory.md R66). -/
def execGet (sp : Space) (slot : Fin 16) (addr : BitVec 32) (s : State) : Host.Outcome State Fault Refusal :=
  complete (.get sp slot addr) s
    (match s.memRead sp slot addr.toNat with
     | .error e => .error e
     | .ok v => .ok (s, BitVec.ofNat 32 v))

end Sys2Proof.Machine
end

