-- ==== Sys2Proof/Machine/Dispatch.lean ====
section
/-! DEFINITION. Executing one decoded command: one arm for each row of the opcode table. -/

namespace Sys2Proof.Machine

/-- Execute command `i` in state `s`. -/
def exec (i : Instr) (s : State) : Host.Outcome State Fault Refusal :=
  match i with
  | .nop => Sys2Proof.Machine.execNop s
  | .rst => Sys2Proof.Machine.execRst s
  | .clre => Sys2Proof.Machine.execClre s
  | .crw cr imm => Sys2Proof.Machine.execCrw cr imm s
  | .crr cr => Sys2Proof.Machine.execCrr cr s
  | .put sp slot addr data => Sys2Proof.Machine.execPut sp slot addr data s
  | .get sp slot addr => Sys2Proof.Machine.execGet sp slot addr s
  | .fli a imm => Sys2Proof.Machine.execFli a imm s
  | .fadd a b c => Sys2Proof.Machine.execFadd a b c s
  | .fsub a b c => Sys2Proof.Machine.execFsub a b c s
  | .fmul a b c => Sys2Proof.Machine.execFmul a b c s
  | .finv a b => Sys2Proof.Machine.execFinv a b s
  | .frd a => Sys2Proof.Machine.execFrd a s
  | .kseed => Sys2Proof.Machine.execKseed s
  | .knext a => Sys2Proof.Machine.execKnext a s
  | .pbuild => Sys2Proof.Machine.execPbuild s
  | .pxor dst src => Sys2Proof.Machine.execPxor dst src s
  | .peval a b => Sys2Proof.Machine.execPeval a b s
  | .split => Sys2Proof.Machine.execSplit s
  | .lagr a => Sys2Proof.Machine.execLagr a s
  | .vand => Sys2Proof.Machine.execVand s
  | .solve => Sys2Proof.Machine.execSolve s
  | .recon => Sys2Proof.Machine.execRecon s
  | .embed slot => Sys2Proof.Machine.execEmbed slot s
  | .extract slot => Sys2Proof.Machine.execExtract slot s
  | .distrib => Sys2Proof.Machine.execDistrib s
  | .recover => Sys2Proof.Machine.execRecover s

end Sys2Proof.Machine
end

