-- ==== Sys2Proof/Machine/Step.lean ====
section
/-! DEFINITION. One step: the unit takes the next command the host has issued, decodes it and executes it. -/

namespace Sys2Proof.Machine

/-- One step. With no command issued the unit waits (70_reset_and_hazards.md R310; log entry 2). A word that is
no legal command faults `E_ILLEGAL` (30_encoding.md R103). -/
def step (s : State) : Host.Outcome State Fault Refusal :=
  match fetch s with
  | none => .next s
  | some (word, s') =>
    match decode word with
    | .ok i => exec i s'
    | .error _ => .next (takeFault .illegal word s')

/-- `s` with the command of an opcode-table row issued before every other pending one, so that the next step
executes it. -/
def State.withFetchWord (s : State) (nbits w : Nat) : State := { s with cmds := tableWord nbits w :: s.cmds }

end Sys2Proof.Machine
end

