-- ==== Sys2Proof/Safety.lean ====
section
/-! DEFINITION. The terms in which claims about the unit are made: the conditions under which the rules say a
command executes, the invariant of every reachable state, the opcode table as data, and which command may write
which part of the state. Nothing here is used by the machine. -/

namespace Sys2Proof.Machine

/-! ### Polynomials and systems over GF(257), in numbers -/

/-- `Σ_{i<k} c_i · x^i (mod 257)` (44_share_generation.md R185). -/
def polyValue (k : Nat) (c : Nat → Nat) (x : Nat) : Nat := (∑ i ∈ Finset.range k, c i * x ^ i) % 257

/-- Row `i` of the `k × k` block of `MAT` times the vector `v`, modulo 257 (10_state.md R44). -/
def rowValue (m : Vector GF 110) (k i : Nat) (v : Nat → Nat) : Nat :=
  (∑ j ∈ Finset.range k, (vecAt m (11 * i + j)).val * v j) % 257

/-! ### When a command executes -/

/-- `2 ≤ K ≤ 10` (10_state.md R28). -/
abbrev State.ThresholdLegal (s : State) : Prop := 2 ≤ s.k.toNat ∧ s.k.toNat ≤ 10

/-- The grid length `L = W · H` (10_state.md R30). -/
abbrev State.gridCells (s : State) : Nat := s.w.toNat * s.h.toNat

/-- `W ≥ 1`, `H ≥ 1` and `L ≤ LMAX` (10_state.md R30). -/
abbrev State.GridLegal (s : State) : Prop :=
  1 ≤ s.w.toNat ∧ 1 ≤ s.h.toNat ∧ s.gridCells ≤ s.lmax

/-- `BLK` is 1 or `K`, and it divides `L` (10_state.md R31, 44_share_generation.md R190). -/
abbrev State.BlockLegal (s : State) : Prop :=
  (s.blk.toNat = 1 ∨ s.blk.toNat = s.k.toNat) ∧ s.gridCells % s.blk.toNat = 0

/-- The number of elements of a stream, `L div BLK` (44_share_generation.md R191). -/
abbrev State.streamLength (s : State) : Nat := s.gridCells / s.blk.toNat

/-- The parameters pass `check_split()` (44_share_generation.md R195). -/
abbrev State.SplitLegal (s : State) : Prop :=
  s.ThresholdLegal ∧ s.n.toNat ≤ 10 ∧ s.k.toNat ≤ s.n.toNat ∧ s.GridLegal ∧ s.BlockLegal

/-- Slot `j` is selected (10_state.md R34). -/
abbrev State.Selects (s : State) (j : Fin 10) : Prop := s.sel.getLsbD j.val = true

/-- The number of selected slots (10_state.md R34). -/
abbrev State.selectedCount (s : State) : Nat :=
  ((List.finRange 10).filter (fun j => s.sel.getLsbD j.val)).length

/-- The parameters pass `check_grid()` (44_share_generation.md R195). -/
abbrev State.ReconGridLegal (s : State) : Prop := s.ThresholdLegal ∧ s.GridLegal ∧ s.BlockLegal

/-- Every selected index lies in `[1, 10]` (45_reconstruction.md R216, check 4). -/
abbrev State.IndexesInRange (s : State) : Prop :=
  ∀ j : Fin 10, s.Selects j → 1 ≤ s.xi[j].toNat ∧ s.xi[j].toNat ≤ 10

/-- No two selected indexes are equal (45_reconstruction.md R216, check 5). -/
abbrev State.IndexesDistinct (s : State) : Prop :=
  ∀ i j : Fin 10, s.Selects i → s.Selects j → s.xi[i] = s.xi[j] → i = j

/-- Every selected stream has the declared length (45_reconstruction.md R216, check 6). -/
abbrev State.LengthsMatch (s : State) : Prop :=
  ∀ j : Fin 10, s.Selects j → s.len[j].toNat = s.streamLength

/-- The parameters pass `recon_checks()` (45_reconstruction.md R216). -/
abbrev State.ReconLegal (s : State) : Prop :=
  s.ReconGridLegal ∧ s.selectedCount = s.k.toNat ∧ s.IndexesInRange ∧ s.IndexesDistinct ∧ s.LengthsMatch

/-- All selected slots carry one seed (47_scheme.md R253). -/
abbrev State.SeedsAgree (s : State) : Prop :=
  ∀ i j : Fin 10, s.Selects i → s.Selects j → s.sseed[i] = s.sseed[j]

/-- The selected streams are, at every position or block `q`, the values of the polynomial with coefficients
`C q 0 .. C q (K−1)` at the slots' indexes. -/
abbrev State.SharesOf (s : State) (C : Nat → Nat → Nat) : Prop :=
  ∀ j : Fin 10, s.Selects j → ∀ q < s.streamLength,
    (s.mem.shAt j q).val = polyValue s.k.toNat (C q) s.xi[j].toNat

/-- Coefficient `i` of position or block `q` of the diffused grid (44_share_generation.md R187, R189). -/
abbrev State.gridCoeff (s : State) (q i : Nat) : Nat :=
  if s.blk.toNat = 1 then (s.mem.dgAt q).toNat else (s.mem.dgAt (q * s.k.toNat + i)).toNat

/-- `B` is 1, 2 or 8 (46_stego.md R230). -/
abbrev State.WidthLegal (s : State) : Prop := s.b.toNat = 1 ∨ s.b.toNat = 2 ∨ s.b.toNat = 8

/-- The slot field that names slot `j`. -/
def slotField (j : Fin 10) : Fin 16 := j.castLE (by decide)

/-- The stream of slot `j` fits the carrier: `LEN[j] · per(B) ≤ CLEN` (46_stego.md R235). -/
abbrev State.FitsCarrier (s : State) (j : Fin 10) : Prop :=
  s.len[j].toNat * (8 / s.b.toNat) ≤ s.clen.toNat

/-! ### The invariant of every reachable state -/

/-- The capacities lie in the ranges of 00_scope.md R11. -/
abbrev State.CapacitiesInRange (s : State) : Prop :=
  1 ≤ s.lmax ∧ s.lmax < 2 ^ 28 ∧ 1 ≤ s.cmax ∧ s.cmax < 2 ^ 32

/-- `CLEN` and `LEN[j]` are at most their maxima; the widths of the other registers are their maxima
(10_state.md R24, R50). -/
abbrev State.RegistersInRange (s : State) : Prop :=
  s.clen.toNat ≤ s.cmax ∧ ∀ j : Fin 10, s.len[j].toNat ≤ s.lmax

/-- Every element ever written has an address below the size of its buffer (20_memory.md R60, R63). -/
abbrev State.AddressesInRange (s : State) : Prop :=
  (∀ p ∈ s.mem.sg, p.1 < s.lmax) ∧ (∀ p ∈ s.mem.dg, p.1 < s.lmax) ∧ (∀ p ∈ s.mem.pm, p.1 < s.lmax) ∧
    (∀ j : Fin 10, ∀ p ∈ s.mem.sh[j], p.1 < s.lmax) ∧ ∀ p ∈ s.mem.cg, p.1 < s.cmax

/-- The codes a command can report (60_exceptions.md R271). -/
abbrev raisedCodes : List (BitVec 8) := [0x01, 0x02, 0x03, 0x04, 0x05, 0x07, 0x10, 0x11, 0x12, 0x13]

/-- The sticky error holds no code that is never produced, and no word while it is 0 (10_state.md R27,
60_exceptions.md R271). -/
abbrev State.ErrorRecordSound (s : State) : Prop :=
  (s.err = 0 ∧ s.einfolo = 0 ∧ s.einfohi = 0) ∨ s.err ∈ raisedCodes

/-- Every response given is a success or reports a code of 60_exceptions.md R271 with data 0
(30_encoding.md R109). -/
abbrev State.ResponsesSound (s : State) : Prop :=
  ∀ r ∈ s.resps, r.status = 0 ∨ (r.status ∈ raisedCodes ∧ r.data = 0)

/-- The invariant of every reachable state. -/
abbrev State.Inv (s : State) : Prop :=
  s.CapacitiesInRange ∧ s.RegistersInRange ∧ s.mem.wf = true ∧ s.AddressesInRange ∧
    s.ErrorRecordSound ∧ s.ResponsesSound

/-! ### The opcode table as data -/

/-- A row of the opcode table: the words with `w AND mask = pattern` that meet the row's constraint
(30_encoding.md R99, R101). -/
structure OpcodeRow where
  pattern : CmdWord
  mask : CmdWord
  /-- The row's constraint on the number `cr`, `space` or `a` in bits 55:48, and on the slot below it. -/
  range : List (Nat × Nat)

/-- Bits 55:48 lie in one of the row's ranges; a row without ranges constrains nothing. -/
def OpcodeRow.admits (r : OpcodeRow) (w : CmdWord) : Bool :=
  decide (w &&& r.mask = r.pattern) &&
    (r.range.isEmpty || r.range.any fun p =>
      decide (p.1 ≤ (w.extractLsb' 48 8).toNat) && decide ((w.extractLsb' 48 8).toNat ≤ p.2))

/-- The 27 rows of the opcode table, with its masks and its constraints on bits 55:48 (30_encoding.md R98, R100,
R101): for `CRW` and `CRR` the register numbers; for `PUT` and `GET` the space and its slot; for `PXOR` the two
grids; for `EMBED` and `EXTRACT` the slot. -/
def opcodeTable : List OpcodeRow :=
  [ ⟨0x0000000000000000, 0xFFFFFFFFFFFFFFFF, []⟩,
    ⟨0x0100000000000000, 0xFFFFFFFFFFFFFFFF, []⟩,
    ⟨0x0200000000000000, 0xFFFFFFFFFFFFFFFF, []⟩,
    ⟨0x0300000000000000, 0xFF00FFFF00000000, [(0x08, 0x12), (0x20, 0x29), (0x30, 0x39), (0x40, 0x49)]⟩,
    ⟨0x0400000000000000, 0xFF00FFFFFFFFFFFF,
      [(0x00, 0x02), (0x04, 0x06), (0x08, 0x14), (0x20, 0x29), (0x30, 0x39), (0x40, 0x49)]⟩,
    ⟨0x0800000000000000, 0xFF00000000000000,
      [(0x00, 0x00), (0x10, 0x10), (0x20, 0x20), (0x40, 0x49), (0x50, 0x50), (0x60, 0x60), (0x70, 0x70),
        (0x80, 0x80), (0x90, 0x90)]⟩,
    ⟨0x0900000000000000, 0xFF00FFFF00000000,
      [(0x00, 0x00), (0x10, 0x10), (0x20, 0x20), (0x30, 0x30), (0x40, 0x49), (0x50, 0x50), (0x60, 0x60),
        (0x70, 0x70), (0x80, 0x80), (0x90, 0x90)]⟩,
    ⟨0x1000000000000000, 0xFF0FFFFF00000000, []⟩,
    ⟨0x1100000000000000, 0xFF000FFFFFFFFFFF, []⟩,
    ⟨0x1200000000000000, 0xFF000FFFFFFFFFFF, []⟩,
    ⟨0x1300000000000000, 0xFF000FFFFFFFFFFF, []⟩,
    ⟨0x1400000000000000, 0xFF00FFFFFFFFFFFF, []⟩,
    ⟨0x1500000000000000, 0xFF0FFFFFFFFFFFFF, []⟩,
    ⟨0x2000000000000000, 0xFFFFFFFFFFFFFFFF, []⟩,
    ⟨0x2100000000000000, 0xFF0FFFFFFFFFFFFF, []⟩,
    ⟨0x2800000000000000, 0xFFFFFFFFFFFFFFFF, []⟩,
    ⟨0x2900000000000000, 0xFF00FFFFFFFFFFFF, [(0x00, 0x01), (0x10, 0x11)]⟩,
    ⟨0x3000000000000000, 0xFF00FFFFFFFFFFFF, []⟩,
    ⟨0x3100000000000000, 0xFFFFFFFFFFFFFFFF, []⟩,
    ⟨0x3800000000000000, 0xFF0FFFFFFFFFFFFF, []⟩,
    ⟨0x3900000000000000, 0xFFFFFFFFFFFFFFFF, []⟩,
    ⟨0x3A00000000000000, 0xFFFFFFFFFFFFFFFF, []⟩,
    ⟨0x3B00000000000000, 0xFFFFFFFFFFFFFFFF, []⟩,
    ⟨0x4000000000000000, 0xFF0FFFFFFFFFFFFF, [(0x00, 0x90)]⟩,
    ⟨0x4100000000000000, 0xFF0FFFFFFFFFFFFF, [(0x00, 0x90)]⟩,
    ⟨0x4800000000000000, 0xFFFFFFFFFFFFFFFF, []⟩,
    ⟨0x4900000000000000, 0xFFFFFFFFFFFFFFFF, []⟩ ]

/-! ### Which command writes which part of the state -/

/-- The parts of the state that the table of 10_state.md R52 speaks of. -/
inductive Part where
  | fieldRegs | errorRegs | params | seed | sideChannel | xi | len | sseed
  | ks | xv | yv | cv | mat | sg | dg | pm | sh | cg
  deriving DecidableEq, Repr

/-- Two states agree on a part. `params` are `K`, `N`, `W`, `H`, `BLK`, `B`, `SEL` and `CLEN`. -/
def Part.Same (p : Part) (s t : State) : Prop :=
  match p with
  | .fieldRegs => t.f = s.f
  | .errorRegs => t.err = s.err ∧ t.einfolo = s.einfolo ∧ t.einfohi = s.einfohi
  | .params => t.k = s.k ∧ t.n = s.n ∧ t.w = s.w ∧ t.h = s.h ∧ t.blk = s.blk ∧ t.b = s.b ∧ t.sel = s.sel ∧
      t.clen = s.clen
  | .seed => t.seed = s.seed
  | .sideChannel => t.scseed = s.scseed ∧ t.scidx = s.scidx
  | .xi => t.xi = s.xi
  | .len => t.len = s.len
  | .sseed => t.sseed = s.sseed
  | .ks => t.ks = s.ks
  | .xv => t.xv = s.xv
  | .yv => t.yv = s.yv
  | .cv => t.cv = s.cv
  | .mat => t.mat = s.mat
  | .sg => ∀ a, t.mem.sgAt a = s.mem.sgAt a
  | .dg => ∀ a, t.mem.dgAt a = s.mem.dgAt a
  | .pm => ∀ a, t.mem.pmAt a = s.mem.pmAt a
  | .sh => ∀ j a, t.mem.shAt j a = s.mem.shAt j a
  | .cg => ∀ a, t.mem.cgAt a = s.mem.cgAt a

/-- The part that holds a control register. -/
def CReg.part : CReg → Option Part
  | .k | .n | .w | .h | .blk | .b | .sel | .clen => some .params
  | .seed => some .seed
  | .scseed | .scidx => some .sideChannel
  | .xi _ => some .xi
  | .len _ => some .len
  | .sseed _ => some .sseed
  | .pmod | .lmax | .cmax | .status | .einfolo | .einfohi | .kslo | .kshi => none

/-- The part that holds a space. -/
def Space.part : Space → Option Part
  | .sg => some .sg
  | .dg => some .dg
  | .pm => some .pm
  | .tg => none
  | .sh => some .sh
  | .cg => some .cg
  | .xv => some .xv
  | .yv => some .yv
  | .cv => some .cv
  | .mat => some .mat

/-- The parts a command writes when it does not fault (10_state.md R52). -/
def writtenParts : Instr → List Part
  | .nop | .crr _ | .get _ _ _ | .frd _ => []
  | .rst => [.fieldRegs, .errorRegs, .params, .seed, .sideChannel, .xi, .len, .sseed, .ks, .xv, .yv, .cv, .mat]
  | .clre => [.errorRegs]
  | .crw cr _ => (CReg.part cr).toList
  | .put sp _ _ _ => (Space.part sp).toList
  | .fli _ _ | .fadd _ _ _ | .fsub _ _ _ | .fmul _ _ _ | .finv _ _ => [.fieldRegs]
  | .kseed => [.ks]
  | .knext _ => [.ks, .fieldRegs]
  | .pbuild => [.ks, .pm]
  | .pxor .sg _ => [.sg]
  | .pxor .dg _ => [.dg]
  | .peval _ _ | .lagr _ => [.fieldRegs]
  | .vand => [.mat]
  | .solve => [.mat, .cv]
  | .split => [.sh, .xi, .len, .sseed]
  | .recon => [.dg]
  | .embed _ => [.cg, .sideChannel]
  | .extract _ => [.sh, .xi, .sseed]
  | .distrib => [.ks, .pm, .dg, .sh, .xi, .len, .sseed]
  | .recover => [.dg, .seed, .ks, .pm, .sg]

end Sys2Proof.Machine
end

