-- ==== Sys2Proof/Certificates/Slice0/Obligations.lean ====
section
/-! DEFINITION. The statements about the unit that the provers settle. `⟨0, d⟩ :: s.resps` is the response
`(0, d)` given after those before it; `t = { s with x := t.x, … }` says that nothing but the named parts changed. -/

open Sys2Proof Sys2Proof.Machine

/-! ### Encoding -/

/-- 30_encoding.md R91 to R101: decoding the word of a legal command gives the command back. -/
def Obligations.DecodeInvertsEncode : Prop :=
  ∀ i : Instr, i.wellFormed = true → decode (encode i) = .ok i

/-- 30_encoding.md R99, R100: a word that decodes is the word of its command, so no bit of a legal word is
ignored, and the command is legal. -/
def Obligations.EncodeInvertsDecode : Prop :=
  ∀ (w : CmdWord) (i : Instr), decode w = .ok i → encode i = w ∧ i.wellFormed = true

/-- 30_encoding.md R99: the decoder accepts exactly the words of the opcode table's masks, patterns and
constraints, and at most one row admits a word. -/
def Obligations.LegalWordsAreTheOpcodeTable : Prop :=
  ∀ w : CmdWord,
    ((∃ i, decode w = .ok i) ↔ ∃ r ∈ opcodeTable, r.admits w = true) ∧
      ∀ m n : Fin opcodeTable.length,
        (opcodeTable.get m).admits w = true → (opcodeTable.get n).admits w = true → m = n

/-- 30_encoding.md R110 and R105: words written out from the spec decode to the commands they stand for; the
all-zero word is `NOP` and the all-ones word is illegal. -/
def Obligations.ExampleWordsDecode : Prop :=
  decode 0x0308000000000003 = .ok (.crw .k 3) ∧
  decode 0x0800002800000003 = .ok (.put .sg 0 3 40) ∧
  decode 0x0944000000000000 = .ok (.get .sh 4 0) ∧
  decode 0x1120100000000000 = .ok (.fadd 2 0 1) ∧
  decode 0x2910000000000000 = .ok (.pxor .dg .sg) ∧
  decode 0x4020000000000000 = .ok (.embed 2) ∧
  decode 0x1010000000000100 = .ok (.fli 1 256) ∧
  decode 0x3001000000000000 = .ok (.peval 0 1) ∧
  decode 0x0413000000000000 = .ok (.crr .kslo) ∧
  decode 0x0000000000000000 = .ok .nop ∧
  decode 0xFFFFFFFFFFFFFFFF = .error .unassignedOpcode

/-- 30_encoding.md R102: a word with an unassigned opcode is an illegal command. -/
def Obligations.UnassignedOpcodesAreIllegal : Prop :=
  ∀ w : CmdWord,
    (let op := w.toNat / 2 ^ 56
     (0x05 ≤ op ∧ op ≤ 0x07) ∨ (0x0A ≤ op ∧ op ≤ 0x0F) ∨ (0x16 ≤ op ∧ op ≤ 0x1F) ∨ (0x22 ≤ op ∧ op ≤ 0x27) ∨
     (0x2A ≤ op ∧ op ≤ 0x2F) ∨ (0x32 ≤ op ∧ op ≤ 0x37) ∨ (0x3C ≤ op ∧ op ≤ 0x3F) ∨ (0x42 ≤ op ∧ op ≤ 0x47) ∨
     (0x4A ≤ op ∧ op ≤ 0xFF)) →
    decode w = .error .unassignedOpcode

/-- 30_encoding.md R103: an illegal command changes no state but the sticky error registers and responds
`(0x10, 0)`; every word is one legal command or illegal. -/
def Obligations.IllegalWordFaults : Prop :=
  (∀ (s : State) (w : CmdWord) (rest : List CmdWord) (e : Reject), s.cmds = w :: rest → decode w = .error e →
    step s = .next { s with
      cmds := rest
      resps := ⟨0x10, 0⟩ :: s.resps
      err := if s.err = 0 then 0x10 else s.err
      einfolo := if s.err = 0 then w.extractLsb' 0 32 else s.einfolo
      einfohi := if s.err = 0 then w.extractLsb' 32 32 else s.einfohi }) ∧
  ∀ w : CmdWord, (∃ i, decode w = .ok i ∧ ∀ i', decode w = .ok i' → i' = i) ∨
    ((∃ e, decode w = .error e) ∧ ∀ i, decode w ≠ .ok i)

/-! ### The step -/

/-- 10_state.md R22, 40_system_access.md R120: the step takes the next issued word from the port and executes the
command it decodes to. -/
def Obligations.StepRunsDecodedCommand : Prop :=
  ∀ (s : State) (w : CmdWord) (rest : List CmdWord) (i : Instr), s.cmds = w :: rest → decode w = .ok i →
    step s = exec i { s with cmds := rest }

/-- 70_reset_and_hazards.md R310: with no command issued the unit waits. That waiting is a step that changes
nothing is the model's choice (log entry 2). -/
def Obligations.StepWaitsWithoutCommand : Prop :=
  ∀ s : State, s.cmds = [] → step s = .next s

/-- 30_encoding.md R109, 60_exceptions.md R271, R289: every word, legal or not, is executed to a next state with
exactly one response; a nonzero status is a code of the table with data 0, and only `CRR`, `GET` and `FRD` answer
data. -/
def Obligations.OneResponsePerCommand : Prop :=
  ∀ (s : State) (w : CmdWord) (rest : List CmdWord), s.cmds = w :: rest →
    ∃ (t : State) (r : Response), step s = .next t ∧ t.cmds = rest ∧ t.resps = r :: s.resps ∧
      (r.status = 0 ∨ (r.status ∈ raisedCodes ∧ r.data = 0)) ∧
      (r.data ≠ 0 → (∃ cr, decode w = .ok (.crr cr)) ∨ (∃ sp slot addr, decode w = .ok (.get sp slot addr)) ∨
        ∃ a, decode w = .ok (.frd a))

/-- 60_exceptions.md R285: the state after a faulting command is the state before it, but for the three error
registers, which record the first fault. -/
def Obligations.FaultIsAllOrNothing : Prop :=
  ∀ (s t : State) (w : CmdWord) (rest : List CmdWord) (r : Response),
    s.cmds = w :: rest → step s = .next t → t.resps = r :: s.resps → r.status ≠ 0 →
      r.data = 0 ∧
      t = { s with
        cmds := rest
        resps := r :: s.resps
        err := if s.err = 0 then r.status else s.err
        einfolo := if s.err = 0 then w.extractLsb' 0 32 else s.einfolo
        einfohi := if s.err = 0 then w.extractLsb' 32 32 else s.einfohi }

/-- 10_state.md R26, R27, 60_exceptions.md R287: a step changes the error registers only by clearing them (`CLRE`,
`RST`) or by recording a fault while `ERR` is 0. -/
def Obligations.FirstErrorSticks : Prop :=
  ∀ (s t : State) (w : CmdWord) (rest : List CmdWord) (r : Response),
    s.cmds = w :: rest → step s = .next t → t.resps = r :: s.resps →
      (decode w = .ok .clre ∨ decode w = .ok .rst → t.err = 0 ∧ t.einfolo = 0 ∧ t.einfohi = 0) ∧
      (¬ (decode w = .ok .clre ∨ decode w = .ok .rst) →
        (s.err ≠ 0 ∨ r.status = 0 → t.err = s.err ∧ t.einfolo = s.einfolo ∧ t.einfohi = s.einfohi) ∧
        (s.err = 0 → r.status ≠ 0 → t.err = r.status ∧ t.einfohi ++ t.einfolo = w))

/-- 10_state.md R52: a command that does not fault writes only the parts its row names, one that faults writes only
the error registers, and no command writes `LMAX` or `CMAX`. -/
def Obligations.CommandsWriteOnlyTheirTableRow : Prop :=
  ∀ (i : Instr) (s t : State) (r : Response), exec i s = .next t → t.resps = r :: s.resps →
    t.lmax = s.lmax ∧ t.cmax = s.cmax ∧ t.cmds = s.cmds ∧
    (r.status = 0 → ∀ p : Part, p ∉ writtenParts i → p.Same s t) ∧
    (r.status ≠ 0 → ∀ p : Part, p ≠ .errorRegs → p.Same s t)

/-! ### Reset and the invariant -/

/-- 10_state.md R51, 70_reset_and_hazards.md R310: the registers after hard reset, as `CRR` reads them and by name,
for every pair of capacities. The empty port and the empty list of responses are the model's own (log entries 1
and 3). -/
def Obligations.HardResetValues : Prop :=
  (∀ (L C : Nat), L < 2 ^ 28 → C < 2 ^ 32 →
    let s := State.hardReset L C
    (∀ a : Fin 16, s.f[a] = 0) ∧ s.ks = 0 ∧
    (∀ j : Fin 10, s.xv[j] = 0 ∧ s.yv[j] = 0 ∧ s.cv[j] = 0) ∧ (∀ p : Fin 110, s.mat[p] = 0) ∧
    (s.readCR .pmod).toNat = 257 ∧ (s.readCR .lmax).toNat = L ∧ (s.readCR .cmax).toNat = C ∧
    s.readCR .blk = 1 ∧
    (∀ cr : CReg, cr ∉ [CReg.pmod, .lmax, .cmax, .blk] → s.readCR cr = 0) ∧
    s.cmds = [] ∧ s.resps = []) ∧
  State.reset = State.hardReset Config.lmax Config.cmax

/-- 10_state.md R50, 00_scope.md R11: the state after hard reset meets the invariant, for every admissible pair of
capacities and for the machine's own. -/
def Obligations.ResetMeetsInvariant : Prop :=
  (∀ L C : Nat, 1 ≤ L → L < 2 ^ 28 → 1 ≤ C → C < 2 ^ 32 → (State.hardReset L C).Inv) ∧ State.reset.Inv

/-- 10_state.md R50: every step keeps the invariant: capacities and register maxima, canonical buffers, addresses
inside their spaces, a sound error record and sound responses. -/
def Obligations.StepKeepsInvariant : Prop :=
  ∀ s t : State, s.Inv → step s = .next t → t.Inv

/-- 70_reset_and_hazards.md R311, 40_system_access.md R122: `RST` is hard reset on everything but the buffers.
That the pending commands and the earlier responses are kept too is the model's own: R311 does not speak of the
command port (DEDUCED, log entry 15). -/
def Obligations.SoftResetEffect : Prop :=
  ∀ s : State, ∃ t : State, exec .rst s = .next t ∧
    t = { State.hardReset s.lmax s.cmax with mem := s.mem, cmds := s.cmds, resps := ⟨0, 0⟩ :: s.resps } ∧
    (∀ a : Fin 16, t.f[a] = 0) ∧ t.ks = 0 ∧ t.err = 0 ∧ t.einfolo = 0 ∧ t.einfohi = 0 ∧
    t.k = 0 ∧ t.n = 0 ∧ t.w = 0 ∧ t.h = 0 ∧ t.blk = 1 ∧ t.b = 0 ∧ t.seed = 0 ∧ t.sel = 0 ∧ t.clen = 0 ∧
    t.scseed = 0 ∧ t.scidx = 0 ∧
    (∀ j : Fin 10, t.xi[j] = 0 ∧ t.len[j] = 0 ∧ t.sseed[j] = 0 ∧ t.xv[j] = 0 ∧ t.yv[j] = 0 ∧ t.cv[j] = 0) ∧
    ∀ p : Fin 110, t.mat[p] = 0

/-- 70_reset_and_hazards.md R312: at reset values every command that needs configuration faults
`InvalidParameters`. -/
def Obligations.UnconfiguredCommandsFault : Prop :=
  ∀ (L C : Nat) (a b : Fin 16) (d g : Grid) (j : Fin 10) (addr : BitVec 32), addr.toNat < L →
    ∀ i ∈ [Instr.pbuild, .pxor d g, .peval a b, .split, .lagr a, .vand, .solve, .recon, .embed (slotField j),
        .extract (slotField j), .distrib, .recover, .get .tg 0 addr],
      exec i (State.hardReset L C) =
        .next (takeFault .invalidParameters (encode i) (State.hardReset L C))

/-! ### System and access commands -/

/-- 40_system_access.md R121, R123: `NOP` changes nothing, `CLRE` clears the three error registers. -/
def Obligations.NopKeepsClreClears : Prop :=
  ∀ s : State,
    exec .nop s = .next { s with resps := ⟨0, 0⟩ :: s.resps } ∧
    exec .clre s = .next { s with err := 0, einfolo := 0, einfohi := 0, resps := ⟨0, 0⟩ :: s.resps }

/-- 40_system_access.md R125: `CRW` of a value up to the register's maximum stores it, exactly, and changes no other
register. -/
def Obligations.CrwWritesOneRegister : Prop :=
  ∀ (s : State) (cr : CReg) (imm : BitVec 32), cr.writable = true →
    (match cr with
     | .k | .n | .blk | .b => imm.toNat ≤ 15
     | .w | .h | .seed | .scseed | .scidx | .xi _ | .sseed _ => imm.toNat ≤ 65535
     | .sel => imm.toNat ≤ 1023
     | .clen => imm.toNat ≤ s.cmax
     | .len _ => imm.toNat ≤ s.lmax
     | _ => True) →
    ∃ t : State, exec (.crw cr imm) s = .next t ∧ t.readCR cr = imm ∧
      (∀ cr' : CReg, cr' ≠ cr → t.readCR cr' = s.readCR cr') ∧
      t.f = s.f ∧ t.lmax = s.lmax ∧ t.cmax = s.cmax ∧ t.ks = s.ks ∧ t.xv = s.xv ∧ t.yv = s.yv ∧ t.cv = s.cv ∧
      t.mat = s.mat ∧ t.mem = s.mem ∧ t.cmds = s.cmds ∧ t.resps = ⟨0, 0⟩ :: s.resps

/-- 40_system_access.md R125: `CRW` to a read-only register is illegal, and a value above the maximum of a writable
one faults `E_OPERAND`. -/
def Obligations.CrwRefusals : Prop :=
  ∀ (s : State) (cr : CReg) (imm : BitVec 32),
    (cr ∈ [CReg.pmod, .lmax, .cmax, .status, .einfolo, .einfohi, .kslo, .kshi] →
      exec (.crw cr imm) s = .next (takeFault .illegal (encode (.crw cr imm)) s)) ∧
    ((match cr with
      | .k | .n | .blk | .b => 15 < imm.toNat
      | .w | .h | .seed | .scseed | .scidx | .xi _ | .sseed _ => 65535 < imm.toNat
      | .sel => 1023 < imm.toNat
      | .clen => s.cmax < imm.toNat
      | .len _ => s.lmax < imm.toNat
      | _ => False) →
      exec (.crw cr imm) s = .next (takeFault .operand (encode (.crw cr imm)) s))

/-- 40_system_access.md R124, 10_state.md R25 to R40: what `CRR` reads from each register. -/
def Obligations.CrrReads : Prop :=
  ∀ (s : State) (cr : CReg), s.lmax < 2 ^ 32 → s.cmax < 2 ^ 32 →
    ∃ d : BitVec 32, exec (.crr cr) s = .next { s with resps := ⟨0, d⟩ :: s.resps } ∧
      d.toNat =
        match cr with
        | .pmod => 257
        | .lmax => s.lmax
        | .cmax => s.cmax
        | .status => s.err.toNat
        | .einfolo => s.einfolo.toNat
        | .einfohi => s.einfohi.toNat
        | .k => s.k.toNat
        | .n => s.n.toNat
        | .w => s.w.toNat
        | .h => s.h.toNat
        | .blk => s.blk.toNat
        | .b => s.b.toNat
        | .seed => s.seed.toNat
        | .sel => s.sel.toNat
        | .clen => s.clen.toNat
        | .scseed => s.scseed.toNat
        | .scidx => s.scidx.toNat
        | .kslo => s.ks.toNat % 2 ^ 32
        | .kshi => s.ks.toNat / 2 ^ 32
        | .xi j => s.xi[j].toNat
        | .len j => s.len[j].toNat
        | .sseed j => s.sseed[j].toNat

/-- 40_system_access.md R126, 20_memory.md R67: `PUT` stores the data in the element named and changes no other
element of any space, no length register and nothing else. `TG` is left out of the frame because it is a view of
`PM` (20_memory.md R68). -/
def Obligations.PutStoresOneElement : Prop :=
  ∀ (s : State) (sp : Space) (j : Fin 10) (addr : BitVec 32) (data : BitVec 16), sp ≠ .tg → (sp ≠ .sh → j = 0) →
    (match sp with
     | .sg | .dg | .pm | .tg => addr.toNat < s.lmax ∧ data.toNat ≤ 255
     | .cg => addr.toNat < s.cmax ∧ data.toNat ≤ 255
     | .sh => addr.toNat < s.lmax ∧ data.toNat ≤ 256
     | .xv | .yv | .cv => addr.toNat < 10 ∧ data.toNat ≤ 256
     | .mat => addr.toNat < 110 ∧ data.toNat ≤ 256) →
    ∃ t : State, exec (.put sp (slotField j) addr data) s = .next t ∧
      t.element sp j addr.toNat = data.toNat ∧
      (∀ (sp' : Space) (j' : Fin 10) (a' : Nat), sp' ≠ .tg →
        ¬ (sp' = sp ∧ a' = addr.toNat ∧ (sp = .sh → j' = j)) → t.element sp' j' a' = s.element sp' j' a') ∧
      t = { s with xv := t.xv, yv := t.yv, cv := t.cv, mat := t.mat, mem := t.mem, resps := ⟨0, 0⟩ :: s.resps }

/-- 40_system_access.md R126, R127, 20_memory.md R66, R67: the faults of `PUT` and `GET` in their order: a bad slot or
`PUT` to `TG` before the address, the address before the data. -/
def Obligations.PutGetRefusals : Prop :=
  ∀ (s : State) (sp : Space) (slot : Fin 16) (addr : BitVec 32) (data : BitVec 16),
    let legalSlot := (sp = .sh ∧ slot.val ≤ 9) ∨ (sp ≠ .sh ∧ slot = 0)
    let size := match sp with
      | .sg | .dg | .pm | .tg | .sh => s.lmax
      | .cg => s.cmax
      | .xv | .yv | .cv => 10
      | .mat => 110
    let top := match sp with
      | .sg | .dg | .pm | .cg | .tg => 255
      | _ => 256
    (sp = .tg ∨ ¬ legalSlot →
      exec (.put sp slot addr data) s = .next (takeFault .illegal (encode (.put sp slot addr data)) s)) ∧
    (sp ≠ .tg → legalSlot → size ≤ addr.toNat →
      exec (.put sp slot addr data) s = .next (takeFault .addr (encode (.put sp slot addr data)) s)) ∧
    (sp ≠ .tg → legalSlot → addr.toNat < size → top < data.toNat →
      exec (.put sp slot addr data) s = .next (takeFault .operand (encode (.put sp slot addr data)) s)) ∧
    (¬ legalSlot → exec (.get sp slot addr) s = .next (takeFault .illegal (encode (.get sp slot addr)) s)) ∧
    (legalSlot → size ≤ addr.toNat →
      exec (.get sp slot addr) s = .next (takeFault .addr (encode (.get sp slot addr)) s)) ∧
    (sp = .tg → legalSlot → addr.toNat < size → ¬ s.GridLegal →
      exec (.get sp slot addr) s = .next (takeFault .invalidParameters (encode (.get sp slot addr)) s))

/-- 40_system_access.md R127, 20_memory.md R66, R68: `GET` answers the stored element, or for `TG` the table entry
modulo `W · H`, and changes nothing. -/
def Obligations.GetReadsOneElement : Prop :=
  ∀ (s : State) (sp : Space) (j : Fin 10) (addr : BitVec 32), (sp ≠ .sh → j = 0) → (sp = .tg → s.GridLegal) →
    (match sp with
     | .sg | .dg | .pm | .tg | .sh => addr.toNat < s.lmax
     | .cg => addr.toNat < s.cmax
     | .xv | .yv | .cv => addr.toNat < 10
     | .mat => addr.toNat < 110) →
    ∃ d : BitVec 32, exec (.get sp (slotField j) addr) s = .next { s with resps := ⟨0, d⟩ :: s.resps } ∧
      d.toNat =
        match sp with
        | .sg => (s.mem.sgAt addr.toNat).toNat
        | .dg => (s.mem.dgAt addr.toNat).toNat
        | .pm => (s.mem.pmAt addr.toNat).toNat
        | .tg => (s.mem.pmAt addr.toNat).toNat % (s.w.toNat * s.h.toNat)
        | .sh => (s.mem.shAt j addr.toNat).val
        | .cg => (s.mem.cgAt addr.toNat).toNat
        | .xv => (vecAt s.xv addr.toNat).val
        | .yv => (vecAt s.yv addr.toNat).val
        | .cv => (vecAt s.cv addr.toNat).val
        | .mat => (vecAt s.mat addr.toNat).val

/-! ### Field commands -/

/-- 41_field.md R147: `FLI` loads a value up to 256 unreduced and refuses a greater one. -/
def Obligations.FliLoadsOrRefuses : Prop :=
  ∀ (s : State) (a : Fin 16) (imm : BitVec 32),
    (imm.toNat ≤ 256 → ∃ t : State, exec (.fli a imm) s = .next t ∧ t.f[a].val = imm.toNat ∧
      (∀ r : Fin 16, r ≠ a → t.f[r] = s.f[r]) ∧ t = { s with f := t.f, resps := ⟨0, 0⟩ :: s.resps }) ∧
    (256 < imm.toNat → exec (.fli a imm) s = .next (takeFault .operand (encode (.fli a imm)) s))

/-- 41_field.md R141 to R143, R148 to R150: `FADD`, `FSUB` and `FMUL` on any registers, equal ones included. -/
def Obligations.FieldSumDifferenceProduct : Prop :=
  ∀ (s : State) (a b c : Fin 16),
    (∃ t : State, exec (.fadd a b c) s = .next t ∧ t.f[a].val = (s.f[b].val + s.f[c].val) % 257 ∧
      (∀ r : Fin 16, r ≠ a → t.f[r] = s.f[r]) ∧ t = { s with f := t.f, resps := ⟨0, 0⟩ :: s.resps }) ∧
    (∃ t : State, exec (.fsub a b c) s = .next t ∧ t.f[a].val = (s.f[b].val + 257 - s.f[c].val) % 257 ∧
      (∀ r : Fin 16, r ≠ a → t.f[r] = s.f[r]) ∧ t = { s with f := t.f, resps := ⟨0, 0⟩ :: s.resps }) ∧
    (∃ t : State, exec (.fmul a b c) s = .next t ∧ t.f[a].val = (s.f[b].val * s.f[c].val) % 257 ∧
      (∀ r : Fin 16, r ≠ a → t.f[r] = s.f[r]) ∧ t = { s with f := t.f, resps := ⟨0, 0⟩ :: s.resps })

/-- 41_field.md R151: `FINV` writes the inverse of a nonzero source and faults `NoInverse` on zero. -/
def Obligations.FinvInvertsOrFaults : Prop :=
  ∀ (s : State) (a b : Fin 16),
    (s.f[b] ≠ 0 → ∃ t : State, exec (.finv a b) s = .next t ∧ (s.f[b].val * t.f[a].val) % 257 = 1 ∧
      (∀ r : Fin 16, r ≠ a → t.f[r] = s.f[r]) ∧ t = { s with f := t.f, resps := ⟨0, 0⟩ :: s.resps }) ∧
    (s.f[b] = 0 → exec (.finv a b) s = .next (takeFault .noInverse (encode (.finv a b)) s))

/-- 41_field.md R144: `finv(a)` is the unique `x` in `[1, 256]` with `a · x ≡ 1`, for every `a` in `[1, 256]`, and
fails for 0, where `FINV` raises `NoInverse`. -/
def Obligations.InverseIsUnique : Prop :=
  (∀ a : GF, 1 ≤ a.val → ∃ x : GF, finv a = some x ∧ 1 ≤ x.val ∧ x.val ≤ 256 ∧ (a.val * x.val) % 257 = 1 ∧
    ∀ y : Nat, 1 ≤ y → y ≤ 256 → (a.val * y) % 257 = 1 → y = x.val) ∧
  finv 0 = none ∧
  ∀ (s : State) (a b : Fin 16), s.f[b] = 0 →
    exec (.finv a b) s = .next (takeFault .noInverse (encode (.finv a b)) s)

/-- 41_field.md R146: the laws of the field functions. -/
def Obligations.FieldLaws : Prop :=
  ∀ a b c : GF,
    fadd a b = fadd b a ∧ fmul a b = fmul b a ∧
    fadd (fadd a b) c = fadd a (fadd b c) ∧ fmul (fmul a b) c = fmul a (fmul b c) ∧
    fmul a (fadd b c) = fadd (fmul a b) (fmul a c) ∧
    fadd a 0 = a ∧ fmul a 1 = a ∧ fmul a 0 = 0 ∧ fsub a a = 0 ∧ fadd (fsub a b) b = a ∧
    (fmul a b = 0 ↔ a = 0 ∨ b = 0) ∧
    (∀ x, finv a = some x → fmul a x = 1 ∧ finv x = some a) ∧ finv 1 = some 1 ∧ finv 256 = some 256

/-- 41_field.md R152: `FRD` answers the register and changes nothing. -/
def Obligations.FrdResponds : Prop :=
  ∀ (s : State) (a : Fin 16), ∃ d : BitVec 32,
    exec (.frd a) s = .next { s with resps := ⟨0, d⟩ :: s.resps } ∧ d.toNat = s.f[a].val

/-! ### Keystream -/

/-- 42_keystream.md R161, R162, R164, R165: `KSEED` sets the generator from `SEED`; `KNEXT` advances it and delivers
bits 47:40 of the new state. -/
def Obligations.KseedKnextAdvanceGenerator : Prop :=
  ∀ (s : State) (a : Fin 16),
    (∃ t : State, exec .kseed s = .next t ∧
      t.ks.toNat = 0x5DEEC * 2 ^ 16 + (0xE66D ^^^ s.seed.toNat) ∧
      t = { s with ks := t.ks, resps := ⟨0, 0⟩ :: s.resps }) ∧
    (∃ t : State, exec (.knext a) s = .next t ∧
      t.ks.toNat = (0x5DEECE66D * s.ks.toNat + 0xB) % 2 ^ 48 ∧ t.f[a].val = t.ks.toNat / 2 ^ 40 ∧
      (∀ r : Fin 16, r ≠ a → t.f[r] = s.f[r]) ∧
      t = { s with ks := t.ks, f := t.f, resps := ⟨0, 0⟩ :: s.resps })

/-- 42_keystream.md R166: from any two states with one `SEED`, `KSEED` and `N + 1` draws end with the same generator
state and deliver the same last byte, whatever the states held before; that is for every `N`, so every byte of the
sequence is covered. -/
def Obligations.KeystreamIsDeterministic : Prop :=
  ∀ (s s' : State) (a a' : Fin 16) (N : Nat), s.seed = s'.seed →
    s.cmds = encode .kseed :: List.replicate (N + 1) (encode (.knext a)) →
    s'.cmds = encode .kseed :: List.replicate (N + 1) (encode (.knext a')) →
    ∃ t t' : State, Sys2Proof.core.run (N + 2) s = .next t ∧ Sys2Proof.core.run (N + 2) s' = .next t' ∧
      t.ks = t'.ks ∧ t.f[a] = t'.f[a'] ∧ t.seed = s.seed

/-! ### Permutation (diffusion) -/

/-- 43_permutation.md R171, R174: `PBUILD` seeds the generator from `SEED`, writes byte `p` of its sequence to `PM[p]`
for `p < W · H`, leaves the rest of `PM`, and leaves `KS` after the last draw. -/
def Obligations.PbuildBuildsTable : Prop :=
  ∀ (s : State) (st : Nat → Nat), s.GridLegal →
    st 0 = 0x5DEEC * 2 ^ 16 + (0xE66D ^^^ s.seed.toNat) →
    (∀ i, st (i + 1) = (0x5DEECE66D * st i + 0xB) % 2 ^ 48) →
    ∃ t : State, exec .pbuild s = .next t ∧
      (∀ p < s.gridCells, (t.mem.pmAt p).toNat = st (p + 1) / 2 ^ 40) ∧
      (∀ p, s.gridCells ≤ p → t.mem.pmAt p = s.mem.pmAt p) ∧
      t.ks.toNat = st s.gridCells ∧
      t = { s with ks := t.ks, mem := { s.mem with pm := t.mem.pm }, resps := ⟨0, 0⟩ :: s.resps }

/-- 43_permutation.md R171: the table depends only on `SEED` and the grid length, and tables of two lengths agree as
far as both go. -/
def Obligations.TableDependsOnSeedAndLength : Prop :=
  ∀ s s' t t' : State, s.GridLegal → s'.GridLegal → s.seed = s'.seed →
    exec .pbuild s = .next t → exec .pbuild s' = .next t' →
      (∀ p, p < s.gridCells → p < s'.gridCells → t.mem.pmAt p = t'.mem.pmAt p) ∧
      (s.gridCells = s'.gridCells → t.ks = t'.ks)

/-- 43_permutation.md R172, R175: `PXOR` writes source XOR table to the first `W · H` elements of the destination,
which may be the source. -/
def Obligations.PxorMasksGrid : Prop :=
  ∀ (s : State) (d g : Grid), s.GridLegal →
    ∃ t : State, exec (.pxor d g) s = .next t ∧
      (∀ p < s.gridCells, t.mem.gridAt d p = s.mem.gridAt g p ^^^ s.mem.pmAt p) ∧
      (∀ p, s.gridCells ≤ p → t.mem.gridAt d p = s.mem.gridAt d p) ∧
      (d = .sg → t = { s with mem := { s.mem with sg := t.mem.sg }, resps := ⟨0, 0⟩ :: s.resps }) ∧
      (d = .dg → t = { s with mem := { s.mem with dg := t.mem.dg }, resps := ⟨0, 0⟩ :: s.resps })

/-- 43_permutation.md R174, R175: `PBUILD` and `PXOR` fault `InvalidParameters` on an empty grid and on one longer than
`LMAX`. -/
def Obligations.EmptyOrOversizeGridFaults : Prop :=
  ∀ (s : State) (d g : Grid), s.w.toNat = 0 ∨ s.h.toNat = 0 ∨ s.lmax < s.w.toNat * s.h.toNat →
    exec .pbuild s = .next (takeFault .invalidParameters (encode .pbuild) s) ∧
    exec (.pxor d g) s = .next (takeFault .invalidParameters (encode (.pxor d g)) s)

/-- 43_permutation.md R176: diffusing and undiffusing with one table restores the secret grid, and so does `PXOR` of a
grid onto itself, twice. -/
def Obligations.DiffusionIsInvolution : Prop :=
  ∀ s : State, s.GridLegal →
    (∃ t u : State, exec (.pxor .dg .sg) s = .next t ∧ exec (.pxor .sg .dg) t = .next u ∧
      ∀ p, u.mem.sgAt p = s.mem.sgAt p) ∧
    ∀ g : Grid, ∃ t u : State, exec (.pxor g g) s = .next t ∧ exec (.pxor g g) t = .next u ∧
      ∀ p, u.mem.gridAt g p = s.mem.gridAt g p

/-! ### Share generation -/

/-- 44_share_generation.md R185, R186, R193: `PEVAL` writes the value of the polynomial in `CV[0..K−1]` at `F[b]`. -/
def Obligations.PevalEvaluatesPolynomial : Prop :=
  ∀ (s : State) (a b : Fin 16), s.ThresholdLegal →
    ∃ t : State, exec (.peval a b) s = .next t ∧
      t.f[a].val = polyValue s.k.toNat (fun i => (vecAt s.cv i).val) s.f[b].val ∧
      (∀ r : Fin 16, r ≠ a → t.f[r] = s.f[r]) ∧ t = { s with f := t.f, resps := ⟨0, 0⟩ :: s.resps }

/-- 10_state.md R28: every command that uses the threshold faults `InvalidParameters` unless `2 ≤ K ≤ 10`. -/
def Obligations.ThresholdOutOfRangeFaults : Prop :=
  ∀ (s : State) (a b : Fin 16), ¬ s.ThresholdLegal →
    ∀ i ∈ [Instr.peval a b, .lagr a, .vand, .solve, .split, .recon, .distrib, .recover],
      exec i s = .next (takeFault .invalidParameters (encode i) s)

/-- 44_share_generation.md R187 to R191, R194: in both modes `SPLIT` writes to element `q` of slot `x − 1` the value at
`x` of the polynomial of position or block `q`, for `x = 1 .. N`, with the slot's index, length and seed, and leaves
everything else. -/
def Obligations.SplitGeneratesShares : Prop :=
  ∀ s : State, s.SplitLegal →
    ∃ t : State, exec .split s = .next t ∧
      (∀ j : Fin 10, j.val < s.n.toNat →
        (∀ q < s.streamLength,
          (t.mem.shAt j q).val = polyValue s.k.toNat (s.gridCoeff q) (j.val + 1)) ∧
        (∀ q, s.streamLength ≤ q → t.mem.shAt j q = s.mem.shAt j q) ∧
        t.xi[j].toNat = j.val + 1 ∧ t.len[j].toNat = s.streamLength ∧ t.sseed[j] = s.seed) ∧
      (∀ j : Fin 10, s.n.toNat ≤ j.val →
        (∀ q, t.mem.shAt j q = s.mem.shAt j q) ∧
        t.xi[j] = s.xi[j] ∧ t.len[j] = s.len[j] ∧ t.sseed[j] = s.sseed[j]) ∧
      t = { s with mem := { s.mem with sh := t.mem.sh }, xi := t.xi, len := t.len, sseed := t.sseed,
                   resps := ⟨0, 0⟩ :: s.resps }

/-- 44_share_generation.md R195: `SPLIT` and `DISTRIB` respond `InvalidParameters` exactly when a check of
`check_split()` fails. -/
def Obligations.SplitChecksAreExact : Prop :=
  ∀ (s : State) (i : Instr), i = .split ∨ i = .distrib →
    (¬ s.SplitLegal → exec i s = .next (takeFault .invalidParameters (encode i) s)) ∧
    (s.SplitLegal → ∃ t : State, exec i s = .next t ∧ t.resps = ⟨0, 0⟩ :: s.resps)

/-! ### Interpolation and the solver -/

/-- 45_reconstruction.md R200, R201, R212: with distinct points `LAGR` writes the constant term of the polynomial of
degree below `K` through the points of `XV`, `YV`. -/
def Obligations.LagrInterpolates : Prop :=
  ∀ (s : State) (a : Fin 16), s.ThresholdLegal →
    (∀ i < s.k.toNat, ∀ j < s.k.toNat, vecAt s.xv i = vecAt s.xv j → i = j) →
    ∃ (t : State) (c : Nat → Nat), exec (.lagr a) s = .next t ∧
      (∀ i < s.k.toNat, (vecAt s.yv i).val = polyValue s.k.toNat c (vecAt s.xv i).val) ∧
      (∀ i, c i ≤ 256) ∧ t.f[a].val = c 0 ∧
      (∀ r : Fin 16, r ≠ a → t.f[r] = s.f[r]) ∧ t = { s with f := t.f, resps := ⟨0, 0⟩ :: s.resps }

/-- 45_reconstruction.md R202: `LAGR` faults `NoInverse` when two of the points are equal. -/
def Obligations.LagrFaultsOnEqualPoints : Prop :=
  ∀ (s : State) (a : Fin 16) (i j : Nat), s.ThresholdLegal → i < j → j < s.k.toNat →
    vecAt s.xv i = vecAt s.xv j → exec (.lagr a) s = .next (takeFault .noInverse (encode (.lagr a)) s)

/-- 45_reconstruction.md R205, R213: `VAND` writes the powers of the points and the values to their elements of `MAT`
and leaves the other elements. -/
def Obligations.VandBuildsSystem : Prop :=
  ∀ s : State, s.ThresholdLegal →
    ∃ t : State, exec .vand s = .next t ∧
      (∀ i < s.k.toNat, ∀ j < s.k.toNat,
        (vecAt t.mat (11 * i + j)).val = (vecAt s.xv i).val ^ j % 257) ∧
      (∀ i < s.k.toNat, vecAt t.mat (11 * i + 10) = vecAt s.yv i) ∧
      (∀ i j, i < 10 → j ≤ 10 → (s.k.toNat ≤ i ∨ (s.k.toNat ≤ j ∧ j ≠ 10)) →
        vecAt t.mat (11 * i + j) = vecAt s.mat (11 * i + j)) ∧
      t = { s with mat := t.mat, resps := ⟨0, 0⟩ :: s.resps }

/-- 45_reconstruction.md R206, R207, R214: where only the zero vector is sent to zero, `SOLVE` leaves the identity in
the `K × K` block and the solution in column 10 and in `CV[0..K−1]`, and leaves the other elements. -/
def Obligations.SolveFindsSolution : Prop :=
  ∀ s : State, s.ThresholdLegal →
    (∀ v : Nat → Nat, (∀ i < s.k.toNat, rowValue s.mat s.k.toNat i v = 0) → ∀ j < s.k.toNat, v j % 257 = 0) →
    ∃ t : State, exec .solve s = .next t ∧
      (∀ i < s.k.toNat,
        rowValue s.mat s.k.toNat i (fun j => (vecAt t.cv j).val) = (vecAt s.mat (11 * i + 10)).val) ∧
      (∀ i < s.k.toNat, ∀ j < s.k.toNat, (vecAt t.mat (11 * i + j)).val = if i = j then 1 else 0) ∧
      (∀ i < s.k.toNat, vecAt t.mat (11 * i + 10) = vecAt t.cv i) ∧
      (∀ i j, i < 10 → j ≤ 10 → (s.k.toNat ≤ i ∨ (s.k.toNat ≤ j ∧ j ≠ 10)) →
        vecAt t.mat (11 * i + j) = vecAt s.mat (11 * i + j)) ∧
      (∀ i, s.k.toNat ≤ i → vecAt t.cv i = vecAt s.cv i) ∧
      t = { s with mat := t.mat, cv := t.cv, resps := ⟨0, 0⟩ :: s.resps }

/-- 45_reconstruction.md R206, R214: where some vector that is not zero is sent to zero, the block is singular and
`SOLVE` faults `SingularSystem`. -/
def Obligations.SolveFaultsOnSingular : Prop :=
  ∀ (s : State) (v : Nat → Nat) (m : Nat), s.ThresholdLegal →
    (∀ i < s.k.toNat, rowValue s.mat s.k.toNat i v = 0) → m < s.k.toNat → v m % 257 ≠ 0 →
    exec .solve s = .next (takeFault .singularSystem (encode .solve) s)

/-- 45_reconstruction.md R209: with distinct points `LAGR` and `VAND` then `SOLVE` give the same constant term. -/
def Obligations.LagrangeAgreesWithSolver : Prop :=
  ∀ (s : State) (a : Fin 16), s.ThresholdLegal →
    (∀ i < s.k.toNat, ∀ j < s.k.toNat, vecAt s.xv i = vecAt s.xv j → i = j) →
    ∃ t u v : State, exec (.lagr a) s = .next t ∧ exec .vand t = .next u ∧ exec .solve u = .next v ∧
      v.f[a] = vecAt v.cv 0 ∧ v.resps = ⟨0, 0⟩ :: ⟨0, 0⟩ :: ⟨0, 0⟩ :: s.resps ∧
      ∀ i < s.k.toNat,
        (vecAt s.yv i).val = polyValue s.k.toNat (fun m => (vecAt v.cv m).val) (vecAt s.xv i).val

/-- 45_reconstruction.md R208, R213: equal points are not detected by `VAND` and make `SOLVE` fault
`SingularSystem`. -/
def Obligations.EqualPointsMakeSystemSingular : Prop :=
  ∀ (s : State) (i j : Nat), s.ThresholdLegal → i < j → j < s.k.toNat → vecAt s.xv i = vecAt s.xv j →
    ∃ t : State, exec .vand s = .next t ∧ t.resps = ⟨0, 0⟩ :: s.resps ∧
      exec .solve t = .next (takeFault .singularSystem (encode .solve) t)

/-! ### Reconstruction -/

/-- 45_reconstruction.md R215: with parameters that pass `recon_checks()` and shares of polynomials whose stored
coefficients are Samples, `RECON` writes those coefficients to `DG[0..L−1]`. Any `K` values at distinct points are the
shares of some polynomials, so the last hypothesis only names them. -/
def Obligations.ReconRecoversCoefficients : Prop :=
  ∀ (s : State) (C : Nat → Nat → Nat), s.ReconLegal → (∀ q i, C q i ≤ 256) → s.SharesOf C →
    (∀ q < s.streamLength, ∀ i < s.blk.toNat, C q i ≤ 255) →
    ∃ t : State, exec .recon s = .next t ∧
      (∀ q < s.streamLength, ∀ i < s.blk.toNat, (t.mem.dgAt (q * s.blk.toNat + i)).toNat = C q i) ∧
      (∀ p, s.gridCells ≤ p → t.mem.dgAt p = s.mem.dgAt p) ∧
      t = { s with mem := { s.mem with dg := t.mem.dg }, resps := ⟨0, 0⟩ :: s.resps }

/-- 45_reconstruction.md R217, 47_scheme.md R253: if a coefficient to be stored is 256, `RECON` faults `E_OPERAND`, and
so does `RECOVER` once the seeds agree. -/
def Obligations.Recovered256Faults : Prop :=
  ∀ (s : State) (C : Nat → Nat → Nat) (q i : Nat), s.ReconLegal → (∀ q i, C q i ≤ 256) → s.SharesOf C →
    q < s.streamLength → i < s.blk.toNat → C q i = 256 →
    exec .recon s = .next (takeFault .operand (encode .recon) s) ∧
    (s.SeedsAgree → exec .recover s = .next (takeFault .operand (encode .recover) s))

/-- 45_reconstruction.md R216, 47_scheme.md R253: the checks of `RECON` and `RECOVER`, each failing only where those
before it pass, and `RECOVER`'s seed check after them. -/
def Obligations.ReconChecksInOrder : Prop :=
  ∀ (s : State) (i : Instr), i = .recon ∨ i = .recover →
    (¬ s.ReconGridLegal → exec i s = .next (takeFault .invalidParameters (encode i) s)) ∧
    (s.ReconGridLegal → s.selectedCount < s.k.toNat →
      exec i s = .next (takeFault .insufficientShares (encode i) s)) ∧
    (s.ReconGridLegal → s.k.toNat < s.selectedCount →
      exec i s = .next (takeFault .invalidParameters (encode i) s)) ∧
    (s.ReconGridLegal → s.selectedCount = s.k.toNat → ¬ s.IndexesInRange →
      exec i s = .next (takeFault .invalidParameters (encode i) s)) ∧
    (s.ReconGridLegal → s.selectedCount = s.k.toNat → s.IndexesInRange → ¬ s.IndexesDistinct →
      exec i s = .next (takeFault .duplicateIndex (encode i) s)) ∧
    (s.ReconGridLegal → s.selectedCount = s.k.toNat → s.IndexesInRange → s.IndexesDistinct → ¬ s.LengthsMatch →
      exec i s = .next (takeFault .mismatchedLength (encode i) s)) ∧
    (s.ReconLegal → ¬ s.SeedsAgree →
      exec .recover s = .next (takeFault .invalidParameters (encode .recover) s))

/-- 45_reconstruction.md R220: `RECON` and `RECOVER` never report `SingularSystem` or `NoInverse`. -/
def Obligations.ReconNeverSingular : Prop :=
  ∀ (s t : State) (i : Instr) (r : Response), i = .recon ∨ i = .recover → exec i s = .next t →
    t.resps = r :: s.resps → r.status ≠ 0x05 ∧ r.status ≠ 0x07

/-- 45_reconstruction.md R218: after `SPLIT`, `RECON` with any `K` of the `N` shares selected writes back the same
diffused grid, from any state that kept the parameters and the selected slots, whatever happened to the rest. -/
def Obligations.SplitReconRoundTrip : Prop :=
  ∀ s t u : State, s.SplitLegal → exec .split s = .next t →
    u.k = t.k → u.w = t.w → u.h = t.h → u.blk = t.blk → u.lmax = t.lmax →
    u.selectedCount = u.k.toNat → (∀ j : Fin 10, u.Selects j → j.val < s.n.toNat) →
    (∀ j : Fin 10, u.Selects j → u.xi[j] = t.xi[j] ∧ u.len[j] = t.len[j] ∧
      ∀ q < s.streamLength, u.mem.shAt j q = t.mem.shAt j q) →
    ∃ v : State, exec .recon u = .next v ∧ v.resps = ⟨0, 0⟩ :: u.resps ∧
      ∀ p < s.gridCells, v.mem.dgAt p = s.mem.dgAt p

/-! ### Steganographic codec -/

/-- 46_stego.md R231 to R233, R236: `EMBED` puts group `m` of share byte `i` into the low `B` bits of carrier byte
`i · per + m`, keeps the other bits and bytes, and copies the slot's seed and index to the side-channel. -/
def Obligations.EmbedWritesGroups : Prop :=
  ∀ (s : State) (j : Fin 10), s.WidthLegal → s.FitsCarrier j →
    (∀ i < s.len[j].toNat, (s.mem.shAt j i).val ≤ 255) →
    let B := s.b.toNat
    let per := 8 / B
    ∃ t : State, exec (.embed (slotField j)) s = .next t ∧
      (∀ i < s.len[j].toNat, ∀ m < per,
        (t.mem.cgAt (i * per + m)).toNat =
          (s.mem.cgAt (i * per + m)).toNat / 2 ^ B * 2 ^ B +
            (s.mem.shAt j i).val / 2 ^ (8 - B * (m + 1)) % 2 ^ B) ∧
      (∀ a, s.len[j].toNat * per ≤ a → t.mem.cgAt a = s.mem.cgAt a) ∧
      t = { s with mem := { s.mem with cg := t.mem.cg }, scseed := s.sseed[j], scidx := s.xi[j],
                   resps := ⟨0, 0⟩ :: s.resps }

/-- 46_stego.md R233, R237: `EXTRACT` assembles share byte `i` from the low `B` bits of its carrier bytes, first group
on top, and copies the side-channel to the slot's registers. -/
def Obligations.ExtractAssemblesBytes : Prop :=
  ∀ (s : State) (j : Fin 10), s.WidthLegal → s.FitsCarrier j →
    let B := s.b.toNat
    let per := 8 / B
    ∃ t : State, exec (.extract (slotField j)) s = .next t ∧
      (∀ i < s.len[j].toNat,
        (t.mem.shAt j i).val =
          ∑ m ∈ Finset.range per, (s.mem.cgAt (i * per + m)).toNat % 2 ^ B * 2 ^ (8 - B * (m + 1))) ∧
      (∀ i, s.len[j].toNat ≤ i → t.mem.shAt j i = s.mem.shAt j i) ∧
      (∀ j' : Fin 10, j' ≠ j → t.xi[j'] = s.xi[j'] ∧ t.sseed[j'] = s.sseed[j'] ∧
        ∀ i, t.mem.shAt j' i = s.mem.shAt j' i) ∧
      t.xi[j] = s.scidx ∧ t.sseed[j] = s.scseed ∧
      t = { s with mem := { s.mem with sh := t.mem.sh }, xi := t.xi, sseed := t.sseed,
                   resps := ⟨0, 0⟩ :: s.resps }

/-- 46_stego.md R238: what `EMBED j` put into the carrier, `EXTRACT j'` takes out, with the share's index and seed, from
any state that kept the carrier, its length, the width and the side-channel. -/
def Obligations.EmbedExtractRoundTrip : Prop :=
  ∀ (s t u : State) (j j' : Fin 10), exec (.embed (slotField j)) s = .next t → t.resps = ⟨0, 0⟩ :: s.resps →
    u.b = t.b → u.clen = t.clen → u.scseed = t.scseed → u.scidx = t.scidx → u.len[j'] = t.len[j] →
    (∀ a < t.clen.toNat, u.mem.cgAt a = t.mem.cgAt a) →
    ∃ v : State, exec (.extract (slotField j')) u = .next v ∧ v.resps = ⟨0, 0⟩ :: u.resps ∧
      (∀ i < s.len[j].toNat, v.mem.shAt j' i = s.mem.shAt j i) ∧
      v.xi[j'] = s.xi[j] ∧ v.sseed[j'] = s.sseed[j]

/-- 46_stego.md R230, R234 to R237: the faults of `EMBED` and `EXTRACT` in their order: slot, width, capacity, and for
`EMBED` an element of 256. -/
def Obligations.CodecRefusals : Prop :=
  ∀ s : State,
    (∀ slot : Fin 16, 9 < slot.val →
      exec (.embed slot) s = .next (takeFault .illegal (encode (.embed slot)) s) ∧
      exec (.extract slot) s = .next (takeFault .illegal (encode (.extract slot)) s)) ∧
    ∀ j : Fin 10,
      (¬ s.WidthLegal →
        exec (.embed (slotField j)) s = .next (takeFault .invalidParameters (encode (.embed (slotField j))) s) ∧
        exec (.extract (slotField j)) s =
          .next (takeFault .invalidParameters (encode (.extract (slotField j))) s)) ∧
      (s.WidthLegal → ¬ s.FitsCarrier j →
        exec (.embed (slotField j)) s = .next (takeFault .capacity (encode (.embed (slotField j))) s) ∧
        exec (.extract (slotField j)) s = .next (takeFault .capacity (encode (.extract (slotField j))) s)) ∧
      (s.WidthLegal → s.FitsCarrier j → (∃ i < s.len[j].toNat, (s.mem.shAt j i).val = 256) →
        exec (.embed (slotField j)) s = .next (takeFault .operand (encode (.embed (slotField j))) s))

/-! ### Scheme -/

/-- 47_scheme.md R252: `DISTRIB` does what `PBUILD`, `PXOR DG, SG` and `SPLIT` do one after the other, as one
command. -/
def Obligations.DistribIsBuildMaskSplit : Prop :=
  ∀ s : State, s.SplitLegal →
    ∃ a b c : State, exec .pbuild s = .next a ∧ exec (.pxor .dg .sg) a = .next b ∧ exec .split b = .next c ∧
      c.resps = ⟨0, 0⟩ :: ⟨0, 0⟩ :: ⟨0, 0⟩ :: s.resps ∧
      exec .distrib s = .next { c with resps := ⟨0, 0⟩ :: s.resps } ∧
      (∀ p, c.mem.sgAt p = s.mem.sgAt p) ∧
      c = { s with ks := c.ks, mem := { s.mem with pm := c.mem.pm, dg := c.mem.dg, sh := c.mem.sh },
                   xi := c.xi, len := c.len, sseed := c.sseed, resps := c.resps }

/-- 47_scheme.md R253: with legal parameters, one seed and shares of Samples, `RECOVER` does what `RECON`, loading the
shares' seed into `SEED`, `PBUILD` and `PXOR SG, DG` do one after the other, as one command. -/
def Obligations.RecoverIsReconBuildUnmask : Prop :=
  ∀ (s : State) (C : Nat → Nat → Nat) (j : Fin 10), s.ReconLegal → s.SeedsAgree → s.Selects j →
    (∀ q i, C q i ≤ 256) → s.SharesOf C → (∀ q < s.streamLength, ∀ i < s.blk.toNat, C q i ≤ 255) →
    ∃ a b c : State, exec .recon s = .next a ∧ exec .pbuild { a with seed := s.sseed[j] } = .next b ∧
      exec (.pxor .sg .dg) b = .next c ∧ c.resps = ⟨0, 0⟩ :: ⟨0, 0⟩ :: ⟨0, 0⟩ :: s.resps ∧
      exec .recover s = .next { c with resps := ⟨0, 0⟩ :: s.resps } ∧
      c = { s with seed := s.sseed[j], ks := c.ks,
                   mem := { s.mem with dg := c.mem.dg, pm := c.mem.pm, sg := c.mem.sg }, resps := c.resps }

/-- 47_scheme.md R254: after `DISTRIB`, `RECOVER` with any `K` of the `N` shares selected restores the secret grid, from
any state that kept the parameters and the selected slots. -/
def Obligations.DistribRecoverRoundTrip : Prop :=
  ∀ s t u : State, s.SplitLegal → exec .distrib s = .next t →
    u.k = t.k → u.w = t.w → u.h = t.h → u.blk = t.blk → u.lmax = t.lmax →
    u.selectedCount = u.k.toNat → (∀ j : Fin 10, u.Selects j → j.val < s.n.toNat) →
    (∀ j : Fin 10, u.Selects j → u.xi[j] = t.xi[j] ∧ u.len[j] = t.len[j] ∧ u.sseed[j] = t.sseed[j] ∧
      ∀ q < s.streamLength, u.mem.shAt j q = t.mem.shAt j q) →
    ∃ v : State, exec .recover u = .next v ∧ v.resps = ⟨0, 0⟩ :: u.resps ∧ v.seed = s.seed ∧
      ∀ p < s.gridCells, v.mem.sgAt p = s.mem.sgAt p
end

