-- ==== Sys2Proof/Laws/Arith.lean ====
section
/-! SUPPORT. Laws of the pure functions: checked iteration, the field functions as arithmetic in `ZMod 257`,
polynomial evaluation, the generator's sequence, and samples as field elements. -/

namespace Sys2Proof.Machine

/-! ### Checked iteration -/

/-- An invariant of a checked fold that every step keeps holds at its end. -/
theorem foldE_inv {σ α : Type} {f : σ → α → Except ErrKind σ} (P : σ → Prop)
    (hf : ∀ s a t, P s → f s a = .ok t → P t) {l : List α} {s t : σ} (hs : P s) (h : foldE f s l = .ok t) : P t := by
  induction l generalizing s with
  | nil => cases h; exact hs
  | cons a l ih =>
    simp only [foldE] at h
    split at h
    · exact ih (hf _ _ _ hs ‹_›) h
    · cases h

/-- A checked fold over an appended list is one fold after the other. -/
theorem foldE_append {σ α : Type} (f : σ → α → Except ErrKind σ) (l l' : List α) (s : σ) :
    foldE f s (l ++ l') =
      match foldE f s l with
      | .ok t => foldE f t l'
      | .error e => .error e := by
  induction l generalizing s with
  | nil => rfl
  | cons a l ih =>
    simp only [List.cons_append, foldE]
    split
    · exact ih _
    · rfl

/-- Where every step succeeds, the checked fold is the plain one. -/
theorem foldE_ok {σ α : Type} {f : σ → α → Except ErrKind σ} {g : σ → α → σ} {l : List α}
    (h : ∀ a ∈ l, ∀ s, f s a = .ok (g s a)) (s : σ) : foldE f s l = .ok (l.foldl g s) := by
  induction l generalizing s with
  | nil => rfl
  | cons a l ih =>
    simp only [foldE, h a (by simp), List.foldl_cons]
    exact ih (fun b hb => h b (by simp [hb])) _

/-- Collecting succeeds with `bs` exactly where `f` answers the elements of `bs` one by one. -/
theorem collectE_ok_iff {α β : Type} {f : α → Except ErrKind β} {l : List α} {bs : List β} :
    collectE f l = .ok bs ↔ List.Forall₂ (fun a b => f a = .ok b) l bs := by
  induction l generalizing bs with
  | nil => simp [collectE, eq_comm]
  | cons a l ih =>
    simp only [collectE]
    cases hf : f a with
    | error e => simp [hf, List.forall₂_cons_left_iff]
    | ok b =>
      cases hc : collectE f l with
      | error e =>
        simp only [hf, List.forall₂_cons_left_iff, ← ih, hc]
        simp
      | ok cs =>
        simp only [hf, List.forall₂_cons_left_iff, ← ih, hc]
        simp [eq_comm]

/-- Where `f` answers on every element, collecting is mapping. -/
theorem collectE_ok {α β : Type} {f : α → Except ErrKind β} {g : α → β} {l : List α}
    (h : ∀ a ∈ l, f a = .ok (g a)) : collectE f l = .ok (l.map g) := by
  rw [collectE_ok_iff, List.forall₂_map_right_iff, List.forall₂_same]
  exact h

/-- Collecting fails with `e` where some element fails and none fails with another error. -/
theorem collectE_error {α β : Type} {f : α → Except ErrKind β} {l : List α} {e : ErrKind}
    (h : ∃ a ∈ l, f a = .error e) (h' : ∀ a ∈ l, ∀ e', f a = .error e' → e' = e) :
    collectE f l = .error e := by
  induction l with
  | nil => simp at h
  | cons a l ih =>
    simp only [collectE]
    cases hf : f a with
    | error e' => simp [h' a (by simp) e' hf]
    | ok b =>
      obtain ⟨c, hc, hce⟩ := h
      rcases List.mem_cons.1 hc with rfl | hc
      · rw [hf] at hce; cases hce
      · simp [ih ⟨c, hc, hce⟩ fun d hd => h' d (by simp [hd])]

/-- A collecting error is the error of some element. -/
theorem collectE_error_elim {α β : Type} {f : α → Except ErrKind β} {l : List α} {e : ErrKind}
    (h : collectE f l = .error e) : ∃ a ∈ l, f a = .error e := by
  induction l with
  | nil => cases h
  | cons a l ih =>
    simp only [collectE] at h
    cases hf : f a with
    | error e' => simp only [hf] at h; exact ⟨a, by simp, by rw [hf]; cases h; rfl⟩
    | ok b =>
      simp only [hf] at h
      cases hc : collectE f l with
      | error e' =>
        simp only [hc] at h
        cases h
        obtain ⟨c, hc1, hc2⟩ := ih hc
        exact ⟨c, by simp [hc1], hc2⟩
      | ok cs => simp [hc] at h

/-! ### The field functions -/

/-- The class of a field element. -/
def gfClass (x : GF) : ZMod 257 := (x.val : ZMod 257)

/-- A field element is determined by its class. -/
theorem gfClass_injective {x y : GF} : gfClass x = gfClass y ↔ x = y := by
  constructor
  · intro h
    rw [gfClass, gfClass, ZMod.natCast_eq_natCast_iff, Nat.ModEq, Nat.mod_eq_of_lt x.2, Nat.mod_eq_of_lt y.2] at h
    exact Fin.ext h
  · rintro rfl; rfl

/-- The class of a number reduced modulo 257. -/
theorem gfClass_ofNat (m : Nat) : gfClass (Fin.ofNat 257 m) = (m : ZMod 257) := by
  simp [gfClass, Fin.ofNat]

@[simp] theorem gfClass_zero : gfClass 0 = 0 := by simp [gfClass]
@[simp] theorem gfClass_one : gfClass 1 = 1 := by simp [gfClass]

/-- A field element is 0 exactly when its class is. -/
theorem gfClass_eq_zero {x : GF} : gfClass x = 0 ↔ x = 0 := by rw [← gfClass_zero, gfClass_injective]

@[simp] theorem gfClass_fadd (a b : GF) : gfClass (fadd a b) = gfClass a + gfClass b := by
  rw [fadd, gfClass_ofNat]; push_cast; rfl

@[simp] theorem gfClass_fmul (a b : GF) : gfClass (fmul a b) = gfClass a * gfClass b := by
  rw [fmul, gfClass_ofNat]; push_cast; rfl

@[simp] theorem gfClass_fsub (a b : GF) : gfClass (fsub a b) = gfClass a - gfClass b := by
  rw [fsub, gfClass_ofNat, Nat.cast_sub (by have := b.2; omega)]
  push_cast
  rw [show (257 : ZMod 257) = 0 from by decide]
  simp [gfClass]

/-- A number below 257 is determined by its class. -/
theorem val_eq_mod (x : GF) (m : Nat) (h : gfClass x = (m : ZMod 257)) : x.val = m % 257 := by
  rw [gfClass, ZMod.natCast_eq_natCast_iff, Nat.ModEq, Nat.mod_eq_of_lt x.2] at h
  exact h

/-- An inverse found by `finv` is one. -/
theorem gfClass_finv {a x : GF} (h : finv a = some x) : gfClass a * gfClass x = 1 := by
  have := List.find?_some h
  simp only [decide_eq_true_eq] at this
  rw [← gfClass_fmul, this, gfClass_one]

/-- `finv` finds none exactly for 0. -/
theorem finv_eq_none {a : GF} : finv a = none ↔ a = 0 := by
  have : Fact (Nat.Prime 257) := ⟨by norm_num⟩
  constructor
  · intro h
    by_contra ha
    have h0 : gfClass a ≠ 0 := fun hz => ha (gfClass_eq_zero.1 hz)
    rw [finv, List.find?_eq_none] at h
    refine h (Fin.ofNat 257 ((gfClass a)⁻¹).val) (List.mem_finRange _) ?_
    rw [decide_eq_true_eq, ← gfClass_injective, gfClass_fmul, gfClass_ofNat, ZMod.natCast_val, ZMod.cast_id, gfClass_one]
    exact mul_inv_cancel₀ h0
  · rintro rfl
    cases h : finv 0 with
    | none => rfl
    | some x => simpa using gfClass_finv h

/-- What `finv` finds, as the inverse of the class. -/
theorem gfClass_finv_eq {a x : GF} (h : finv a = some x) : gfClass x = (gfClass a)⁻¹ := by
  have : Fact (Nat.Prime 257) := ⟨by norm_num⟩
  exact eq_inv_of_mul_eq_one_right (gfClass_finv h)

/-- `finv` finds an inverse of a nonzero element. -/
theorem finv_some {a : GF} (h : a ≠ 0) : ∃ x, finv a = some x := by
  cases hf : finv a with
  | none => exact absurd (finv_eq_none.1 hf) h
  | some x => exact ⟨x, rfl⟩

@[simp] theorem gfClass_fpow (x : GF) (j : Nat) : gfClass (fpow x j) = gfClass x ^ j := by
  induction j with
  | zero => simp [fpow]
  | succ j ih => rw [fpow, gfClass_fmul, ih, pow_succ]

/-- Horner's form is the sum of the coefficients times the powers. -/
theorem gfClass_horner (c : List GF) (x : GF) :
    gfClass (horner c x) = ∑ i ∈ Finset.range c.length, gfClass (c.getD i 0) * gfClass x ^ i := by
  induction c with
  | nil => simp [horner]
  | cons a c ih =>
    have h : horner (a :: c) x = fadd (fmul (horner c x) x) a := rfl
    rw [h, gfClass_fadd, gfClass_fmul, ih, List.length_cons, Finset.sum_range_succ', Finset.sum_mul]
    simp only [List.getD_cons_succ, List.getD_cons_zero, pow_zero, mul_one]
    congr 1
    exact Finset.sum_congr rfl fun i _ => by ring

/-- `polyValue` depends on the first `k` coefficients only. -/
theorem polyValue_congr {k : Nat} {c d : Nat → Nat} (h : ∀ i < k, c i = d i) (x : Nat) :
    polyValue k c x = polyValue k d x := by
  unfold polyValue
  rw [Finset.sum_congr rfl fun i hi => by rw [h i (Finset.mem_range.1 hi)]]

/-- The class of `polyValue`. -/
theorem natCast_polyValue (k : Nat) (c : Nat → Nat) (x : Nat) :
    (polyValue k c x : ZMod 257) = ∑ i ∈ Finset.range k, (c i : ZMod 257) * (x : ZMod 257) ^ i := by
  simp [polyValue]

/-- The class of `rowValue`. -/
theorem natCast_rowValue (m : Vector GF 110) (k i : Nat) (v : Nat → Nat) :
    (rowValue m k i v : ZMod 257) = ∑ j ∈ Finset.range k, gfClass (vecAt m (11 * i + j)) * (v j : ZMod 257) := by
  simp [rowValue, gfClass]

/-- Horner's form over a coefficient list is `polyValue` of its elements. -/
theorem horner_val (c : List GF) (x : GF) :
    (horner c x).val = polyValue c.length (fun i => (c.getD i 0).val) x.val := by
  rw [val_eq_mod _ (∑ i ∈ Finset.range c.length, (c.getD i 0).val * x.val ^ i), polyValue]
  rw [gfClass_horner]
  push_cast
  rfl

/-! ### The generator -/

@[simp] theorem length_ksBytes (count : Nat) (s : BitVec 48) : (ksBytes count s).length = count := by
  induction count generalizing s with
  | zero => rfl
  | succ count ih => simp [ksBytes, ih]

/-- The state after one more draw. -/
theorem ksAfter_succ (count : Nat) (s : BitVec 48) : ksAfter (count + 1) s = ksStep (ksAfter count s) := by
  induction count generalizing s with
  | zero => rfl
  | succ count ih => rw [ksAfter, ih]; rfl

/-- Byte `i` of the sequence from `s` is drawn from the state after `i` draws. -/
theorem getElem?_ksBytes (count : Nat) (s : BitVec 48) (i : Nat) (h : i < count) :
    (ksBytes count s)[i]? = some (ksByte (ksAfter i s)) := by
  induction count generalizing s i with
  | zero => omega
  | succ count ih =>
    cases i with
    | zero => rfl
    | succ i => simpa [ksBytes, ksAfter] using ih (ksStep s) i (by omega)

/-- One draw, as numbers. -/
theorem toNat_ksStep (s : BitVec 48) : (ksStep s).toNat = (0x5DEECE66D * s.toNat + 0xB) % 2 ^ 48 := by
  simp [ksStep, BitVec.toNat_add, BitVec.toNat_mul]

/-- The byte drawn, as a number. -/
theorem toNat_ksByte (s : BitVec 48) : (ksByte s).toNat = (ksStep s).toNat / 2 ^ 40 := by
  have := (ksStep s).isLt
  simp only [ksByte, BitVec.extractLsb'_toNat, Nat.shiftRight_eq_div_pow]
  omega

/-! ### Samples and field elements -/

@[simp] theorem sampleToGF_val (v : Byte) : (sampleToGF v).val = v.toNat := by
  have := v.isLt
  simp [sampleToGF, Fin.ofNat]; omega

/-- A field element that is a Sample. -/
theorem gfToSample_ok {x : GF} (h : x.val ≤ 255) : gfToSample x = .ok (BitVec.ofNat 8 x.val) := by
  rw [gfToSample, if_neg (by omega)]

/-- The one field element that is none. -/
theorem gfToSample_error {x : GF} (h : 255 < x.val) : gfToSample x = .error .operand := by
  rw [gfToSample, if_pos h]

/-- Reading a field element as a Sample undoes `sampleToGF`. -/
theorem gfToSample_sampleToGF (v : Byte) : gfToSample (sampleToGF v) = .ok v := by
  have := v.isLt
  rw [gfToSample_ok (by rw [sampleToGF_val]; omega), sampleToGF_val]
  simp

end Sys2Proof.Machine
end

