-- ==== Sys2Proof/Laws/State.lean ====
section
/-! SUPPORT. The fields of the state after each update: one lemma for each field and update, so that no proof
unfolds a record update. -/

namespace Sys2Proof.Machine

/-! ### The response -/

@[simp] theorem respond_f (s : State) (st : BitVec 8) (d : BitVec 32) :
    (s.respond st d).f = s.f := rfl
@[simp] theorem respond_lmax (s : State) (st : BitVec 8) (d : BitVec 32) :
    (s.respond st d).lmax = s.lmax := rfl
@[simp] theorem respond_cmax (s : State) (st : BitVec 8) (d : BitVec 32) :
    (s.respond st d).cmax = s.cmax := rfl
@[simp] theorem respond_err (s : State) (st : BitVec 8) (d : BitVec 32) :
    (s.respond st d).err = s.err := rfl
@[simp] theorem respond_einfolo (s : State) (st : BitVec 8) (d : BitVec 32) :
    (s.respond st d).einfolo = s.einfolo := rfl
@[simp] theorem respond_einfohi (s : State) (st : BitVec 8) (d : BitVec 32) :
    (s.respond st d).einfohi = s.einfohi := rfl
@[simp] theorem respond_k (s : State) (st : BitVec 8) (d : BitVec 32) :
    (s.respond st d).k = s.k := rfl
@[simp] theorem respond_n (s : State) (st : BitVec 8) (d : BitVec 32) :
    (s.respond st d).n = s.n := rfl
@[simp] theorem respond_w (s : State) (st : BitVec 8) (d : BitVec 32) :
    (s.respond st d).w = s.w := rfl
@[simp] theorem respond_h (s : State) (st : BitVec 8) (d : BitVec 32) :
    (s.respond st d).h = s.h := rfl
@[simp] theorem respond_blk (s : State) (st : BitVec 8) (d : BitVec 32) :
    (s.respond st d).blk = s.blk := rfl
@[simp] theorem respond_b (s : State) (st : BitVec 8) (d : BitVec 32) :
    (s.respond st d).b = s.b := rfl
@[simp] theorem respond_seed (s : State) (st : BitVec 8) (d : BitVec 32) :
    (s.respond st d).seed = s.seed := rfl
@[simp] theorem respond_sel (s : State) (st : BitVec 8) (d : BitVec 32) :
    (s.respond st d).sel = s.sel := rfl
@[simp] theorem respond_clen (s : State) (st : BitVec 8) (d : BitVec 32) :
    (s.respond st d).clen = s.clen := rfl
@[simp] theorem respond_scseed (s : State) (st : BitVec 8) (d : BitVec 32) :
    (s.respond st d).scseed = s.scseed := rfl
@[simp] theorem respond_scidx (s : State) (st : BitVec 8) (d : BitVec 32) :
    (s.respond st d).scidx = s.scidx := rfl
@[simp] theorem respond_xi (s : State) (st : BitVec 8) (d : BitVec 32) :
    (s.respond st d).xi = s.xi := rfl
@[simp] theorem respond_len (s : State) (st : BitVec 8) (d : BitVec 32) :
    (s.respond st d).len = s.len := rfl
@[simp] theorem respond_sseed (s : State) (st : BitVec 8) (d : BitVec 32) :
    (s.respond st d).sseed = s.sseed := rfl
@[simp] theorem respond_ks (s : State) (st : BitVec 8) (d : BitVec 32) :
    (s.respond st d).ks = s.ks := rfl
@[simp] theorem respond_xv (s : State) (st : BitVec 8) (d : BitVec 32) :
    (s.respond st d).xv = s.xv := rfl
@[simp] theorem respond_yv (s : State) (st : BitVec 8) (d : BitVec 32) :
    (s.respond st d).yv = s.yv := rfl
@[simp] theorem respond_cv (s : State) (st : BitVec 8) (d : BitVec 32) :
    (s.respond st d).cv = s.cv := rfl
@[simp] theorem respond_mat (s : State) (st : BitVec 8) (d : BitVec 32) :
    (s.respond st d).mat = s.mat := rfl
@[simp] theorem respond_mem (s : State) (st : BitVec 8) (d : BitVec 32) :
    (s.respond st d).mem = s.mem := rfl
@[simp] theorem respond_cmds (s : State) (st : BitVec 8) (d : BitVec 32) :
    (s.respond st d).cmds = s.cmds := rfl
@[simp] theorem respond_resps (s : State) (st : BitVec 8) (d : BitVec 32) :
    (s.respond st d).resps = ⟨st, d⟩ :: s.resps := rfl

/-! ### A field register -/

@[simp] theorem writeF_f (s : State) (a : Fin 16) (v : GF) :
    (s.writeF a v).f = s.f.set a.val v := rfl
@[simp] theorem writeF_lmax (s : State) (a : Fin 16) (v : GF) :
    (s.writeF a v).lmax = s.lmax := rfl
@[simp] theorem writeF_cmax (s : State) (a : Fin 16) (v : GF) :
    (s.writeF a v).cmax = s.cmax := rfl
@[simp] theorem writeF_err (s : State) (a : Fin 16) (v : GF) :
    (s.writeF a v).err = s.err := rfl
@[simp] theorem writeF_einfolo (s : State) (a : Fin 16) (v : GF) :
    (s.writeF a v).einfolo = s.einfolo := rfl
@[simp] theorem writeF_einfohi (s : State) (a : Fin 16) (v : GF) :
    (s.writeF a v).einfohi = s.einfohi := rfl
@[simp] theorem writeF_k (s : State) (a : Fin 16) (v : GF) :
    (s.writeF a v).k = s.k := rfl
@[simp] theorem writeF_n (s : State) (a : Fin 16) (v : GF) :
    (s.writeF a v).n = s.n := rfl
@[simp] theorem writeF_w (s : State) (a : Fin 16) (v : GF) :
    (s.writeF a v).w = s.w := rfl
@[simp] theorem writeF_h (s : State) (a : Fin 16) (v : GF) :
    (s.writeF a v).h = s.h := rfl
@[simp] theorem writeF_blk (s : State) (a : Fin 16) (v : GF) :
    (s.writeF a v).blk = s.blk := rfl
@[simp] theorem writeF_b (s : State) (a : Fin 16) (v : GF) :
    (s.writeF a v).b = s.b := rfl
@[simp] theorem writeF_seed (s : State) (a : Fin 16) (v : GF) :
    (s.writeF a v).seed = s.seed := rfl
@[simp] theorem writeF_sel (s : State) (a : Fin 16) (v : GF) :
    (s.writeF a v).sel = s.sel := rfl
@[simp] theorem writeF_clen (s : State) (a : Fin 16) (v : GF) :
    (s.writeF a v).clen = s.clen := rfl
@[simp] theorem writeF_scseed (s : State) (a : Fin 16) (v : GF) :
    (s.writeF a v).scseed = s.scseed := rfl
@[simp] theorem writeF_scidx (s : State) (a : Fin 16) (v : GF) :
    (s.writeF a v).scidx = s.scidx := rfl
@[simp] theorem writeF_xi (s : State) (a : Fin 16) (v : GF) :
    (s.writeF a v).xi = s.xi := rfl
@[simp] theorem writeF_len (s : State) (a : Fin 16) (v : GF) :
    (s.writeF a v).len = s.len := rfl
@[simp] theorem writeF_sseed (s : State) (a : Fin 16) (v : GF) :
    (s.writeF a v).sseed = s.sseed := rfl
@[simp] theorem writeF_ks (s : State) (a : Fin 16) (v : GF) :
    (s.writeF a v).ks = s.ks := rfl
@[simp] theorem writeF_xv (s : State) (a : Fin 16) (v : GF) :
    (s.writeF a v).xv = s.xv := rfl
@[simp] theorem writeF_yv (s : State) (a : Fin 16) (v : GF) :
    (s.writeF a v).yv = s.yv := rfl
@[simp] theorem writeF_cv (s : State) (a : Fin 16) (v : GF) :
    (s.writeF a v).cv = s.cv := rfl
@[simp] theorem writeF_mat (s : State) (a : Fin 16) (v : GF) :
    (s.writeF a v).mat = s.mat := rfl
@[simp] theorem writeF_mem (s : State) (a : Fin 16) (v : GF) :
    (s.writeF a v).mem = s.mem := rfl
@[simp] theorem writeF_cmds (s : State) (a : Fin 16) (v : GF) :
    (s.writeF a v).cmds = s.cmds := rfl
@[simp] theorem writeF_resps (s : State) (a : Fin 16) (v : GF) :
    (s.writeF a v).resps = s.resps := rfl

/-! ### Clearing the sticky error -/

@[simp] theorem clearError_f (s : State) :
    (clearError s).f = s.f := rfl
@[simp] theorem clearError_lmax (s : State) :
    (clearError s).lmax = s.lmax := rfl
@[simp] theorem clearError_cmax (s : State) :
    (clearError s).cmax = s.cmax := rfl
@[simp] theorem clearError_err (s : State) :
    (clearError s).err = 0 := rfl
@[simp] theorem clearError_einfolo (s : State) :
    (clearError s).einfolo = 0 := rfl
@[simp] theorem clearError_einfohi (s : State) :
    (clearError s).einfohi = 0 := rfl
@[simp] theorem clearError_k (s : State) :
    (clearError s).k = s.k := rfl
@[simp] theorem clearError_n (s : State) :
    (clearError s).n = s.n := rfl
@[simp] theorem clearError_w (s : State) :
    (clearError s).w = s.w := rfl
@[simp] theorem clearError_h (s : State) :
    (clearError s).h = s.h := rfl
@[simp] theorem clearError_blk (s : State) :
    (clearError s).blk = s.blk := rfl
@[simp] theorem clearError_b (s : State) :
    (clearError s).b = s.b := rfl
@[simp] theorem clearError_seed (s : State) :
    (clearError s).seed = s.seed := rfl
@[simp] theorem clearError_sel (s : State) :
    (clearError s).sel = s.sel := rfl
@[simp] theorem clearError_clen (s : State) :
    (clearError s).clen = s.clen := rfl
@[simp] theorem clearError_scseed (s : State) :
    (clearError s).scseed = s.scseed := rfl
@[simp] theorem clearError_scidx (s : State) :
    (clearError s).scidx = s.scidx := rfl
@[simp] theorem clearError_xi (s : State) :
    (clearError s).xi = s.xi := rfl
@[simp] theorem clearError_len (s : State) :
    (clearError s).len = s.len := rfl
@[simp] theorem clearError_sseed (s : State) :
    (clearError s).sseed = s.sseed := rfl
@[simp] theorem clearError_ks (s : State) :
    (clearError s).ks = s.ks := rfl
@[simp] theorem clearError_xv (s : State) :
    (clearError s).xv = s.xv := rfl
@[simp] theorem clearError_yv (s : State) :
    (clearError s).yv = s.yv := rfl
@[simp] theorem clearError_cv (s : State) :
    (clearError s).cv = s.cv := rfl
@[simp] theorem clearError_mat (s : State) :
    (clearError s).mat = s.mat := rfl
@[simp] theorem clearError_mem (s : State) :
    (clearError s).mem = s.mem := rfl
@[simp] theorem clearError_cmds (s : State) :
    (clearError s).cmds = s.cmds := rfl
@[simp] theorem clearError_resps (s : State) :
    (clearError s).resps = s.resps := rfl

/-! ### Soft reset -/

@[simp] theorem softReset_f (s : State) :
    (softReset s).f = Vector.replicate 16 0 := rfl
@[simp] theorem softReset_lmax (s : State) :
    (softReset s).lmax = s.lmax := rfl
@[simp] theorem softReset_cmax (s : State) :
    (softReset s).cmax = s.cmax := rfl
@[simp] theorem softReset_err (s : State) :
    (softReset s).err = 0 := rfl
@[simp] theorem softReset_einfolo (s : State) :
    (softReset s).einfolo = 0 := rfl
@[simp] theorem softReset_einfohi (s : State) :
    (softReset s).einfohi = 0 := rfl
@[simp] theorem softReset_k (s : State) :
    (softReset s).k = 0 := rfl
@[simp] theorem softReset_n (s : State) :
    (softReset s).n = 0 := rfl
@[simp] theorem softReset_w (s : State) :
    (softReset s).w = 0 := rfl
@[simp] theorem softReset_h (s : State) :
    (softReset s).h = 0 := rfl
@[simp] theorem softReset_blk (s : State) :
    (softReset s).blk = 1 := rfl
@[simp] theorem softReset_b (s : State) :
    (softReset s).b = 0 := rfl
@[simp] theorem softReset_seed (s : State) :
    (softReset s).seed = 0 := rfl
@[simp] theorem softReset_sel (s : State) :
    (softReset s).sel = 0 := rfl
@[simp] theorem softReset_clen (s : State) :
    (softReset s).clen = 0 := rfl
@[simp] theorem softReset_scseed (s : State) :
    (softReset s).scseed = 0 := rfl
@[simp] theorem softReset_scidx (s : State) :
    (softReset s).scidx = 0 := rfl
@[simp] theorem softReset_xi (s : State) :
    (softReset s).xi = Vector.replicate 10 0 := rfl
@[simp] theorem softReset_len (s : State) :
    (softReset s).len = Vector.replicate 10 0 := rfl
@[simp] theorem softReset_sseed (s : State) :
    (softReset s).sseed = Vector.replicate 10 0 := rfl
@[simp] theorem softReset_ks (s : State) :
    (softReset s).ks = 0 := rfl
@[simp] theorem softReset_xv (s : State) :
    (softReset s).xv = Vector.replicate 10 0 := rfl
@[simp] theorem softReset_yv (s : State) :
    (softReset s).yv = Vector.replicate 10 0 := rfl
@[simp] theorem softReset_cv (s : State) :
    (softReset s).cv = Vector.replicate 10 0 := rfl
@[simp] theorem softReset_mat (s : State) :
    (softReset s).mat = Vector.replicate 110 0 := rfl
@[simp] theorem softReset_mem (s : State) :
    (softReset s).mem = s.mem := rfl
@[simp] theorem softReset_cmds (s : State) :
    (softReset s).cmds = s.cmds := rfl
@[simp] theorem softReset_resps (s : State) :
    (softReset s).resps = s.resps := rfl

/-! ### Building the table -/

@[simp] theorem buildTable_f (s : State) (L : Nat) :
    (s.buildTable L).f = s.f := rfl
@[simp] theorem buildTable_lmax (s : State) (L : Nat) :
    (s.buildTable L).lmax = s.lmax := rfl
@[simp] theorem buildTable_cmax (s : State) (L : Nat) :
    (s.buildTable L).cmax = s.cmax := rfl
@[simp] theorem buildTable_err (s : State) (L : Nat) :
    (s.buildTable L).err = s.err := rfl
@[simp] theorem buildTable_einfolo (s : State) (L : Nat) :
    (s.buildTable L).einfolo = s.einfolo := rfl
@[simp] theorem buildTable_einfohi (s : State) (L : Nat) :
    (s.buildTable L).einfohi = s.einfohi := rfl
@[simp] theorem buildTable_k (s : State) (L : Nat) :
    (s.buildTable L).k = s.k := rfl
@[simp] theorem buildTable_n (s : State) (L : Nat) :
    (s.buildTable L).n = s.n := rfl
@[simp] theorem buildTable_w (s : State) (L : Nat) :
    (s.buildTable L).w = s.w := rfl
@[simp] theorem buildTable_h (s : State) (L : Nat) :
    (s.buildTable L).h = s.h := rfl
@[simp] theorem buildTable_blk (s : State) (L : Nat) :
    (s.buildTable L).blk = s.blk := rfl
@[simp] theorem buildTable_b (s : State) (L : Nat) :
    (s.buildTable L).b = s.b := rfl
@[simp] theorem buildTable_seed (s : State) (L : Nat) :
    (s.buildTable L).seed = s.seed := rfl
@[simp] theorem buildTable_sel (s : State) (L : Nat) :
    (s.buildTable L).sel = s.sel := rfl
@[simp] theorem buildTable_clen (s : State) (L : Nat) :
    (s.buildTable L).clen = s.clen := rfl
@[simp] theorem buildTable_scseed (s : State) (L : Nat) :
    (s.buildTable L).scseed = s.scseed := rfl
@[simp] theorem buildTable_scidx (s : State) (L : Nat) :
    (s.buildTable L).scidx = s.scidx := rfl
@[simp] theorem buildTable_xi (s : State) (L : Nat) :
    (s.buildTable L).xi = s.xi := rfl
@[simp] theorem buildTable_len (s : State) (L : Nat) :
    (s.buildTable L).len = s.len := rfl
@[simp] theorem buildTable_sseed (s : State) (L : Nat) :
    (s.buildTable L).sseed = s.sseed := rfl
@[simp] theorem buildTable_ks (s : State) (L : Nat) :
    (s.buildTable L).ks = ksAfter L (ksSeed s.seed) := rfl
@[simp] theorem buildTable_xv (s : State) (L : Nat) :
    (s.buildTable L).xv = s.xv := rfl
@[simp] theorem buildTable_yv (s : State) (L : Nat) :
    (s.buildTable L).yv = s.yv := rfl
@[simp] theorem buildTable_cv (s : State) (L : Nat) :
    (s.buildTable L).cv = s.cv := rfl
@[simp] theorem buildTable_mat (s : State) (L : Nat) :
    (s.buildTable L).mat = s.mat := rfl
@[simp] theorem buildTable_mem (s : State) (L : Nat) :
    (s.buildTable L).mem = { s.mem with pm := bufSetList s.mem.pm 0 (ksBytes L (ksSeed s.seed)) } := rfl
@[simp] theorem buildTable_cmds (s : State) (L : Nat) :
    (s.buildTable L).cmds = s.cmds := rfl
@[simp] theorem buildTable_resps (s : State) (L : Nat) :
    (s.buildTable L).resps = s.resps := rfl

/-! ### Replacing a grid -/

@[simp] theorem writeGrid_f (s : State) (g : Grid) (vs : List Byte) :
    (s.writeGrid g vs).f = s.f := by cases g <;> rfl
@[simp] theorem writeGrid_lmax (s : State) (g : Grid) (vs : List Byte) :
    (s.writeGrid g vs).lmax = s.lmax := by cases g <;> rfl
@[simp] theorem writeGrid_cmax (s : State) (g : Grid) (vs : List Byte) :
    (s.writeGrid g vs).cmax = s.cmax := by cases g <;> rfl
@[simp] theorem writeGrid_err (s : State) (g : Grid) (vs : List Byte) :
    (s.writeGrid g vs).err = s.err := by cases g <;> rfl
@[simp] theorem writeGrid_einfolo (s : State) (g : Grid) (vs : List Byte) :
    (s.writeGrid g vs).einfolo = s.einfolo := by cases g <;> rfl
@[simp] theorem writeGrid_einfohi (s : State) (g : Grid) (vs : List Byte) :
    (s.writeGrid g vs).einfohi = s.einfohi := by cases g <;> rfl
@[simp] theorem writeGrid_k (s : State) (g : Grid) (vs : List Byte) :
    (s.writeGrid g vs).k = s.k := by cases g <;> rfl
@[simp] theorem writeGrid_n (s : State) (g : Grid) (vs : List Byte) :
    (s.writeGrid g vs).n = s.n := by cases g <;> rfl
@[simp] theorem writeGrid_w (s : State) (g : Grid) (vs : List Byte) :
    (s.writeGrid g vs).w = s.w := by cases g <;> rfl
@[simp] theorem writeGrid_h (s : State) (g : Grid) (vs : List Byte) :
    (s.writeGrid g vs).h = s.h := by cases g <;> rfl
@[simp] theorem writeGrid_blk (s : State) (g : Grid) (vs : List Byte) :
    (s.writeGrid g vs).blk = s.blk := by cases g <;> rfl
@[simp] theorem writeGrid_b (s : State) (g : Grid) (vs : List Byte) :
    (s.writeGrid g vs).b = s.b := by cases g <;> rfl
@[simp] theorem writeGrid_seed (s : State) (g : Grid) (vs : List Byte) :
    (s.writeGrid g vs).seed = s.seed := by cases g <;> rfl
@[simp] theorem writeGrid_sel (s : State) (g : Grid) (vs : List Byte) :
    (s.writeGrid g vs).sel = s.sel := by cases g <;> rfl
@[simp] theorem writeGrid_clen (s : State) (g : Grid) (vs : List Byte) :
    (s.writeGrid g vs).clen = s.clen := by cases g <;> rfl
@[simp] theorem writeGrid_scseed (s : State) (g : Grid) (vs : List Byte) :
    (s.writeGrid g vs).scseed = s.scseed := by cases g <;> rfl
@[simp] theorem writeGrid_scidx (s : State) (g : Grid) (vs : List Byte) :
    (s.writeGrid g vs).scidx = s.scidx := by cases g <;> rfl
@[simp] theorem writeGrid_xi (s : State) (g : Grid) (vs : List Byte) :
    (s.writeGrid g vs).xi = s.xi := by cases g <;> rfl
@[simp] theorem writeGrid_len (s : State) (g : Grid) (vs : List Byte) :
    (s.writeGrid g vs).len = s.len := by cases g <;> rfl
@[simp] theorem writeGrid_sseed (s : State) (g : Grid) (vs : List Byte) :
    (s.writeGrid g vs).sseed = s.sseed := by cases g <;> rfl
@[simp] theorem writeGrid_ks (s : State) (g : Grid) (vs : List Byte) :
    (s.writeGrid g vs).ks = s.ks := by cases g <;> rfl
@[simp] theorem writeGrid_xv (s : State) (g : Grid) (vs : List Byte) :
    (s.writeGrid g vs).xv = s.xv := by cases g <;> rfl
@[simp] theorem writeGrid_yv (s : State) (g : Grid) (vs : List Byte) :
    (s.writeGrid g vs).yv = s.yv := by cases g <;> rfl
@[simp] theorem writeGrid_cv (s : State) (g : Grid) (vs : List Byte) :
    (s.writeGrid g vs).cv = s.cv := by cases g <;> rfl
@[simp] theorem writeGrid_mat (s : State) (g : Grid) (vs : List Byte) :
    (s.writeGrid g vs).mat = s.mat := by cases g <;> rfl
@[simp] theorem writeGrid_sg_mem (s : State) (vs : List Byte) :
    (s.writeGrid .sg vs).mem = { s.mem with sg := bufSetList s.mem.sg 0 vs } := rfl
@[simp] theorem writeGrid_dg_mem (s : State) (vs : List Byte) :
    (s.writeGrid .dg vs).mem = { s.mem with dg := bufSetList s.mem.dg 0 vs } := rfl
@[simp] theorem writeGrid_cmds (s : State) (g : Grid) (vs : List Byte) :
    (s.writeGrid g vs).cmds = s.cmds := by cases g <;> rfl
@[simp] theorem writeGrid_resps (s : State) (g : Grid) (vs : List Byte) :
    (s.writeGrid g vs).resps = s.resps := by cases g <;> rfl

/-! ### Generating shares -/

@[simp] theorem splitStreams_f (s : State) (c : Nat) :
    (s.splitStreams c).f = s.f := rfl
@[simp] theorem splitStreams_lmax (s : State) (c : Nat) :
    (s.splitStreams c).lmax = s.lmax := rfl
@[simp] theorem splitStreams_cmax (s : State) (c : Nat) :
    (s.splitStreams c).cmax = s.cmax := rfl
@[simp] theorem splitStreams_err (s : State) (c : Nat) :
    (s.splitStreams c).err = s.err := rfl
@[simp] theorem splitStreams_einfolo (s : State) (c : Nat) :
    (s.splitStreams c).einfolo = s.einfolo := rfl
@[simp] theorem splitStreams_einfohi (s : State) (c : Nat) :
    (s.splitStreams c).einfohi = s.einfohi := rfl
@[simp] theorem splitStreams_k (s : State) (c : Nat) :
    (s.splitStreams c).k = s.k := rfl
@[simp] theorem splitStreams_n (s : State) (c : Nat) :
    (s.splitStreams c).n = s.n := rfl
@[simp] theorem splitStreams_w (s : State) (c : Nat) :
    (s.splitStreams c).w = s.w := rfl
@[simp] theorem splitStreams_h (s : State) (c : Nat) :
    (s.splitStreams c).h = s.h := rfl
@[simp] theorem splitStreams_blk (s : State) (c : Nat) :
    (s.splitStreams c).blk = s.blk := rfl
@[simp] theorem splitStreams_b (s : State) (c : Nat) :
    (s.splitStreams c).b = s.b := rfl
@[simp] theorem splitStreams_seed (s : State) (c : Nat) :
    (s.splitStreams c).seed = s.seed := rfl
@[simp] theorem splitStreams_sel (s : State) (c : Nat) :
    (s.splitStreams c).sel = s.sel := rfl
@[simp] theorem splitStreams_clen (s : State) (c : Nat) :
    (s.splitStreams c).clen = s.clen := rfl
@[simp] theorem splitStreams_scseed (s : State) (c : Nat) :
    (s.splitStreams c).scseed = s.scseed := rfl
@[simp] theorem splitStreams_scidx (s : State) (c : Nat) :
    (s.splitStreams c).scidx = s.scidx := rfl
@[simp] theorem splitStreams_xi (s : State) (c : Nat) :
    (s.splitStreams c).xi = Vector.ofFn fun j : Fin 10 => if j.val < s.n.toNat then BitVec.ofNat 16 (j.val + 1) else s.xi[j] := rfl
@[simp] theorem splitStreams_len (s : State) (c : Nat) :
    (s.splitStreams c).len = Vector.ofFn fun j : Fin 10 => if j.val < s.n.toNat then BitVec.ofNat 32 c else s.len[j] := rfl
@[simp] theorem splitStreams_sseed (s : State) (c : Nat) :
    (s.splitStreams c).sseed = Vector.ofFn fun j : Fin 10 => if j.val < s.n.toNat then s.seed else s.sseed[j] := rfl
@[simp] theorem splitStreams_ks (s : State) (c : Nat) :
    (s.splitStreams c).ks = s.ks := rfl
@[simp] theorem splitStreams_xv (s : State) (c : Nat) :
    (s.splitStreams c).xv = s.xv := rfl
@[simp] theorem splitStreams_yv (s : State) (c : Nat) :
    (s.splitStreams c).yv = s.yv := rfl
@[simp] theorem splitStreams_cv (s : State) (c : Nat) :
    (s.splitStreams c).cv = s.cv := rfl
@[simp] theorem splitStreams_mat (s : State) (c : Nat) :
    (s.splitStreams c).mat = s.mat := rfl
@[simp] theorem splitStreams_mem (s : State) (c : Nat) :
    (s.splitStreams c).mem = { s.mem with
      sh := Vector.ofFn fun j : Fin 10 =>
        if j.val < s.n.toNat then bufSetList s.mem.sh[j] 0 (s.shareStream c (j.val + 1)) else s.mem.sh[j] } := rfl
@[simp] theorem splitStreams_cmds (s : State) (c : Nat) :
    (s.splitStreams c).cmds = s.cmds := rfl
@[simp] theorem splitStreams_resps (s : State) (c : Nat) :
    (s.splitStreams c).resps = s.resps := rfl

/-! ### Storing a system and its solution -/

@[simp] theorem storeSystem_f (s : State) (k : Nat) (A : List (List GF)) :
    (s.storeSystem k A).f = s.f := by
  unfold State.storeSystem; rfl
@[simp] theorem storeSystem_lmax (s : State) (k : Nat) (A : List (List GF)) :
    (s.storeSystem k A).lmax = s.lmax := by
  unfold State.storeSystem; rfl
@[simp] theorem storeSystem_cmax (s : State) (k : Nat) (A : List (List GF)) :
    (s.storeSystem k A).cmax = s.cmax := by
  unfold State.storeSystem; rfl
@[simp] theorem storeSystem_err (s : State) (k : Nat) (A : List (List GF)) :
    (s.storeSystem k A).err = s.err := by
  unfold State.storeSystem; rfl
@[simp] theorem storeSystem_einfolo (s : State) (k : Nat) (A : List (List GF)) :
    (s.storeSystem k A).einfolo = s.einfolo := by
  unfold State.storeSystem; rfl
@[simp] theorem storeSystem_einfohi (s : State) (k : Nat) (A : List (List GF)) :
    (s.storeSystem k A).einfohi = s.einfohi := by
  unfold State.storeSystem; rfl
@[simp] theorem storeSystem_k (s : State) (k : Nat) (A : List (List GF)) :
    (s.storeSystem k A).k = s.k := by
  unfold State.storeSystem; rfl
@[simp] theorem storeSystem_n (s : State) (k : Nat) (A : List (List GF)) :
    (s.storeSystem k A).n = s.n := by
  unfold State.storeSystem; rfl
@[simp] theorem storeSystem_w (s : State) (k : Nat) (A : List (List GF)) :
    (s.storeSystem k A).w = s.w := by
  unfold State.storeSystem; rfl
@[simp] theorem storeSystem_h (s : State) (k : Nat) (A : List (List GF)) :
    (s.storeSystem k A).h = s.h := by
  unfold State.storeSystem; rfl
@[simp] theorem storeSystem_blk (s : State) (k : Nat) (A : List (List GF)) :
    (s.storeSystem k A).blk = s.blk := by
  unfold State.storeSystem; rfl
@[simp] theorem storeSystem_b (s : State) (k : Nat) (A : List (List GF)) :
    (s.storeSystem k A).b = s.b := by
  unfold State.storeSystem; rfl
@[simp] theorem storeSystem_seed (s : State) (k : Nat) (A : List (List GF)) :
    (s.storeSystem k A).seed = s.seed := by
  unfold State.storeSystem; rfl
@[simp] theorem storeSystem_sel (s : State) (k : Nat) (A : List (List GF)) :
    (s.storeSystem k A).sel = s.sel := by
  unfold State.storeSystem; rfl
@[simp] theorem storeSystem_clen (s : State) (k : Nat) (A : List (List GF)) :
    (s.storeSystem k A).clen = s.clen := by
  unfold State.storeSystem; rfl
@[simp] theorem storeSystem_scseed (s : State) (k : Nat) (A : List (List GF)) :
    (s.storeSystem k A).scseed = s.scseed := by
  unfold State.storeSystem; rfl
@[simp] theorem storeSystem_scidx (s : State) (k : Nat) (A : List (List GF)) :
    (s.storeSystem k A).scidx = s.scidx := by
  unfold State.storeSystem; rfl
@[simp] theorem storeSystem_xi (s : State) (k : Nat) (A : List (List GF)) :
    (s.storeSystem k A).xi = s.xi := by
  unfold State.storeSystem; rfl
@[simp] theorem storeSystem_len (s : State) (k : Nat) (A : List (List GF)) :
    (s.storeSystem k A).len = s.len := by
  unfold State.storeSystem; rfl
@[simp] theorem storeSystem_sseed (s : State) (k : Nat) (A : List (List GF)) :
    (s.storeSystem k A).sseed = s.sseed := by
  unfold State.storeSystem; rfl
@[simp] theorem storeSystem_ks (s : State) (k : Nat) (A : List (List GF)) :
    (s.storeSystem k A).ks = s.ks := by
  unfold State.storeSystem; rfl
@[simp] theorem storeSystem_xv (s : State) (k : Nat) (A : List (List GF)) :
    (s.storeSystem k A).xv = s.xv := by
  unfold State.storeSystem; rfl
@[simp] theorem storeSystem_yv (s : State) (k : Nat) (A : List (List GF)) :
    (s.storeSystem k A).yv = s.yv := by
  unfold State.storeSystem; rfl
@[simp] theorem storeSystem_cv (s : State) (k : Nat) (A : List (List GF)) :
    (s.storeSystem k A).cv = s.cv := by
  unfold State.storeSystem; rfl
@[simp] theorem storeSystem_mat (s : State) (k : Nat) (A : List (List GF)) :
    (s.storeSystem k A).mat = systemMatrix s.mat k A := by
  unfold State.storeSystem; rfl
@[simp] theorem storeSystem_mem (s : State) (k : Nat) (A : List (List GF)) :
    (s.storeSystem k A).mem = s.mem := by
  unfold State.storeSystem; rfl
@[simp] theorem storeSystem_cmds (s : State) (k : Nat) (A : List (List GF)) :
    (s.storeSystem k A).cmds = s.cmds := by
  unfold State.storeSystem; rfl
@[simp] theorem storeSystem_resps (s : State) (k : Nat) (A : List (List GF)) :
    (s.storeSystem k A).resps = s.resps := by
  unfold State.storeSystem; rfl
@[simp] theorem storeCoeffs_f (s : State) (k : Nat) (c : List GF) :
    (s.storeCoeffs k c).f = s.f := rfl
@[simp] theorem storeCoeffs_lmax (s : State) (k : Nat) (c : List GF) :
    (s.storeCoeffs k c).lmax = s.lmax := rfl
@[simp] theorem storeCoeffs_cmax (s : State) (k : Nat) (c : List GF) :
    (s.storeCoeffs k c).cmax = s.cmax := rfl
@[simp] theorem storeCoeffs_err (s : State) (k : Nat) (c : List GF) :
    (s.storeCoeffs k c).err = s.err := rfl
@[simp] theorem storeCoeffs_einfolo (s : State) (k : Nat) (c : List GF) :
    (s.storeCoeffs k c).einfolo = s.einfolo := rfl
@[simp] theorem storeCoeffs_einfohi (s : State) (k : Nat) (c : List GF) :
    (s.storeCoeffs k c).einfohi = s.einfohi := rfl
@[simp] theorem storeCoeffs_k (s : State) (k : Nat) (c : List GF) :
    (s.storeCoeffs k c).k = s.k := rfl
@[simp] theorem storeCoeffs_n (s : State) (k : Nat) (c : List GF) :
    (s.storeCoeffs k c).n = s.n := rfl
@[simp] theorem storeCoeffs_w (s : State) (k : Nat) (c : List GF) :
    (s.storeCoeffs k c).w = s.w := rfl
@[simp] theorem storeCoeffs_h (s : State) (k : Nat) (c : List GF) :
    (s.storeCoeffs k c).h = s.h := rfl
@[simp] theorem storeCoeffs_blk (s : State) (k : Nat) (c : List GF) :
    (s.storeCoeffs k c).blk = s.blk := rfl
@[simp] theorem storeCoeffs_b (s : State) (k : Nat) (c : List GF) :
    (s.storeCoeffs k c).b = s.b := rfl
@[simp] theorem storeCoeffs_seed (s : State) (k : Nat) (c : List GF) :
    (s.storeCoeffs k c).seed = s.seed := rfl
@[simp] theorem storeCoeffs_sel (s : State) (k : Nat) (c : List GF) :
    (s.storeCoeffs k c).sel = s.sel := rfl
@[simp] theorem storeCoeffs_clen (s : State) (k : Nat) (c : List GF) :
    (s.storeCoeffs k c).clen = s.clen := rfl
@[simp] theorem storeCoeffs_scseed (s : State) (k : Nat) (c : List GF) :
    (s.storeCoeffs k c).scseed = s.scseed := rfl
@[simp] theorem storeCoeffs_scidx (s : State) (k : Nat) (c : List GF) :
    (s.storeCoeffs k c).scidx = s.scidx := rfl
@[simp] theorem storeCoeffs_xi (s : State) (k : Nat) (c : List GF) :
    (s.storeCoeffs k c).xi = s.xi := rfl
@[simp] theorem storeCoeffs_len (s : State) (k : Nat) (c : List GF) :
    (s.storeCoeffs k c).len = s.len := rfl
@[simp] theorem storeCoeffs_sseed (s : State) (k : Nat) (c : List GF) :
    (s.storeCoeffs k c).sseed = s.sseed := rfl
@[simp] theorem storeCoeffs_ks (s : State) (k : Nat) (c : List GF) :
    (s.storeCoeffs k c).ks = s.ks := rfl
@[simp] theorem storeCoeffs_xv (s : State) (k : Nat) (c : List GF) :
    (s.storeCoeffs k c).xv = s.xv := rfl
@[simp] theorem storeCoeffs_yv (s : State) (k : Nat) (c : List GF) :
    (s.storeCoeffs k c).yv = s.yv := rfl
@[simp] theorem storeCoeffs_cv (s : State) (k : Nat) (c : List GF) :
    (s.storeCoeffs k c).cv = coeffVector s.cv k c := rfl
@[simp] theorem storeCoeffs_mat (s : State) (k : Nat) (c : List GF) :
    (s.storeCoeffs k c).mat = s.mat := rfl
@[simp] theorem storeCoeffs_mem (s : State) (k : Nat) (c : List GF) :
    (s.storeCoeffs k c).mem = s.mem := rfl
@[simp] theorem storeCoeffs_cmds (s : State) (k : Nat) (c : List GF) :
    (s.storeCoeffs k c).cmds = s.cmds := rfl
@[simp] theorem storeCoeffs_resps (s : State) (k : Nat) (c : List GF) :
    (s.storeCoeffs k c).resps = s.resps := rfl

/-! ### Taking a fault -/

@[simp] theorem takeFault_f (e : ErrKind) (word : CmdWord) (s : State) :
    (takeFault e word s).f = s.f := by
  unfold takeFault; split <;> rfl
@[simp] theorem takeFault_lmax (e : ErrKind) (word : CmdWord) (s : State) :
    (takeFault e word s).lmax = s.lmax := by
  unfold takeFault; split <;> rfl
@[simp] theorem takeFault_cmax (e : ErrKind) (word : CmdWord) (s : State) :
    (takeFault e word s).cmax = s.cmax := by
  unfold takeFault; split <;> rfl
@[simp] theorem takeFault_err (e : ErrKind) (word : CmdWord) (s : State) :
    (takeFault e word s).err = if s.err = 0 then e.code else s.err := by
  unfold takeFault; split <;> rfl
@[simp] theorem takeFault_einfolo (e : ErrKind) (word : CmdWord) (s : State) :
    (takeFault e word s).einfolo = if s.err = 0 then word.extractLsb' 0 32 else s.einfolo := by
  unfold takeFault; split <;> rfl
@[simp] theorem takeFault_einfohi (e : ErrKind) (word : CmdWord) (s : State) :
    (takeFault e word s).einfohi = if s.err = 0 then word.extractLsb' 32 32 else s.einfohi := by
  unfold takeFault; split <;> rfl
@[simp] theorem takeFault_k (e : ErrKind) (word : CmdWord) (s : State) :
    (takeFault e word s).k = s.k := by
  unfold takeFault; split <;> rfl
@[simp] theorem takeFault_n (e : ErrKind) (word : CmdWord) (s : State) :
    (takeFault e word s).n = s.n := by
  unfold takeFault; split <;> rfl
@[simp] theorem takeFault_w (e : ErrKind) (word : CmdWord) (s : State) :
    (takeFault e word s).w = s.w := by
  unfold takeFault; split <;> rfl
@[simp] theorem takeFault_h (e : ErrKind) (word : CmdWord) (s : State) :
    (takeFault e word s).h = s.h := by
  unfold takeFault; split <;> rfl
@[simp] theorem takeFault_blk (e : ErrKind) (word : CmdWord) (s : State) :
    (takeFault e word s).blk = s.blk := by
  unfold takeFault; split <;> rfl
@[simp] theorem takeFault_b (e : ErrKind) (word : CmdWord) (s : State) :
    (takeFault e word s).b = s.b := by
  unfold takeFault; split <;> rfl
@[simp] theorem takeFault_seed (e : ErrKind) (word : CmdWord) (s : State) :
    (takeFault e word s).seed = s.seed := by
  unfold takeFault; split <;> rfl
@[simp] theorem takeFault_sel (e : ErrKind) (word : CmdWord) (s : State) :
    (takeFault e word s).sel = s.sel := by
  unfold takeFault; split <;> rfl
@[simp] theorem takeFault_clen (e : ErrKind) (word : CmdWord) (s : State) :
    (takeFault e word s).clen = s.clen := by
  unfold takeFault; split <;> rfl
@[simp] theorem takeFault_scseed (e : ErrKind) (word : CmdWord) (s : State) :
    (takeFault e word s).scseed = s.scseed := by
  unfold takeFault; split <;> rfl
@[simp] theorem takeFault_scidx (e : ErrKind) (word : CmdWord) (s : State) :
    (takeFault e word s).scidx = s.scidx := by
  unfold takeFault; split <;> rfl
@[simp] theorem takeFault_xi (e : ErrKind) (word : CmdWord) (s : State) :
    (takeFault e word s).xi = s.xi := by
  unfold takeFault; split <;> rfl
@[simp] theorem takeFault_len (e : ErrKind) (word : CmdWord) (s : State) :
    (takeFault e word s).len = s.len := by
  unfold takeFault; split <;> rfl
@[simp] theorem takeFault_sseed (e : ErrKind) (word : CmdWord) (s : State) :
    (takeFault e word s).sseed = s.sseed := by
  unfold takeFault; split <;> rfl
@[simp] theorem takeFault_ks (e : ErrKind) (word : CmdWord) (s : State) :
    (takeFault e word s).ks = s.ks := by
  unfold takeFault; split <;> rfl
@[simp] theorem takeFault_xv (e : ErrKind) (word : CmdWord) (s : State) :
    (takeFault e word s).xv = s.xv := by
  unfold takeFault; split <;> rfl
@[simp] theorem takeFault_yv (e : ErrKind) (word : CmdWord) (s : State) :
    (takeFault e word s).yv = s.yv := by
  unfold takeFault; split <;> rfl
@[simp] theorem takeFault_cv (e : ErrKind) (word : CmdWord) (s : State) :
    (takeFault e word s).cv = s.cv := by
  unfold takeFault; split <;> rfl
@[simp] theorem takeFault_mat (e : ErrKind) (word : CmdWord) (s : State) :
    (takeFault e word s).mat = s.mat := by
  unfold takeFault; split <;> rfl
@[simp] theorem takeFault_mem (e : ErrKind) (word : CmdWord) (s : State) :
    (takeFault e word s).mem = s.mem := by
  unfold takeFault; split <;> rfl
@[simp] theorem takeFault_cmds (e : ErrKind) (word : CmdWord) (s : State) :
    (takeFault e word s).cmds = s.cmds := by
  unfold takeFault; split <;> rfl
@[simp] theorem takeFault_resps (e : ErrKind) (word : CmdWord) (s : State) :
    (takeFault e word s).resps = ⟨e.code, 0⟩ :: s.resps := by
  unfold takeFault; split <;> rfl

/-! ### Writing a control register -/

@[simp] theorem writeCR_f (s : State) (cr : CReg) (v : BitVec 32) :
    (s.writeCR cr v).f = s.f := by cases cr <;> rfl
@[simp] theorem writeCR_lmax (s : State) (cr : CReg) (v : BitVec 32) :
    (s.writeCR cr v).lmax = s.lmax := by cases cr <;> rfl
@[simp] theorem writeCR_cmax (s : State) (cr : CReg) (v : BitVec 32) :
    (s.writeCR cr v).cmax = s.cmax := by cases cr <;> rfl
@[simp] theorem writeCR_err (s : State) (cr : CReg) (v : BitVec 32) :
    (s.writeCR cr v).err = s.err := by cases cr <;> rfl
@[simp] theorem writeCR_einfolo (s : State) (cr : CReg) (v : BitVec 32) :
    (s.writeCR cr v).einfolo = s.einfolo := by cases cr <;> rfl
@[simp] theorem writeCR_einfohi (s : State) (cr : CReg) (v : BitVec 32) :
    (s.writeCR cr v).einfohi = s.einfohi := by cases cr <;> rfl
@[simp] theorem writeCR_ks (s : State) (cr : CReg) (v : BitVec 32) :
    (s.writeCR cr v).ks = s.ks := by cases cr <;> rfl
@[simp] theorem writeCR_xv (s : State) (cr : CReg) (v : BitVec 32) :
    (s.writeCR cr v).xv = s.xv := by cases cr <;> rfl
@[simp] theorem writeCR_yv (s : State) (cr : CReg) (v : BitVec 32) :
    (s.writeCR cr v).yv = s.yv := by cases cr <;> rfl
@[simp] theorem writeCR_cv (s : State) (cr : CReg) (v : BitVec 32) :
    (s.writeCR cr v).cv = s.cv := by cases cr <;> rfl
@[simp] theorem writeCR_mat (s : State) (cr : CReg) (v : BitVec 32) :
    (s.writeCR cr v).mat = s.mat := by cases cr <;> rfl
@[simp] theorem writeCR_mem (s : State) (cr : CReg) (v : BitVec 32) :
    (s.writeCR cr v).mem = s.mem := by cases cr <;> rfl
@[simp] theorem writeCR_cmds (s : State) (cr : CReg) (v : BitVec 32) :
    (s.writeCR cr v).cmds = s.cmds := by cases cr <;> rfl
@[simp] theorem writeCR_resps (s : State) (cr : CReg) (v : BitVec 32) :
    (s.writeCR cr v).resps = s.resps := by cases cr <;> rfl

/-! ### Storing an element -/

@[simp] theorem setElement_f (s : State) (sp : Space) (j : Fin 10) (a v : Nat) :
    (s.setElement sp j a v).f = s.f := by
  cases sp <;> rfl
@[simp] theorem setElement_lmax (s : State) (sp : Space) (j : Fin 10) (a v : Nat) :
    (s.setElement sp j a v).lmax = s.lmax := by
  cases sp <;> rfl
@[simp] theorem setElement_cmax (s : State) (sp : Space) (j : Fin 10) (a v : Nat) :
    (s.setElement sp j a v).cmax = s.cmax := by
  cases sp <;> rfl
@[simp] theorem setElement_err (s : State) (sp : Space) (j : Fin 10) (a v : Nat) :
    (s.setElement sp j a v).err = s.err := by
  cases sp <;> rfl
@[simp] theorem setElement_einfolo (s : State) (sp : Space) (j : Fin 10) (a v : Nat) :
    (s.setElement sp j a v).einfolo = s.einfolo := by
  cases sp <;> rfl
@[simp] theorem setElement_einfohi (s : State) (sp : Space) (j : Fin 10) (a v : Nat) :
    (s.setElement sp j a v).einfohi = s.einfohi := by
  cases sp <;> rfl
@[simp] theorem setElement_k (s : State) (sp : Space) (j : Fin 10) (a v : Nat) :
    (s.setElement sp j a v).k = s.k := by
  cases sp <;> rfl
@[simp] theorem setElement_n (s : State) (sp : Space) (j : Fin 10) (a v : Nat) :
    (s.setElement sp j a v).n = s.n := by
  cases sp <;> rfl
@[simp] theorem setElement_w (s : State) (sp : Space) (j : Fin 10) (a v : Nat) :
    (s.setElement sp j a v).w = s.w := by
  cases sp <;> rfl
@[simp] theorem setElement_h (s : State) (sp : Space) (j : Fin 10) (a v : Nat) :
    (s.setElement sp j a v).h = s.h := by
  cases sp <;> rfl
@[simp] theorem setElement_blk (s : State) (sp : Space) (j : Fin 10) (a v : Nat) :
    (s.setElement sp j a v).blk = s.blk := by
  cases sp <;> rfl
@[simp] theorem setElement_b (s : State) (sp : Space) (j : Fin 10) (a v : Nat) :
    (s.setElement sp j a v).b = s.b := by
  cases sp <;> rfl
@[simp] theorem setElement_seed (s : State) (sp : Space) (j : Fin 10) (a v : Nat) :
    (s.setElement sp j a v).seed = s.seed := by
  cases sp <;> rfl
@[simp] theorem setElement_sel (s : State) (sp : Space) (j : Fin 10) (a v : Nat) :
    (s.setElement sp j a v).sel = s.sel := by
  cases sp <;> rfl
@[simp] theorem setElement_clen (s : State) (sp : Space) (j : Fin 10) (a v : Nat) :
    (s.setElement sp j a v).clen = s.clen := by
  cases sp <;> rfl
@[simp] theorem setElement_scseed (s : State) (sp : Space) (j : Fin 10) (a v : Nat) :
    (s.setElement sp j a v).scseed = s.scseed := by
  cases sp <;> rfl
@[simp] theorem setElement_scidx (s : State) (sp : Space) (j : Fin 10) (a v : Nat) :
    (s.setElement sp j a v).scidx = s.scidx := by
  cases sp <;> rfl
@[simp] theorem setElement_xi (s : State) (sp : Space) (j : Fin 10) (a v : Nat) :
    (s.setElement sp j a v).xi = s.xi := by
  cases sp <;> rfl
@[simp] theorem setElement_len (s : State) (sp : Space) (j : Fin 10) (a v : Nat) :
    (s.setElement sp j a v).len = s.len := by
  cases sp <;> rfl
@[simp] theorem setElement_sseed (s : State) (sp : Space) (j : Fin 10) (a v : Nat) :
    (s.setElement sp j a v).sseed = s.sseed := by
  cases sp <;> rfl
@[simp] theorem setElement_ks (s : State) (sp : Space) (j : Fin 10) (a v : Nat) :
    (s.setElement sp j a v).ks = s.ks := by
  cases sp <;> rfl
@[simp] theorem setElement_cmds (s : State) (sp : Space) (j : Fin 10) (a v : Nat) :
    (s.setElement sp j a v).cmds = s.cmds := by
  cases sp <;> rfl
@[simp] theorem setElement_resps (s : State) (sp : Space) (j : Fin 10) (a v : Nat) :
    (s.setElement sp j a v).resps = s.resps := by
  cases sp <;> rfl

end Sys2Proof.Machine
end

