-- ==== Sys2Proof/Laws/Buffer.lean ====
section
/-! SUPPORT. Laws of the buffers: what a read gives after a write, that every write keeps the canonical form and
adds no address but the one written, and the same for whole states. -/

namespace Sys2Proof.Machine

variable {α : Type}

/-! ### Reading after writing -/

/-- A write changes the element at its address and no other. -/
theorem bufGet_bufSet (m : Buf α) (a a' : Nat) (v : α) :
    bufGet (bufSet m a v) a' = if a' = a then some v else bufGet m a' := by
  induction m with
  | nil => simp [bufSet, bufGet, eq_comm]
  | cons p rest ih =>
    obtain ⟨b, u⟩ := p
    simp only [bufSet]
    split_ifs with h1 h2 h3 h3 h3 <;> simp_all [bufGet, eq_comm]

/-- Writing a list changes the elements from its first address on, one for each entry, and no other. -/
theorem bufGet_bufSetList (vs : List α) (m : Buf α) (a a' : Nat) :
    bufGet (bufSetList m a vs) a' =
      if a ≤ a' ∧ a' < a + vs.length then vs[a' - a]? else bufGet m a' := by
  induction vs generalizing m a with
  | nil => simp [bufSetList]
  | cons v vs ih =>
    rw [bufSetList, ih, bufGet_bufSet]
    by_cases h : a' = a
    · subst h; simp
    · rcases Nat.lt_or_ge a' (a + 1) with h1 | h1
      · rw [if_neg (by omega), if_neg h, if_neg (by simp; omega)]
      · obtain ⟨d, rfl⟩ : ∃ d, a' = a + 1 + d := ⟨a' - (a + 1), by omega⟩
        simp [h, show a + 1 + d - a = d + 1 by omega, show a ≤ a + 1 + d by omega,
          show (a + 1 + d < a + (vs.length + 1)) ↔ a + 1 + d < a + 1 + vs.length by omega]

/-- Reading, from address 0 on, what a list wrote. -/
theorem bufGet_bufSetList_zero (vs : List α) (m : Buf α) (a : Nat) :
    bufGet (bufSetList m 0 vs) a = if a < vs.length then vs[a]? else bufGet m a := by
  simp [bufGet_bufSetList]

/-! ### The canonical form -/

/-- The first entry of a canonical buffer has the lowest address. -/
theorem sorted_cons (p : Nat × α) (rest : Buf α) :
    Buf.sorted (p :: rest) = true ↔ (∀ q ∈ rest, p.1 < q.1) ∧ Buf.sorted rest = true := by
  obtain ⟨a, v⟩ := p
  simp [Buf.sorted, List.all_eq_true]

/-- Every entry after a write is an entry before it or the one written. -/
theorem mem_bufSet {m : Buf α} {a : Nat} {v : α} {p : Nat × α} (h : p ∈ bufSet m a v) :
    p ∈ m ∨ p = (a, v) := by
  induction m with
  | nil => simpa [bufSet] using h
  | cons q rest ih =>
    obtain ⟨b, u⟩ := q
    simp only [bufSet] at h
    split_ifs at h <;> simp only [List.mem_cons] at h ⊢ <;> tauto

/-- A write keeps the canonical form. -/
theorem sorted_bufSet {m : Buf α} (h : Buf.sorted m = true) (a : Nat) (v : α) :
    Buf.sorted (bufSet m a v) = true := by
  induction m with
  | nil => simp [bufSet, Buf.sorted]
  | cons q rest ih =>
    obtain ⟨b, u⟩ := q
    rw [sorted_cons] at h
    simp only [bufSet]
    split_ifs with h1 h2
    · rw [sorted_cons, sorted_cons]
      refine ⟨fun q hq => ?_, h⟩
      rcases List.mem_cons.1 hq with rfl | hq
      · exact h1
      · exact lt_trans h1 (h.1 q hq)
    · subst h2
      exact (sorted_cons _ _).2 h
    · refine (sorted_cons _ _).2 ⟨fun q hq => ?_, ih h.2⟩
      rcases mem_bufSet hq with hq | rfl
      · exact h.1 q hq
      · simp only; omega

/-- Every address after writing a list is an address before it or one of those written. -/
theorem mem_bufSetList {vs : List α} {m : Buf α} {a : Nat} {p : Nat × α} (h : p ∈ bufSetList m a vs) :
    p ∈ m ∨ (a ≤ p.1 ∧ p.1 < a + vs.length) := by
  induction vs generalizing m a with
  | nil => exact .inl h
  | cons v vs ih =>
    rcases ih h with h | h
    · rcases mem_bufSet h with h | rfl
      · exact .inl h
      · right; simp
    · right; simp only [List.length_cons]; omega

/-- Writing a list keeps the canonical form. -/
theorem sorted_bufSetList {m : Buf α} (h : Buf.sorted m = true) (a : Nat) (vs : List α) :
    Buf.sorted (bufSetList m a vs) = true := by
  induction vs generalizing m a with
  | nil => exact h
  | cons v vs ih => exact ih (sorted_bufSet h a v) _

/-- The canonical form of the memory, buffer by buffer. -/
theorem memory_wf_iff (m : Memory) :
    m.wf = true ↔ Buf.sorted m.sg = true ∧ Buf.sorted m.dg = true ∧ Buf.sorted m.pm = true ∧
      Buf.sorted m.cg = true ∧ ∀ j : Fin 10, Buf.sorted m.sh[j] = true := by
  have h : (m.sh.toList.all fun b => Buf.sorted b) = true ↔ ∀ j : Fin 10, Buf.sorted m.sh[j] = true := by
    rw [List.all_eq_true]
    constructor
    · intro h j
      exact h _ (by simp)
    · intro h b hb
      obtain ⟨i, hi, rfl⟩ := List.getElem_of_mem hb
      simpa using h ⟨i, by simpa using hi⟩
  simp only [Memory.wf, Bool.and_eq_true, h, and_assoc]

/-- The memory of a unit after hard reset is in its canonical form. -/
theorem memory_wf_unwritten : Memory.unwritten.wf = true := by decide

/-- So is the memory of the machine's reset state. -/
theorem memory_wf_reset : State.reset.mem.wf = true := memory_wf_unwritten

/-- Storing an element keeps the canonical form. -/
theorem memory_wf_setElement {s : State} (h : s.mem.wf = true) (sp : Space) (j : Fin 10) (a v : Nat) :
    (s.setElement sp j a v).mem.wf = true := by
  rw [memory_wf_iff] at h ⊢
  obtain ⟨h1, h2, h3, h4, h5⟩ := h
  cases sp <;> refine ⟨?_, ?_, ?_, ?_, fun i => ?_⟩ <;>
    first
    | assumption
    | exact h5 i
    | exact sorted_bufSet ‹_› _ _
    | skip
  simp only [State.setElement, Fin.getElem_fin, Vector.getElem_set]
  split
  · exact sorted_bufSet (h5 j) _ _
  · exact h5 i

/-- Building the table keeps the canonical form. -/
theorem memory_wf_buildTable {s : State} (h : s.mem.wf = true) (L : Nat) : (s.buildTable L).mem.wf = true := by
  rw [memory_wf_iff] at h ⊢
  obtain ⟨h1, h2, h3, h4, h5⟩ := h
  exact ⟨h1, h2, sorted_bufSetList h3 _ _, h4, h5⟩

/-- Replacing a grid keeps the canonical form. -/
theorem memory_wf_writeGrid {s : State} (h : s.mem.wf = true) (g : Grid) (vs : List Byte) :
    (s.writeGrid g vs).mem.wf = true := by
  rw [memory_wf_iff] at h ⊢
  obtain ⟨h1, h2, h3, h4, h5⟩ := h
  cases g
  · exact ⟨sorted_bufSetList h1 _ _, h2, h3, h4, h5⟩
  · exact ⟨h1, sorted_bufSetList h2 _ _, h3, h4, h5⟩

/-- Masking a grid keeps the canonical form. -/
theorem memory_wf_xorGrid {s : State} (h : s.mem.wf = true) (d g : Grid) (L : Nat) :
    (s.xorGrid d g L).mem.wf = true := memory_wf_writeGrid h d _

/-- Generating shares keeps the canonical form. -/
theorem memory_wf_splitStreams {s : State} (h : s.mem.wf = true) (count : Nat) :
    (s.splitStreams count).mem.wf = true := by
  rw [memory_wf_iff] at h ⊢
  obtain ⟨h1, h2, h3, h4, h5⟩ := h
  refine ⟨h1, h2, h3, h4, fun j => ?_⟩
  simp only [splitStreams_mem, Fin.getElem_fin, Vector.getElem_ofFn]
  split
  · exact sorted_bufSetList (h5 j) _ _
  · exact h5 j

/-- Replacing the bytes of the carrier keeps the canonical form. -/
theorem memory_wf_carrier {m : Memory} (h : m.wf = true) (a : Nat) (vs : List Byte) :
    ({ m with cg := bufSetList m.cg a vs } : Memory).wf = true := by
  rw [memory_wf_iff] at h ⊢
  obtain ⟨h1, h2, h3, h4, h5⟩ := h
  exact ⟨h1, h2, h3, sorted_bufSetList h4 _ _, h5⟩

/-- Replacing the elements of one share slot keeps the canonical form. -/
theorem memory_wf_slot {m : Memory} (h : m.wf = true) (j : Fin 10) (a : Nat) (vs : List GF) :
    ({ m with sh := m.sh.set j.val (bufSetList m.sh[j] a vs) } : Memory).wf = true := by
  rw [memory_wf_iff] at h ⊢
  obtain ⟨h1, h2, h3, h4, h5⟩ := h
  refine ⟨h1, h2, h3, h4, fun i => ?_⟩
  simp only [Fin.getElem_fin, Vector.getElem_set]
  split
  · exact sorted_bufSetList (h5 j) _ _
  · exact h5 i

end Sys2Proof.Machine
end

