-- ==== Sys2Proof/Laws/Ops.lean ====
section
/-! SUPPORT. Everything each shared operation can do, said once: ending a command, the checks, the element
accesses, and what the elements of the memory read as after each update. -/

namespace Sys2Proof.Machine

/-! ### Ending a command -/

@[simp] theorem complete_ok (i : Instr) (s t : State) (d : BitVec 32) :
    complete i s (.ok (t, d)) = .next (t.respond 0 d) := rfl

@[simp] theorem complete_error (i : Instr) (s : State) (e : ErrKind) :
    complete i s (.error e) = .next (takeFault e (encode i) s) := rfl

@[simp] theorem completeQuiet_ok (i : Instr) (s t : State) : completeQuiet i s (.ok t) = .next (t.respond 0 0) := rfl

@[simp] theorem completeQuiet_error (i : Instr) (s : State) (e : ErrKind) :
    completeQuiet i s (.error e) = .next (takeFault e (encode i) s) := rfl

/-- A command ends with its result committed and status 0, or with its fault taken in the state before it. -/
theorem complete_cases {i : Instr} {s t : State} {r : Except ErrKind (State × BitVec 32)}
    (h : complete i s r = .next t) :
    (∃ u d, r = .ok (u, d) ∧ t = u.respond 0 d) ∨ ∃ e, r = .error e ∧ t = takeFault e (encode i) s := by
  rcases r with e | ⟨u, d⟩
  · exact .inr ⟨e, rfl, by cases h; rfl⟩
  · exact .inl ⟨u, d, rfl, by cases h; rfl⟩

/-- The same for a command that answers no data. -/
theorem completeQuiet_cases {i : Instr} {s t : State} {r : Except ErrKind State} (h : completeQuiet i s r = .next t) :
    (∃ u, r = .ok u ∧ t = u.respond 0 0) ∨ ∃ e, r = .error e ∧ t = takeFault e (encode i) s := by
  rcases r with e | u
  · exact .inr ⟨e, rfl, by cases h; rfl⟩
  · exact .inl ⟨u, rfl, by cases h; rfl⟩

/-- Taking a fault, as one update: the first one is recorded, each one is in its response. -/
theorem takeFault_eq (e : ErrKind) (w : CmdWord) (s : State) :
    takeFault e w s = { s with
      err := if s.err = 0 then e.code else s.err
      einfolo := if s.err = 0 then w.extractLsb' 0 32 else s.einfolo
      einfohi := if s.err = 0 then w.extractLsb' 32 32 else s.einfohi
      resps := ⟨e.code, 0⟩ :: s.resps } := by
  unfold takeFault
  split <;> rfl

/-- A fault's code is one of the table's. -/
theorem code_mem_raisedCodes (e : ErrKind) : e.code ∈ raisedCodes := by cases e <;> decide

/-- No fault has code 0. -/
theorem code_ne_zero (e : ErrKind) : e.code ≠ 0 := by cases e <;> decide

/-- The two recorded halves of a faulting word are the word. -/
theorem word_halves (w : CmdWord) : w.extractLsb' 32 32 ++ w.extractLsb' 0 32 = w := by
  apply BitVec.eq_of_getLsbD_eq
  intro i hi
  simp only [BitVec.getLsbD_append, BitVec.getLsbD_extractLsb']
  by_cases h : i < 32
  · simp [h]
  · simp [h, show i - 32 < 32 by omega, show 32 + (i - 32) = i by omega]

/-! ### The parameter checks -/

/-- The threshold check passes with `K`. -/
theorem threshold_of_legal {s : State} (h : s.ThresholdLegal) : s.threshold = .ok s.k.toNat := by
  rw [State.threshold, if_neg (by have := h.1; have := h.2; omega)]

/-- The threshold check fails. -/
theorem threshold_of_not_legal {s : State} (h : ¬ s.ThresholdLegal) : s.threshold = .error .invalidParameters := by
  rw [State.threshold, if_pos (by rw [State.ThresholdLegal] at h; omega)]

/-- The grid check passes with `W · H`. -/
theorem gridLength_of_legal {s : State} (h : s.GridLegal) : s.gridLength = .ok s.gridCells := by
  obtain ⟨h1, h2, h3⟩ := h
  rw [State.gridLength, if_neg (by rintro (h | h | h) <;> simp only [State.gridCells] at * <;> omega)]

/-- The grid check fails. -/
theorem gridLength_of_not_legal {s : State} (h : ¬ s.GridLegal) : s.gridLength = .error .invalidParameters := by
  rw [State.gridLength, if_pos]
  by_contra hc
  push Not at hc
  exact h ⟨by omega, by omega, hc.2.2⟩

/-- The mode check passes with `L div BLK`. -/
theorem blockCount_of_legal {s : State} (h : s.BlockLegal) : s.blockCount s.gridCells = .ok s.streamLength := by
  obtain ⟨h1, h2⟩ := h
  rw [State.blockCount, if_neg, if_neg (by simpa using h2)]
  rintro ⟨h3, h4⟩
  rcases h1 with h1 | h1
  · exact h3 h1
  · exact h4 (BitVec.eq_of_toNat_eq h1)

/-- The mode check fails. -/
theorem blockCount_of_not_legal {s : State} (h : ¬ s.BlockLegal) :
    s.blockCount s.gridCells = .error .invalidParameters := by
  rw [State.blockCount]
  split_ifs with h1 h2
  · rfl
  · rfl
  · refine absurd ⟨?_, by omega⟩ h
    by_contra hc
    push Not at hc
    exact h1 ⟨hc.1, fun he => hc.2 (by rw [he])⟩

/-- `check_grid()` passes with the grid length and the stream length. -/
theorem checkGrid_of_legal {s : State} (h : s.ReconGridLegal) : s.checkGrid = .ok (s.gridCells, s.streamLength) := by
  simp only [State.checkGrid, threshold_of_legal h.1, gridLength_of_legal h.2.1, blockCount_of_legal h.2.2]

/-- `check_grid()` fails. -/
theorem checkGrid_of_not_legal {s : State} (h : ¬ s.ReconGridLegal) : s.checkGrid = .error .invalidParameters := by
  by_cases h1 : s.ThresholdLegal
  · by_cases h2 : s.GridLegal
    · have h3 : ¬ s.BlockLegal := fun h3 => h ⟨h1, h2, h3⟩
      simp only [State.checkGrid, threshold_of_legal h1, gridLength_of_legal h2, blockCount_of_not_legal h3]
    · simp only [State.checkGrid, threshold_of_legal h1, gridLength_of_not_legal h2]
  · simp only [State.checkGrid, threshold_of_not_legal h1]

/-- `check_split()` passes with the grid length and the stream length. -/
theorem checkSplit_of_legal {s : State} (h : s.SplitLegal) : s.checkSplit = .ok (s.gridCells, s.streamLength) := by
  obtain ⟨h1, h2, h3, h4, h5⟩ := h
  have h1' := h1
  obtain ⟨h1a, h1b⟩ := h1'
  rw [State.checkSplit, if_neg (by omega), if_neg (by omega), if_neg (by omega), checkGrid_of_legal ⟨h1, h4, h5⟩]

/-- `check_split()` fails. -/
theorem checkSplit_of_not_legal {s : State} (h : ¬ s.SplitLegal) : s.checkSplit = .error .invalidParameters := by
  rw [State.checkSplit]
  split_ifs with h1 h2 h3
  · rfl
  · rfl
  · rfl
  · exact checkGrid_of_not_legal fun hg => h ⟨hg.1, by omega, by omega, hg.2.1, hg.2.2⟩

/-- The slots in the list of selected slots. -/
theorem mem_selected {s : State} {j : Fin 10} : j ∈ s.selected ↔ s.Selects j := by
  simp [State.selected]

/-- The list of selected slots has no repeats. -/
theorem nodup_selected (s : State) : s.selected.Nodup := (List.nodup_finRange 10).filter _

/-- The indexes of the selected slots repeat only where two slots share one. -/
theorem nodup_indexes {s : State} : (s.selected.map fun j => s.xi[j]).Nodup ↔ s.IndexesDistinct := by
  rw [List.nodup_map_iff_inj_on (nodup_selected s)]
  simp only [mem_selected, State.IndexesDistinct]
  exact ⟨fun h i j hi hj => h i hi j hj, fun h i hi j hj => h i j hi hj⟩

/-- `recon_checks()` passes with the selected slots, their indexes and the two lengths. -/
theorem reconChecks_of_legal {s : State} (h : s.ReconLegal) :
    s.reconChecks =
      .ok ⟨s.selected, s.selected.map (fun j => Fin.ofNat 257 s.xi[j].toNat), s.gridCells, s.streamLength⟩ := by
  obtain ⟨h1, h2, h3, h4, h5⟩ := h
  have h2' : s.selected.length = s.k.toNat := h2
  have hr : s.selected.any (fun j => decide (s.xi[j].toNat = 0 ∨ 10 < s.xi[j].toNat)) = false := by
    rw [List.any_eq_false]
    intro j hj
    have := h3 j (mem_selected.1 hj)
    simp only [decide_eq_true_eq]; omega
  have hl : s.selected.any (fun j => decide (s.len[j].toNat ≠ s.streamLength)) = false := by
    rw [List.any_eq_false]
    intro j hj
    simpa using h5 j (mem_selected.1 hj)
  simp only [State.reconChecks, checkGrid_of_legal h1, h2', hr, hl, nodup_indexes.2 h4]
  simp

/-- `recon_checks()` fails at its first failing check. -/
theorem reconChecks_error {s : State} :
    (¬ s.ReconGridLegal → s.reconChecks = .error .invalidParameters) ∧
    (s.ReconGridLegal → s.selectedCount < s.k.toNat → s.reconChecks = .error .insufficientShares) ∧
    (s.ReconGridLegal → s.k.toNat < s.selectedCount → s.reconChecks = .error .invalidParameters) ∧
    (s.ReconGridLegal → s.selectedCount = s.k.toNat → ¬ s.IndexesInRange →
      s.reconChecks = .error .invalidParameters) ∧
    (s.ReconGridLegal → s.selectedCount = s.k.toNat → s.IndexesInRange → ¬ s.IndexesDistinct →
      s.reconChecks = .error .duplicateIndex) ∧
    (s.ReconGridLegal → s.selectedCount = s.k.toNat → s.IndexesInRange → s.IndexesDistinct → ¬ s.LengthsMatch →
      s.reconChecks = .error .mismatchedLength) := by
  have hr : s.IndexesInRange →
      s.selected.any (fun j => decide (s.xi[j].toNat = 0 ∨ 10 < s.xi[j].toNat)) = false := by
    intro h3
    rw [List.any_eq_false]
    intro j hj
    have := h3 j (mem_selected.1 hj)
    simp only [decide_eq_true_eq]; omega
  refine ⟨fun h => ?_, fun h1 h2 => ?_, fun h1 h2 => ?_, fun h1 h2 h3 => ?_, fun h1 h2 h3 h4 => ?_,
    fun h1 h2 h3 h4 h5 => ?_⟩
  · simp only [State.reconChecks, checkGrid_of_not_legal h]
  · have h2' : s.selected.length < s.k.toNat := h2
    simp only [State.reconChecks, checkGrid_of_legal h1, if_pos h2']
  · have h2' : s.k.toNat < s.selected.length := h2
    simp only [State.reconChecks, checkGrid_of_legal h1, if_neg (Nat.lt_asymm h2'), if_pos h2']
  · have h2' : s.selected.length = s.k.toNat := h2
    have hr' : s.selected.any (fun j => decide (s.xi[j].toNat = 0 ∨ 10 < s.xi[j].toNat)) = true := by
      rw [List.any_eq_true]
      by_contra hc
      refine h3 fun j hj => ?_
      by_contra hx
      exact hc ⟨j, mem_selected.2 hj, by simp only [decide_eq_true_eq]; omega⟩
    simp only [State.reconChecks, checkGrid_of_legal h1, h2', hr']
    simp
  · have h2' : s.selected.length = s.k.toNat := h2
    simp only [State.reconChecks, checkGrid_of_legal h1, h2', hr h3, nodup_indexes, h4]
    simp
  · have h2' : s.selected.length = s.k.toNat := h2
    have hl : s.selected.any (fun j => decide (s.len[j].toNat ≠ s.streamLength)) = true := by
      rw [List.any_eq_true]
      by_contra hc
      refine h5 fun j hj => ?_
      by_contra hx
      exact hc ⟨j, mem_selected.2 hj, by simpa using hx⟩
    simp only [State.reconChecks, checkGrid_of_legal h1, h2', hr h3, nodup_indexes.2 h4, hl]
    simp

/-- A slot field above 9 names no slot. -/
theorem slotOf?_eq_none {slot : Fin 16} (h : 9 < slot.val) : slotOf? slot = none := by
  rw [slotOf?, dif_neg (by omega)]

@[simp] theorem slotOf?_slotField (j : Fin 10) : slotOf? (slotField j) = some j := by
  rw [slotOf?, dif_pos (show (slotField j).val < 10 from j.2)]; rfl

/-- The codec's checks pass with the slot and the width. -/
theorem codecChecks_of_legal {s : State} {j : Fin 10} (h : s.WidthLegal) (h' : s.FitsCarrier j) :
    s.codecChecks (slotField j) = .ok (j, s.b.toNat) := by
  have hw : s.embedWidth = .ok s.b.toNat := by rw [State.embedWidth, if_pos h]
  have hp : ¬ s.clen.toNat < s.len[j].toNat * perShare s.b.toNat := Nat.not_lt.2 h'
  simp only [State.codecChecks, slotOf?_slotField, hw, if_neg hp]

/-- The codec's checks fail at the first failing one. -/
theorem codecChecks_error {s : State} :
    (∀ slot : Fin 16, 9 < slot.val → s.codecChecks slot = .error .illegal) ∧
    ∀ j : Fin 10, (¬ s.WidthLegal → s.codecChecks (slotField j) = .error .invalidParameters) ∧
      (s.WidthLegal → ¬ s.FitsCarrier j → s.codecChecks (slotField j) = .error .capacity) := by
  refine ⟨fun slot h => ?_, fun j => ⟨fun h => ?_, fun h h' => ?_⟩⟩
  · simp only [State.codecChecks, slotOf?_eq_none h]
  · have hw : s.embedWidth = .error .invalidParameters := by rw [State.embedWidth, if_neg h]
    simp only [State.codecChecks, slotOf?_slotField, hw]
  · have hw : s.embedWidth = .ok s.b.toNat := by rw [State.embedWidth, if_pos h]
    have hp : s.clen.toNat < s.len[j].toNat * perShare s.b.toNat := Nat.lt_of_not_le h'
    simp only [State.codecChecks, slotOf?_slotField, hw, if_pos hp]

/-! ### What a check that passed says -/

/-- A passed threshold check. -/
theorem threshold_ok {s : State} {k : Nat} (h : s.threshold = .ok k) : s.ThresholdLegal ∧ k = s.k.toNat := by
  by_cases hl : s.ThresholdLegal
  · rw [threshold_of_legal hl] at h; cases h; exact ⟨hl, rfl⟩
  · rw [threshold_of_not_legal hl] at h; cases h

/-- A passed grid check. -/
theorem gridLength_ok {s : State} {L : Nat} (h : s.gridLength = .ok L) : s.GridLegal ∧ L = s.gridCells := by
  by_cases hl : s.GridLegal
  · rw [gridLength_of_legal hl] at h; cases h; exact ⟨hl, rfl⟩
  · rw [gridLength_of_not_legal hl] at h; cases h

/-- A passed `check_split()`. -/
theorem checkSplit_ok {s : State} {p : Nat × Nat} (h : s.checkSplit = .ok p) :
    s.SplitLegal ∧ p = (s.gridCells, s.streamLength) := by
  by_cases hl : s.SplitLegal
  · rw [checkSplit_of_legal hl] at h; cases h; exact ⟨hl, rfl⟩
  · rw [checkSplit_of_not_legal hl] at h; cases h

/-- A passed `recon_checks()`. -/
theorem reconChecks_ok {s : State} {r : ReconInput} (h : s.reconChecks = .ok r) :
    s.ReconLegal ∧
      r = ⟨s.selected, s.selected.map (fun j => Fin.ofNat 257 s.xi[j].toNat), s.gridCells, s.streamLength⟩ := by
  obtain ⟨e1, e2, e3, e4, e5, e6⟩ := reconChecks_error (s := s)
  have hl : s.ReconLegal := by
    have h1 : s.ReconGridLegal := by by_contra hc; rw [e1 hc] at h; cases h
    have h2 : s.selectedCount = s.k.toNat := by
      by_contra hc
      rcases Nat.lt_or_gt_of_ne hc with hc | hc
      · rw [e2 h1 hc] at h; cases h
      · rw [e3 h1 hc] at h; cases h
    have h3 : s.IndexesInRange := by by_contra hc; rw [e4 h1 h2 hc] at h; cases h
    have h4 : s.IndexesDistinct := by by_contra hc; rw [e5 h1 h2 h3 hc] at h; cases h
    have h5 : s.LengthsMatch := by by_contra hc; rw [e6 h1 h2 h3 h4 hc] at h; cases h
    exact ⟨h1, h2, h3, h4, h5⟩
  rw [reconChecks_of_legal hl] at h
  cases h
  exact ⟨hl, rfl⟩

/-- Passed codec checks. -/
theorem codecChecks_ok {s : State} {slot : Fin 16} {p : Fin 10 × Nat} (h : s.codecChecks slot = .ok p) :
    slot = slotField p.1 ∧ s.WidthLegal ∧ s.FitsCarrier p.1 ∧ p.2 = s.b.toNat := by
  have h9 : slot.val < 10 := by
    by_contra hc; rw [codecChecks_error.1 slot (by omega)] at h; cases h
  have hs : slot = slotField ⟨slot.val, h9⟩ := rfl
  rw [hs] at h
  obtain ⟨e1, e2⟩ := (codecChecks_error (s := s)).2 ⟨slot.val, h9⟩
  have h1 : s.WidthLegal := by by_contra hc; rw [e1 hc] at h; cases h
  have h2 : s.FitsCarrier ⟨slot.val, h9⟩ := by by_contra hc; rw [e2 h1 hc] at h; cases h
  rw [codecChecks_of_legal h1 h2] at h
  cases h
  exact ⟨hs, h1, h2, rfl⟩

/-! ### Element accesses -/

/-- The slot an access uses. -/
theorem accessSlot_of_legal {sp : Space} {j : Fin 10} (h : sp ≠ .sh → j = 0) :
    accessSlot sp (slotField j) = .ok j := by
  have hs : sp.slotLegal (slotField j) = true := by
    by_cases hsp : sp = .sh
    · subst hsp
      exact decide_eq_true (show j.val ≤ 9 by have := j.2; omega)
    · rw [h hsp]
      cases sp <;> first | exact absurd rfl hsp | rfl
  rw [accessSlot, if_pos hs]
  simp

/-- An illegal slot. -/
theorem accessSlot_of_not_legal {sp : Space} {slot : Fin 16} (h : ¬ sp.slotLegal slot = true) :
    accessSlot sp slot = .error .illegal := by
  rw [accessSlot, if_neg h]

/-- A legal slot is the field of a slot, which is 0 for every space but `SH`. -/
theorem eq_slotField_of_legal {sp : Space} {slot : Fin 16} (h : sp.slotLegal slot = true) :
    ∃ j : Fin 10, slot = slotField j ∧ (sp ≠ .sh → j = 0) := by
  by_cases hsp : sp = .sh
  · subst hsp
    have h9 : slot.val ≤ 9 := by simpa [Space.slotLegal] using h
    exact ⟨⟨slot.val, by omega⟩, rfl, fun hc => absurd rfl hc⟩
  · have h0 : slot = 0 := by
      cases sp <;> first | exact absurd rfl hsp | (simp only [Space.slotLegal, decide_eq_true_eq] at h; exact Fin.ext h)
    exact ⟨0, by rw [h0]; rfl, fun _ => rfl⟩

/-- `MemWrite` of a legal element. -/
theorem memWrite_of_legal {s : State} {sp : Space} {j : Fin 10} {a v : Nat} (h : sp ≠ .tg) (hj : sp ≠ .sh → j = 0)
    (ha : a < s.spaceSize sp) (hv : v ≤ elementMax sp) :
    s.memWrite sp (slotField j) a v = .ok (s.setElement sp j a v) := by
  simp only [State.memWrite, if_neg h, accessSlot_of_legal hj]
  rw [if_neg (by omega), if_neg (by omega)]

/-- What a successful `MemWrite` did. -/
theorem memWrite_ok {s t : State} {sp : Space} {slot : Fin 16} {a v : Nat} (h : s.memWrite sp slot a v = .ok t) :
    ∃ j : Fin 10, sp ≠ .tg ∧ a < s.spaceSize sp ∧ v ≤ elementMax sp ∧ t = s.setElement sp j a v := by
  unfold State.memWrite at h
  split at h
  · cases h
  · split at h
    · cases h
    · rename_i j _
      split at h
      · cases h
      · split at h
        · cases h
        · cases h
          exact ⟨j, ‹_›, by omega, by omega, rfl⟩

/-- `MemRead` of a legal element of a space other than `TG`. -/
theorem memRead_of_legal {s : State} {sp : Space} {j : Fin 10} {a : Nat} (h : sp ≠ .tg) (hj : sp ≠ .sh → j = 0)
    (ha : a < s.spaceSize sp) : s.memRead sp (slotField j) a = .ok (s.element sp j a) := by
  simp only [State.memRead, accessSlot_of_legal hj, if_neg h]
  rw [if_neg (by omega)]

/-- `MemRead` of a legal element of `TG`. -/
theorem memRead_tg_of_legal {s : State} {j : Fin 10} {a : Nat} (hj : j = 0) (ha : a < s.lmax) (hg : s.GridLegal) :
    s.memRead .tg (slotField j) a = .ok ((s.mem.pmAt a).toNat % s.gridCells) := by
  have ha' : ¬ s.spaceSize .tg ≤ a := by simpa [State.spaceSize] using ha
  simp only [State.memRead, accessSlot_of_legal (sp := .tg) (j := j) fun _ => hj, if_neg ha', gridLength_of_legal hg,
    if_pos]

/-! ### No operation looks at the responses -/

theorem respond_buildTable (s : State) (st : BitVec 8) (d : BitVec 32) (L : Nat) :
    (s.respond st d).buildTable L = (s.buildTable L).respond st d := rfl

theorem respond_writeGrid (s : State) (st : BitVec 8) (d : BitVec 32) (g : Grid) (vs : List Byte) :
    (s.respond st d).writeGrid g vs = (s.writeGrid g vs).respond st d := by cases g <;> rfl

theorem respond_maskedGrid (s : State) (st : BitVec 8) (d : BitVec 32) (g : Grid) (L : Nat) :
    (s.respond st d).maskedGrid g L = s.maskedGrid g L := rfl

theorem respond_xorGrid (s : State) (st : BitVec 8) (d : BitVec 32) (dst g : Grid) (L : Nat) :
    (s.respond st d).xorGrid dst g L = (s.xorGrid dst g L).respond st d := by
  rw [State.xorGrid, State.xorGrid, respond_maskedGrid, respond_writeGrid]

theorem respond_splitStreams (s : State) (st : BitVec 8) (d : BitVec 32) (count : Nat) :
    (s.respond st d).splitStreams count = (s.splitStreams count).respond st d := rfl

/-- Replacing the list of responses after a response. -/
theorem respond_with_resps (s : State) (st : BitVec 8) (d : BitVec 32) (rs : List Response) :
    { s.respond st d with resps := rs } = { s with resps := rs } := rfl

/-! ### Elements after each update -/

/-- A grid after its first elements are replaced. -/
theorem gridAt_writeGrid (s : State) (g : Grid) (vs : List Byte) (p : Nat) :
    (s.writeGrid g vs).mem.gridAt g p = (vs[p]?).getD (s.mem.gridAt g p) := by
  cases g <;> simp only [Memory.gridAt, Memory.sgAt, Memory.dgAt, writeGrid_sg_mem, writeGrid_dg_mem,
      bufGet_bufSetList_zero] <;> split <;> rename_i h <;> simp_all

/-- `SG` after its first elements are replaced. -/
theorem sgAt_writeGrid (s : State) (vs : List Byte) (p : Nat) :
    (s.writeGrid .sg vs).mem.sgAt p = (vs[p]?).getD (s.mem.sgAt p) := gridAt_writeGrid s .sg vs p

/-- `DG` after its first elements are replaced. -/
theorem dgAt_writeGrid (s : State) (vs : List Byte) (p : Nat) :
    (s.writeGrid .dg vs).mem.dgAt p = (vs[p]?).getD (s.mem.dgAt p) := gridAt_writeGrid s .dg vs p

@[simp] theorem sgAt_writeGrid_dg (s : State) (vs : List Byte) (p : Nat) :
    (s.writeGrid .dg vs).mem.sgAt p = s.mem.sgAt p := rfl

@[simp] theorem dgAt_writeGrid_sg (s : State) (vs : List Byte) (p : Nat) :
    (s.writeGrid .sg vs).mem.dgAt p = s.mem.dgAt p := rfl

@[simp] theorem pmAt_writeGrid (s : State) (g : Grid) (vs : List Byte) (p : Nat) :
    (s.writeGrid g vs).mem.pmAt p = s.mem.pmAt p := by cases g <;> rfl

@[simp] theorem shAt_writeGrid (s : State) (g : Grid) (vs : List Byte) (j : Fin 10) (p : Nat) :
    (s.writeGrid g vs).mem.shAt j p = s.mem.shAt j p := by cases g <;> rfl

@[simp] theorem cgAt_writeGrid (s : State) (g : Grid) (vs : List Byte) (p : Nat) :
    (s.writeGrid g vs).mem.cgAt p = s.mem.cgAt p := by cases g <;> rfl

@[simp] theorem length_maskedGrid (s : State) (g : Grid) (L : Nat) : (s.maskedGrid g L).length = L := by
  simp [State.maskedGrid]

/-- The destination grid after masking. -/
theorem gridAt_xorGrid (s : State) (d g : Grid) (L p : Nat) :
    (s.xorGrid d g L).mem.gridAt d p = if p < L then s.mem.gridAt g p ^^^ s.mem.pmAt p else s.mem.gridAt d p := by
  rw [State.xorGrid, gridAt_writeGrid, State.maskedGrid]
  by_cases h : p < L <;> simp [h]

/-- The table after it is built. -/
theorem pmAt_buildTable (s : State) (L p : Nat) :
    (s.buildTable L).mem.pmAt p = ((ksBytes L (ksSeed s.seed))[p]?).getD (s.mem.pmAt p) := by
  simp only [Memory.pmAt, buildTable_mem, bufGet_bufSetList_zero]
  split <;> rename_i h <;> simp_all

@[simp] theorem gridAt_buildTable (s : State) (L : Nat) (g : Grid) (p : Nat) :
    (s.buildTable L).mem.gridAt g p = s.mem.gridAt g p := by cases g <;> rfl

@[simp] theorem length_shareStream (s : State) (count x : Nat) : (s.shareStream count x).length = count := by
  simp [State.shareStream]

/-- A share slot after shares are generated. -/
theorem shAt_splitStreams (s : State) (count : Nat) (j : Fin 10) (q : Nat) :
    (s.splitStreams count).mem.shAt j q =
      if j.val < s.n.toNat ∧ q < count then horner (s.shareCoeffs q) (Fin.ofNat 257 (j.val + 1))
      else s.mem.shAt j q := by
  simp only [Memory.shAt, splitStreams_mem, Fin.getElem_fin, Vector.getElem_ofFn]
  by_cases hj : j.val < s.n.toNat
  · rw [if_pos hj, bufGet_bufSetList_zero, length_shareStream]
    by_cases hq : q < count
    · simp [hj, hq, State.shareStream]
    · simp [hq]
  · simp [hj]

/-- Every stored element after one is stored. -/
theorem element_setElement (s : State) (sp sp' : Space) (j j' : Fin 10) (a a' v : Nat) (h : sp ≠ .tg)
    (h' : sp' ≠ .tg) (ha : a < s.spaceSize sp) (hv : v ≤ elementMax sp) :
    (s.setElement sp j a v).element sp' j' a' =
      if sp' = sp ∧ a' = a ∧ (sp = .sh → j' = j) then v else s.element sp' j' a' := by
  cases sp <;> cases sp' <;> first | exact absurd rfl h | exact absurd rfl h' | skip
  all_goals
    simp only [elementMax, State.spaceSize] at hv ha
    simp only [State.element, State.setElement, Memory.sgAt, Memory.dgAt, Memory.pmAt, Memory.cgAt, Memory.shAt,
      vecAt, bufGet_bufSet, Vector.getElem?_setIfInBounds, Fin.getElem_fin, Vector.getElem_set, reduceCtorEq,
      false_and, if_false, true_and, forall_const, false_implies, and_true, Fin.ext_iff]
  case sg.sg | dg.dg | pm.pm | cg.cg =>
    split
    · simp [BitVec.toNat_ofNat]; omega
    · rfl
  case sh.sh =>
    by_cases hj : j.val = j'.val
    · by_cases ha : a' = a
      · simp [hj, ha, bufGet_bufSet, Fin.ofNat]; omega
      · simp [hj, ha, bufGet_bufSet]
    · simp [hj, Ne.symm hj]
  case xv.xv | yv.yv | cv.cv | mat.mat =>
    by_cases haa : a = a'
    · subst haa; simp [ha, Fin.ofNat]; omega
    · simp [haa, Ne.symm haa]

end Sys2Proof.Machine
end

