-- ==== Sys2Proof/Laws/Codec.lean ====
section
/-! SUPPORT. Laws of the codec: groups and carrier bytes as numbers, that extracting undoes embedding, and what the
bytes an `EMBED` writes and an `EXTRACT` reads are. -/

namespace Sys2Proof.Machine

/-! ### Groups as numbers -/

/-- The group mask of a width up to 8. -/
theorem toNat_groupMask {B : Nat} (h : B ≤ 8) : (groupMask B).toNat = 2 ^ B - 1 := by
  have : 2 ^ B ≤ 2 ^ 8 := Nat.pow_le_pow_right (by omega) h
  have h2 := Nat.two_pow_pos B
  simp only [groupMask, BitVec.toNat_ofNat]
  rw [Nat.mod_eq_of_lt (by omega)]

/-- Masking keeps the low `B` bits. -/
theorem toNat_and_groupMask {B : Nat} (h : B ≤ 8) (v : Byte) : (v &&& groupMask B).toNat = v.toNat % 2 ^ B := by
  rw [BitVec.toNat_and, toNat_groupMask h, Nat.and_two_pow_sub_one_eq_mod]

/-- A group of a share byte. -/
theorem toNat_shareGroup {B : Nat} (h : B ≤ 8) (v : Byte) (m : Nat) :
    (shareGroup B v m).toNat = v.toNat / 2 ^ (8 - B * (m + 1)) % 2 ^ B := by
  rw [shareGroup, toNat_and_groupMask h, BitVec.toNat_ushiftRight, Nat.shiftRight_eq_div_pow]

/-- The group of a carrier byte. -/
theorem toNat_extractGroup {B : Nat} (h : B ≤ 8) (cb : Byte) : (extractGroup B cb).toNat = cb.toNat % 2 ^ B :=
  toNat_and_groupMask h cb

/-- A carrier byte with its low `B` bits cleared. -/
theorem toNat_clear_group {B : Nat} (h : B ≤ 8) (cb : Byte) :
    (cb &&& ~~~(groupMask B)).toNat = 2 ^ B * (cb.toNat / 2 ^ B) := by
  have h0 : (cb &&& ~~~(groupMask B)) &&& (cb &&& groupMask B) = 0#8 := by
    apply BitVec.eq_of_getLsbD_eq; intro i hi; simp; tauto
  have h1 : (cb &&& ~~~(groupMask B)).toNat + (cb &&& groupMask B).toNat = cb.toNat := by
    rw [← BitVec.toNat_add_of_and_eq_zero h0, BitVec.add_eq_or_of_and_eq_zero _ _ h0]
    congr 1
    apply BitVec.eq_of_getLsbD_eq
    intro i hi
    simp only [BitVec.getLsbD_or, BitVec.getLsbD_and, BitVec.getLsbD_not, hi, decide_true, Bool.true_and]
    cases cb.getLsbD i <;> cases (groupMask B).getLsbD i <;> rfl
  rw [toNat_and_groupMask h] at h1
  have := Nat.div_add_mod cb.toNat (2 ^ B)
  omega

/-- A carrier byte with a group embedded. -/
theorem toNat_embedByte {B : Nat} (h : B ≤ 8) (cb g : Byte) (hg : g.toNat < 2 ^ B) :
    (embedByte B cb g).toNat = cb.toNat / 2 ^ B * 2 ^ B + g.toNat := by
  rw [embedByte, BitVec.toNat_or, toNat_clear_group h, ← Nat.two_pow_add_eq_or_of_lt hg, Nat.mul_comm]

/-- Extracting a group just embedded. -/
theorem extractGroup_embedByte {B : Nat} (h : B ≤ 8) (cb v : Byte) (m : Nat) :
    extractGroup B (embedByte B cb (shareGroup B v m)) = shareGroup B v m := by
  have hg : (shareGroup B v m).toNat < 2 ^ B := by
    rw [toNat_shareGroup h]; exact Nat.mod_lt _ (Nat.two_pow_pos B)
  apply BitVec.eq_of_toNat_eq
  rw [toNat_extractGroup h, toNat_embedByte h cb _ hg, Nat.mul_comm, Nat.mul_add_mod, Nat.mod_eq_of_lt hg]

/-- The byte assembled from `n` groups, as a sum. -/
theorem toNat_assembleByte {B : Nat} (f : Nat → Byte) (hf : ∀ m, (f m).toNat < 2 ^ B) (n : Nat) (h : B * n ≤ 8) :
    (assembleByte B ((List.range n).map f)).toNat = ∑ m ∈ Finset.range n, (f m).toNat * 2 ^ (B * (n - 1 - m)) ∧
      (assembleByte B ((List.range n).map f)).toNat < 2 ^ (B * n) := by
  induction n with
  | zero => simp [assembleByte]
  | succ n ih =>
    obtain ⟨ih1, ih2⟩ := ih (by rw [Nat.mul_add] at h; omega)
    have hs : assembleByte B ((List.range (n + 1)).map f) =
        (assembleByte B ((List.range n).map f) <<< B) ||| f n := by
      rw [List.range_succ, List.map_append, assembleByte, List.foldl_append]; rfl
    set v := assembleByte B ((List.range n).map f) with hv
    have hp : v.toNat * 2 ^ B < 2 ^ (B * (n + 1)) := by
      rw [Nat.mul_add, Nat.mul_one, pow_add]
      exact Nat.mul_lt_mul_of_pos_right ih2 (Nat.two_pow_pos B)
    have h8 : 2 ^ (B * (n + 1)) ≤ 2 ^ 8 := Nat.pow_le_pow_right (by omega) h
    have hval : ((v <<< B) ||| f n).toNat = v.toNat * 2 ^ B + (f n).toNat := by
      rw [BitVec.toNat_or, BitVec.toNat_shiftLeft, Nat.shiftLeft_eq, Nat.mod_eq_of_lt (by omega),
        Nat.mul_comm, ← Nat.two_pow_add_eq_or_of_lt (hf n)]
    rw [hs, hval]
    constructor
    · rw [Finset.sum_range_succ, ih1, Finset.sum_mul]
      congr 1
      · refine Finset.sum_congr rfl fun m hm => ?_
        have := Finset.mem_range.1 hm
        rw [mul_assoc, ← pow_add]
        congr 2
        rw [show n + 1 - 1 - m = (n - 1 - m) + 1 by omega, Nat.mul_add, Nat.mul_one]
      · simp
    · have : v.toNat + 1 ≤ 2 ^ (B * n) := ih2
      have h2 := Nat.mul_le_mul_right (2 ^ B) this
      rw [← pow_add, show B * n + B = B * (n + 1) by ring] at h2
      have := hf n
      nlinarith

/-- The groups of a share byte assemble to it, at each of the three widths. -/
theorem assembleByte_shareGroup {B : Nat} (h : B = 1 ∨ B = 2 ∨ B = 8) (v : Byte) :
    assembleByte B ((List.range (perShare B)).map (shareGroup B v)) = v := by
  rcases h with rfl | rfl | rfl <;> revert v <;> decide

/-! ### The commands' bytes -/

/-- The widths are at most 8 and divide it. -/
theorem width_mul_perShare {B : Nat} (h : B = 1 ∨ B = 2 ∨ B = 8) : B ≤ 8 ∧ 0 < perShare B ∧ B * perShare B = 8 := by
  rcases h with rfl | rfl | rfl <;> decide

/-- The stream of a slot as bytes, where every element is one. -/
theorem shareBytes_ok {s : State} {j : Fin 10} {n : Nat} (h : ∀ i < n, (s.mem.shAt j i).val ≤ 255) :
    s.shareBytes j n = .ok ((List.range n).map fun i => BitVec.ofNat 8 (s.mem.shAt j i).val) :=
  collectE_ok fun i hi => gfToSample_ok (h i (List.mem_range.1 hi))

/-- An element of 256 is no byte. -/
theorem shareBytes_error {s : State} {j : Fin 10} {n : Nat} (h : ∃ i < n, (s.mem.shAt j i).val = 256) :
    s.shareBytes j n = .error .operand := by
  obtain ⟨i, hi, hv⟩ := h
  refine collectE_error ⟨i, List.mem_range.2 hi, gfToSample_error (by omega)⟩ fun a _ e he => ?_
  rw [gfToSample] at he
  split at he <;> cases he
  rfl

/-- A stream that is read as bytes has no element of 256. -/
theorem shareBytes_elim {s : State} {j : Fin 10} {n : Nat} {vs : List Byte} (h : s.shareBytes j n = .ok vs) :
    (∀ i < n, (s.mem.shAt j i).val ≤ 255) ∧ vs = (List.range n).map fun i => BitVec.ofNat 8 (s.mem.shAt j i).val := by
  have hle : ∀ i < n, (s.mem.shAt j i).val ≤ 255 := by
    intro i hi
    by_contra hc
    have := (s.mem.shAt j i).2
    rw [shareBytes_error ⟨i, hi, by omega⟩] at h
    cases h
  refine ⟨hle, ?_⟩
  rw [shareBytes_ok hle] at h
  cases h; rfl

@[simp] theorem length_embeddedBytes (s : State) (B : Nat) (vs : List Byte) :
    (s.embeddedBytes B vs).length = vs.length * perShare B := by simp [State.embeddedBytes]

/-- The byte that takes group `m` of share byte `i`. -/
theorem getElem?_embeddedBytes (s : State) {B : Nat} (vs : List Byte) {i m : Nat} (hi : i < vs.length)
    (hm : m < perShare B) :
    (s.embeddedBytes B vs)[i * perShare B + m]? =
      some (embedByte B (s.mem.cgAt (i * perShare B + m)) (shareGroup B (vs.getD i 0) m)) := by
  have h1 : (i * perShare B + m) / perShare B = i := by
    rw [Nat.mul_comm, Nat.mul_add_div (by omega), Nat.div_eq_of_lt hm, Nat.add_zero]
  have h2 : (i * perShare B + m) % perShare B = m := by
    rw [Nat.mul_comm, Nat.mul_add_mod, Nat.mod_eq_of_lt hm]
  have h3 : i * perShare B + m < vs.length * perShare B := by nlinarith
  simp [State.embeddedBytes, h1, h2, h3]

/-- The carrier after its first bytes are replaced. -/
theorem cgAt_bufSetList (m : Memory) (vs : List Byte) (a : Nat) :
    ({ m with cg := bufSetList m.cg 0 vs } : Memory).cgAt a = (vs[a]?).getD (m.cgAt a) := by
  simp only [Memory.cgAt, bufGet_bufSetList_zero]
  split <;> rename_i h <;> simp_all

/-- A share slot after the first elements of one are replaced. -/
theorem shAt_bufSetList (m : Memory) (j j' : Fin 10) (vs : List GF) (a : Nat) :
    ({ m with sh := m.sh.set j.val (bufSetList m.sh[j] 0 vs) } : Memory).shAt j' a =
      if j' = j then (vs[a]?).getD (m.shAt j a) else m.shAt j' a := by
  by_cases h : j' = j
  · subst h
    simp only [Memory.shAt, Fin.getElem_fin, Vector.getElem_set_self, bufGet_bufSetList_zero, if_pos]
    split <;> rename_i h <;> simp_all
  · have hv : j.val ≠ j'.val := fun hc => h (Fin.ext hc.symm)
    simp [Memory.shAt, hv, h]

/-- Share byte `i` as the carrier holds it, as a sum. -/
theorem toNat_extractedByte (s : State) {B : Nat} (h : B = 1 ∨ B = 2 ∨ B = 8) (i : Nat) :
    (s.extractedByte B i).toNat =
      ∑ m ∈ Finset.range (8 / B), (s.mem.cgAt (i * (8 / B) + m)).toNat % 2 ^ B * 2 ^ (8 - B * (m + 1)) := by
  obtain ⟨h1, h2, h3⟩ := width_mul_perShare h
  rw [State.extractedByte, (toNat_assembleByte (B := B)
    (fun t => extractGroup B (s.mem.cgAt (i * perShare B + t)))
    (fun m => by rw [toNat_extractGroup h1]; exact Nat.mod_lt _ (Nat.two_pow_pos B)) _ (by omega)).1]
  refine Finset.sum_congr rfl fun m hm => ?_
  have hm := Finset.mem_range.1 hm
  rw [toNat_extractGroup h1]
  change _ * _ = _
  congr 2
  rw [← h3, show perShare B - 1 - m = perShare B - (m + 1) by omega, Nat.mul_sub]

end Sys2Proof.Machine
end

