-- ==== Sys2Proof/Laws/Elimination.lean ====
section
/-! SUPPORT. Laws of elimination and interpolation over `ZMod 257`: what `gaussJordan` does to a system and when it
fails, what `interpolate` answers at distinct points, and that `lagrange0` is the constant term. -/

namespace Sys2Proof.Machine

/-- A `k × (k+1)` augmented matrix. -/
def Shaped (k : Nat) (A : List (List GF)) : Prop := A.length = k ∧ ∀ row ∈ A, row.length = k + 1

/-- The vectors over all `k + 1` columns that every row sends to 0. -/
def NullVec (k : Nat) (A : List (List GF)) (x : Nat → ZMod 257) : Prop :=
  ∀ i < k, ∑ c ∈ Finset.range (k + 1), gfClass (entry A i c) * x c = 0

/-- Columns `0 .. n−1` are those of the identity. -/
def UnitCols (k n : Nat) (A : List (List GF)) : Prop :=
  ∀ i < k, ∀ j < n, entry A i j = if i = j then 1 else 0

/-! ### Entries after each operation -/

/-- An entry of a list of rows inside its bounds. -/
theorem entry_eq {A : List (List GF)} {r : Nat} (h : r < A.length) (c : Nat) : entry A r c = A[r].getD c 0 := by
  simp [entry, h]

/-- The rows after an exchange. -/
theorem entry_swapRows {A : List (List GF)} {i j : Nat} (hi : i < A.length) (hj : j < A.length) (r c : Nat) :
    entry (swapRows A i j) r c = if r = j then entry A i c else if r = i then entry A j c else entry A r c := by
  simp only [entry, swapRows, List.getD_eq_getElem?_getD, List.getElem?_set, List.length_set]
  by_cases h1 : r = j
  · subst h1; simp [hj]
  · by_cases h2 : r = i
    · subst h2; simp [h1, Ne.symm h1, hi]
    · simp [h1, h2, Ne.symm h1, Ne.symm h2]

/-- An exchange keeps the shape. -/
theorem shaped_swapRows {k : Nat} {A : List (List GF)} (h : Shaped k A) {i j : Nat} (hi : i < k) (hj : j < k) :
    Shaped k (swapRows A i j) := by
  have hi' : i < A.length := by rw [h.1]; exact hi
  have hj' : j < A.length := by rw [h.1]; exact hj
  refine ⟨by simp [swapRows, h.1], fun row hrow => ?_⟩
  rcases List.mem_or_eq_of_mem_set hrow with hrow | rfl
  · rcases List.mem_or_eq_of_mem_set hrow with hrow | rfl
    · exact h.2 _ hrow
    · exact h.2 _ (by simp [List.getD_eq_getElem?_getD, hj'])
  · exact h.2 _ (by simp [List.getD_eq_getElem?_getD, hi'])

/-- An entry of a row after a column is cleared. -/
theorem getD_eliminateRow {col c : Nat} {pivot row : List GF} (h1 : c < row.length) (h2 : c < pivot.length) :
    (eliminateRow col pivot row).getD c 0 = fsub (row.getD c 0) (fmul (row.getD col 0) (pivot.getD c 0)) := by
  simp [eliminateRow, List.getD_eq_getElem?_getD, h1, h2]

/-- The value of a scaled entry, or of one below or above the pivot, after a column is cleared. -/
theorem gaussColumn_ok {k : Nat} {A B : List (List GF)} (hA : Shaped k A) {col : Nat} (hcol : col < k)
    (h : gaussColumn k A col = .ok B) :
    ∃ (piv : Nat) (inv : GF), piv < k ∧ col ≤ piv ∧ gfClass (entry A piv col) * gfClass inv = 1 ∧ Shaped k B ∧
      ∀ r < k, ∀ c ≤ k,
        gfClass (entry B r c) =
          if r = col then gfClass inv * gfClass (entry A piv c)
          else gfClass (entry (swapRows A piv col) r c) -
            gfClass (entry (swapRows A piv col) r col) * (gfClass inv * gfClass (entry A piv c)) := by
  unfold gaussColumn at h
  split at h
  · cases h
  rename_i piv hpiv
  have hp := List.find?_some hpiv
  have hpk : piv < k := List.mem_range.1 (List.mem_of_find?_eq_some hpiv)
  simp only [Bool.and_eq_true, decide_eq_true_eq] at hp
  have hpl : piv < A.length := by rw [hA.1]; exact hpk
  have hcl : col < A.length := by rw [hA.1]; exact hcol
  have hS := shaped_swapRows hA hpk hcol
  set A1 := swapRows A piv col with hA1
  have hcc : ∀ c, entry A1 col c = entry A piv c := fun c => by rw [hA1, entry_swapRows hpl hcl, if_pos rfl]
  simp only at h
  split at h
  · cases h
  rename_i inv hinv
  cases h
  have hlen : ∀ r, (hr : r < k) → (A1[r]'(by rw [hS.1]; exact hr)).length = k + 1 := fun r hr =>
    hS.2 _ (List.getElem_mem _)
  have hcol1 : col < A1.length := by rw [hS.1]; exact hcol
  have hget : A1.getD col [] = A1[col] := by simp [hcol1]
  have hplen : ((A1.getD col []).map (fmul inv)).length = k + 1 := by
    rw [hget, List.length_map, hlen col hcol]
  have hP : ∀ c, c ≤ k → ((A1.getD col []).map (fmul inv)).getD c 0 = fmul inv (entry A piv c) := by
    intro c hc
    have hcb : c < A1[col].length := by rw [hlen col hcol]; omega
    rw [← hcc, entry_eq hcol1, hget]
    simp [hcb]
  refine ⟨piv, inv, hpk, hp.1, by rw [← hcc]; exact gfClass_finv hinv, ⟨by simp [hS.1], ?_⟩, ?_⟩
  · intro row hrow
    obtain ⟨r, hr, rfl⟩ := List.getElem_of_mem hrow
    simp only [List.length_mapIdx] at hr
    rw [List.getElem_mapIdx]
    split
    · exact hplen
    · rw [eliminateRow, List.length_zipWith, hplen, hS.2 _ (List.getElem_mem _), Nat.min_self]
  · intro r hr c hc
    have hr1 : r < A1.length := by rw [hS.1]; exact hr
    rw [entry_eq (by rw [List.length_mapIdx]; exact hr1), List.getElem_mapIdx]
    by_cases hrc : r = col
    · rw [if_pos hrc, if_pos hrc, hP c hc, gfClass_fmul]
    · rw [if_neg hrc, if_neg hrc]
      have h1 : c < A1[r].length := by rw [hlen r hr]; omega
      have h2 : c < ((A1.getD col []).map (fmul inv)).length := by rw [hplen]; omega
      rw [getD_eliminateRow h1 h2, hP c hc, gfClass_fsub, gfClass_fmul, gfClass_fmul, entry_eq hr1, entry_eq hr1]

/-- A column fails only for want of a pivot, and reports `SingularSystem`. -/
theorem gaussColumn_error {k : Nat} {A : List (List GF)} (hA : Shaped k A) {col : Nat} (hcol : col < k)
    {e : ErrKind} (h : gaussColumn k A col = .error e) :
    e = .singularSystem ∧ ∀ r < k, col ≤ r → entry A r col = 0 := by
  unfold gaussColumn at h
  split at h
  · rename_i hn
    cases h
    refine ⟨rfl, fun r hr hcr => ?_⟩
    rw [pivotRow?, List.find?_eq_none] at hn
    have := hn r (List.mem_range.2 hr)
    simpa [hcr] using this
  · rename_i piv hpiv
    exfalso
    have hp := List.find?_some hpiv
    have hpk : piv < k := List.mem_range.1 (List.mem_of_find?_eq_some hpiv)
    simp only [Bool.and_eq_true, decide_eq_true_eq] at hp
    have hne : entry (swapRows A piv col) col col ≠ 0 := by
      rw [entry_swapRows (by rw [hA.1]; exact hpk) (by rw [hA.1]; exact hcol), if_pos rfl]
      exact hp.2
    obtain ⟨x, hx⟩ := finv_some hne
    simp [hx] at h

/-- A cleared column leaves the vectors that every row sends to 0, and one more column of the identity. -/
theorem gaussColumn_step {k : Nat} {A B : List (List GF)} (hA : Shaped k A) {col : Nat} (hcol : col < k)
    (hU : UnitCols k col A) (h : gaussColumn k A col = .ok B) :
    Shaped k B ∧ UnitCols k (col + 1) B ∧ ∀ x, NullVec k A x ↔ NullVec k B x := by
  obtain ⟨piv, inv, hpk, hcp, hinv, hB, hent⟩ := gaussColumn_ok hA hcol h
  have hpl : piv < A.length := by rw [hA.1]; exact hpk
  have hcl : col < A.length := by rw [hA.1]; exact hcol
  have hsw := entry_swapRows hpl hcl
  refine ⟨hB, ?_, ?_⟩
  · intro i hi j hj
    rw [← gfClass_injective, hent i hi j (by omega)]
    rcases Nat.lt_succ_iff_lt_or_eq.1 hj with hj | rfl
    · have hp0 : entry A piv j = 0 := by rw [hU piv hpk j hj, if_neg (by omega)]
      by_cases hic : i = col
      · rw [if_pos hic, hp0, if_neg (by omega)]; simp
      · rw [if_neg hic, hp0, hsw, if_neg hic]
        by_cases hip : i = piv
        · rw [if_pos hip, hU col hcol j hj, if_neg (by omega), if_neg (by omega)]; simp
        · rw [if_neg hip, hU i hi j hj]; simp
    · by_cases hic : i = j
      · rw [if_pos hic, if_pos hic, mul_comm, hinv]; simp
      · rw [if_neg hic, if_neg hic, mul_comm (gfClass inv), hinv]; simp
  · intro x
    set SA : Nat → ZMod 257 := fun i => ∑ c ∈ Finset.range (k + 1), gfClass (entry A i c) * x c with hSA
    set SS : Nat → ZMod 257 := fun i => ∑ c ∈ Finset.range (k + 1), gfClass (entry (swapRows A piv col) i c) * x c
      with hSS
    have hSB : ∀ i < k, ∑ c ∈ Finset.range (k + 1), gfClass (entry B i c) * x c =
        if i = col then gfClass inv * SA piv
        else SS i - gfClass (entry (swapRows A piv col) i col) * (gfClass inv * SA piv) := by
      intro i hi
      rw [Finset.sum_congr rfl fun c hc => by rw [hent i hi c (by have := Finset.mem_range.1 hc; omega)]]
      by_cases hic : i = col
      · simp only [if_pos hic, hSA, Finset.mul_sum, mul_assoc]
      · simp only [if_neg hic, hSA, hSS, Finset.mul_sum, ← Finset.sum_sub_distrib]
        exact Finset.sum_congr rfl fun c _ => by ring
    have hSSv : ∀ i, SS i = if i = col then SA piv else if i = piv then SA col else SA i := by
      intro i
      simp only [hSS, hSA, hsw]
      split_ifs <;> rfl
    constructor
    · intro hx i hi
      have hz : ∀ i < k, SA i = 0 := hx
      rw [hSB i hi, hz piv hpk]
      have : SS i = 0 := by rw [hSSv]; split_ifs <;> apply hz <;> assumption
      split_ifs <;> simp [this]
    · intro hx
      have hz : ∀ i < k, (if i = col then gfClass inv * SA piv
          else SS i - gfClass (entry (swapRows A piv col) i col) * (gfClass inv * SA piv)) = 0 :=
        fun i hi => (hSB i hi).symm.trans (hx i hi)
      have hpiv : gfClass inv * SA piv = 0 := by have := hz col hcol; rwa [if_pos rfl] at this
      have hSApiv : SA piv = 0 := by
        calc SA piv = gfClass (entry A piv col) * gfClass inv * SA piv := by rw [hinv, one_mul]
          _ = 0 := by rw [mul_assoc, hpiv, mul_zero]
      have hSSz : ∀ i < k, i ≠ col → SS i = 0 := fun i hi hic => by
        have := hz i hi; rw [if_neg hic, hpiv, mul_zero, sub_zero] at this; exact this
      intro i hi
      show SA i = 0
      by_cases hip : i = piv
      · rw [hip]; exact hSApiv
      by_cases hic : i = col
      · have := hSSz piv hpk (by omega)
        rw [hSSv, if_neg (by omega), if_pos rfl] at this
        rw [hic]; exact this
      · have := hSSz i hi hic
        rwa [hSSv, if_neg hic, if_neg hip] at this

/-- Everything the first `n` columns of the elimination can do. -/
theorem gauss_prefix {k : Nat} {A : List (List GF)} (hA : Shaped k A) (n : Nat) (hn : n ≤ k) :
    (∃ B, foldE (gaussColumn k) A (List.range n) = .ok B ∧ Shaped k B ∧ UnitCols k n B ∧
      ∀ x, NullVec k A x ↔ NullVec k B x) ∨
    (foldE (gaussColumn k) A (List.range n) = .error .singularSystem ∧
      ∃ x : Nat → ZMod 257, NullVec k A x ∧ x k = 0 ∧ ∃ m < k, x m ≠ 0) := by
  induction n with
  | zero =>
    left
    exact ⟨A, rfl, hA, fun i _ j hj => absurd hj (Nat.not_lt_zero j), fun x => Iff.rfl⟩
  | succ n ih =>
    rw [List.range_succ, foldE_append]
    rcases ih (by omega) with ⟨B, hB, hBs, hBu, hBn⟩ | ⟨he, hx⟩
    · rw [hB]
      simp only [foldE]
      cases hc : gaussColumn k B n with
      | ok C =>
        left
        obtain ⟨h1, h2, h3⟩ := gaussColumn_step hBs (by omega) hBu hc
        exact ⟨C, rfl, h1, h2, fun x => (hBn x).trans (h3 x)⟩
      | error e =>
        right
        obtain ⟨rfl, hz⟩ := gaussColumn_error hBs (by omega) hc
        refine ⟨rfl, fun j => if j < n then - gfClass (entry B j n) else if j = n then 1 else 0, ?_, ?_, n, by omega, ?_⟩
        · rw [hBn]
          intro i hi
          have hsplit : ∀ c ∈ Finset.range (k + 1),
              gfClass (entry B i c) * (if c < n then - gfClass (entry B c n) else if c = n then 1 else 0) =
                (if c = i then (if i < n then - gfClass (entry B i n) else 0) else 0) +
                  if c = n then gfClass (entry B i n) else 0 := by
            intro c _
            by_cases hcn : c < n
            · rw [hBu i hi c hcn, if_pos hcn, if_neg (show ¬ c = n by omega)]
              by_cases hic : i = c
              · subst hic; simp [hcn]
              · simp [hic, Ne.symm hic]
            · by_cases hce : c = n
              · subst hce
                by_cases hci : c = i
                · subst hci; simp
                · simp [hci]
              · by_cases hci : c = i
                · subst hci; simp [hcn, hce]
                · simp [hcn, hce, hci]
          rw [Finset.sum_congr rfl hsplit, Finset.sum_add_distrib, Finset.sum_ite_eq', Finset.sum_ite_eq',
            if_pos (Finset.mem_range.2 (by omega)), if_pos (Finset.mem_range.2 (by omega))]
          by_cases hin : i < n
          · simp [hin]
          · rw [if_neg hin, hz i hi (by omega)]; simp
        · simp only [if_neg (show ¬ k < n by omega), if_neg (show ¬ k = n by omega)]
        · simp only [lt_irrefl, if_false, if_true]
          decide
    · right
      rw [he]
      exact ⟨rfl, hx⟩

/-! ### The elimination as a whole -/

/-- Either the elimination answers a matrix whose `k × k` block is the identity and whose rows vanish on the same
vectors, or it reports `SingularSystem` and some vector that is not zero is sent to 0. -/
theorem gaussJordan_cases {k : Nat} {A : List (List GF)} (hA : Shaped k A) :
    (∃ B, gaussJordan k A = .ok B ∧ Shaped k B ∧ UnitCols k k B ∧ ∀ x, NullVec k A x ↔ NullVec k B x) ∨
    (gaussJordan k A = .error .singularSystem ∧
      ∃ x : Nat → ZMod 257, NullVec k A x ∧ x k = 0 ∧ ∃ m < k, x m ≠ 0) :=
  gauss_prefix hA k le_rfl

/-- The sum of a row whose block is the identity. -/
theorem sum_unitCols {k : Nat} {B : List (List GF)} (hB : UnitCols k k B) (x : Nat → ZMod 257) {i : Nat} (hi : i < k) :
    ∑ c ∈ Finset.range (k + 1), gfClass (entry B i c) * x c = x i + gfClass (entry B i k) * x k := by
  rw [Finset.sum_range_succ]
  congr 1
  rw [Finset.sum_eq_single i]
  · rw [hB i hi i hi, if_pos rfl]; simp
  · intro c hc hci
    rw [hB i hi c (Finset.mem_range.1 hc), if_neg (Ne.symm hci)]; simp
  · intro hc; exact absurd (Finset.mem_range.2 hi) hc

/-- Where only the zero vector is sent to 0, the elimination succeeds, and its last column solves the system. -/
theorem gaussJordan_of_regular {k : Nat} {A : List (List GF)} (hA : Shaped k A)
    (h : ∀ x : Nat → ZMod 257, NullVec k A x → x k = 0 → ∀ m < k, x m = 0) :
    ∃ B, gaussJordan k A = .ok B ∧ Shaped k B ∧ UnitCols k k B ∧
      ∀ i < k, ∑ j ∈ Finset.range k, gfClass (entry A i j) * gfClass (entry B j k) = gfClass (entry A i k) := by
  rcases gaussJordan_cases hA with ⟨B, h1, h2, h3, h4⟩ | ⟨_, x, hx, hk, m, hm, hne⟩
  · refine ⟨B, h1, h2, h3, fun i hi => ?_⟩
    have hx : NullVec k B (fun c => if c = k then -1 else gfClass (entry B c k)) := by
      intro i hi
      rw [sum_unitCols h3 _ hi, if_neg (by omega), if_pos rfl]; ring
    have := (h4 _).2 hx i hi
    rw [Finset.sum_range_succ, if_pos rfl] at this
    rw [Finset.sum_congr rfl fun j hj => by rw [← if_neg (c := j = k) (t := (-1 : ZMod 257))
      (e := gfClass (entry B j k)) (by have := Finset.mem_range.1 hj; omega)]]
    linear_combination this
  · exact absurd (h x hx hk m hm) hne

/-- Where some vector that is not zero is sent to 0, the elimination reports `SingularSystem`. -/
theorem gaussJordan_of_singular {k : Nat} {A : List (List GF)} (hA : Shaped k A) {x : Nat → ZMod 257}
    (hx : NullVec k A x) (hk : x k = 0) {m : Nat} (hm : m < k) (hne : x m ≠ 0) :
    gaussJordan k A = .error .singularSystem := by
  rcases gaussJordan_cases hA with ⟨B, _, _, h3, h4⟩ | ⟨h, _⟩
  · have := (h4 x).1 hx m hm
    rw [sum_unitCols h3 _ hm, hk, mul_zero, add_zero] at this
    exact absurd this hne
  · exact h

/-! ### Vandermonde systems -/

/-- The Vandermonde system has its shape. -/
theorem shaped_vandermonde {xs ys : List GF} (h : xs.length = ys.length) :
    Shaped xs.length (vandermonde xs ys) := by
  refine ⟨by simp [vandermonde, h], fun row hrow => ?_⟩
  obtain ⟨i, hi, rfl⟩ := List.getElem_of_mem hrow
  simp [vandermonde]

/-- Its powers. -/
theorem entry_vandermonde {xs ys : List GF} (h : xs.length = ys.length) {i j : Nat} (hi : i < xs.length)
    (hj : j < xs.length) : entry (vandermonde xs ys) i j = fpow (xs.getD i 0) j := by
  have hi' : i < ys.length := by omega
  rw [entry_eq (by simp [vandermonde, ← h, hi])]
  simp [vandermonde, hi, hj, List.getD_eq_getElem?_getD, List.getElem?_append]

/-- Its values. -/
theorem entry_vandermonde_last {xs ys : List GF} (h : xs.length = ys.length) {i : Nat} (hi : i < xs.length) :
    entry (vandermonde xs ys) i xs.length = ys.getD i 0 := by
  have hi' : i < ys.length := by omega
  rw [entry_eq (by simp [vandermonde, ← h, hi])]
  simp [vandermonde, hi', List.getD_eq_getElem?_getD]

/-- A polynomial of degree below `k` that vanishes at `k` distinct points is zero. -/
theorem coeffs_eq_zero {k : Nat} {x c : Nat → ZMod 257} (hx : ∀ i < k, ∀ j < k, x i = x j → i = j)
    (h : ∀ i < k, ∑ j ∈ Finset.range k, c j * x i ^ j = 0) : ∀ j < k, c j = 0 := by
  have : Fact (Nat.Prime 257) := ⟨by norm_num⟩
  set p : Polynomial (ZMod 257) := ∑ j ∈ Finset.range k, Polynomial.C (c j) * Polynomial.X ^ j with hp
  have hdeg : p.degree < (Finset.range k).card := by
    rw [Finset.card_range, Polynomial.degree_lt_iff_coeff_zero]
    intro m hm
    rw [hp, Polynomial.finsetSum_coeff]
    refine Finset.sum_eq_zero fun j hj => ?_
    rw [Polynomial.coeff_C_mul_X_pow, if_neg (by have := Finset.mem_range.1 hj; omega)]
  have hzero : p = 0 := by
    refine Polynomial.eq_zero_of_degree_lt_of_eval_index_eq_zero (Finset.range k) (v := x) ?_ hdeg ?_
    · intro i hi j hj hij
      exact hx i (by simpa using hi) j (by simpa using hj) hij
    · intro i hi
      rw [hp, Polynomial.eval_finsetSum]
      simpa using h i (Finset.mem_range.1 hi)
  intro j hj
  have hc : p.coeff j = c j := by
    rw [hp, Polynomial.finsetSum_coeff]
    simp [Polynomial.coeff_C_mul, Polynomial.coeff_X_pow, hj]
  rw [← hc, hzero, Polynomial.coeff_zero]

/-- A row of the Vandermonde system applied to a vector. -/
theorem sum_vandermonde {xs ys : List GF} (h : xs.length = ys.length) (x : Nat → ZMod 257) {i : Nat}
    (hi : i < xs.length) :
    ∑ c ∈ Finset.range (xs.length + 1), gfClass (entry (vandermonde xs ys) i c) * x c =
      (∑ j ∈ Finset.range xs.length, x j * gfClass (xs.getD i 0) ^ j) + gfClass (ys.getD i 0) * x xs.length := by
  rw [Finset.sum_range_succ, entry_vandermonde_last h hi]
  congr 1
  refine Finset.sum_congr rfl fun j hj => ?_
  rw [entry_vandermonde h hi (Finset.mem_range.1 hj), gfClass_fpow, mul_comm]

/-- The points `xs` are pairwise different. -/
def DistinctPoints (xs : List GF) : Prop :=
  ∀ i < xs.length, ∀ j < xs.length, xs.getD i 0 = xs.getD j 0 → i = j

/-- At distinct points `interpolate` answers the coefficients of the polynomial through the points. -/
theorem interpolate_ok {xs ys : List GF} (h : xs.length = ys.length) (hd : DistinctPoints xs) :
    ∃ c : List GF, interpolate xs ys = .ok c ∧ c.length = xs.length ∧
      ∀ i < xs.length,
        ∑ j ∈ Finset.range xs.length, gfClass (c.getD j 0) * gfClass (xs.getD i 0) ^ j = gfClass (ys.getD i 0) := by
  obtain ⟨B, h1, h2, h3, h4⟩ := gaussJordan_of_regular (shaped_vandermonde h) (fun x hx hk => by
    refine coeffs_eq_zero (x := fun i => gfClass (xs.getD i 0)) (fun i hi j hj hij => hd i hi j hj (gfClass_injective.1 hij))
      fun i hi => ?_
    have := hx i hi
    rwa [sum_vandermonde h x hi, hk, mul_zero, add_zero] at this)
  refine ⟨solution xs.length B, by rw [interpolate, h1], by simp [solution], fun i hi => ?_⟩
  have := h4 i hi
  rw [entry_vandermonde_last h hi] at this
  rw [← this]
  refine Finset.sum_congr rfl fun j hj => ?_
  have hj := Finset.mem_range.1 hj
  rw [entry_vandermonde h hi hj, gfClass_fpow, mul_comm]
  simp [solution, hj]

/-- The coefficients through distinct points are unique. -/
theorem interpolate_eq {xs ys : List GF} (h : xs.length = ys.length) (hd : DistinctPoints xs) {c : List GF}
    (hc : c.length = xs.length)
    (hv : ∀ i < xs.length,
      ∑ j ∈ Finset.range xs.length, gfClass (c.getD j 0) * gfClass (xs.getD i 0) ^ j = gfClass (ys.getD i 0)) :
    interpolate xs ys = .ok c := by
  obtain ⟨d, h1, h2, h3⟩ := interpolate_ok h hd
  rw [h1]
  congr 1
  have hz := coeffs_eq_zero (k := xs.length) (x := fun i => gfClass (xs.getD i 0))
    (c := fun j => gfClass (d.getD j 0) - gfClass (c.getD j 0))
    (fun i hi j hj hij => hd i hi j hj (gfClass_injective.1 hij)) (fun i hi => by
      simp only [sub_mul, Finset.sum_sub_distrib, h3 i hi, hv i hi, sub_self])
  refine List.ext_getElem (h2.trans hc.symm) fun j hj1 hj2 => ?_
  have := sub_eq_zero.1 (hz j (by omega))
  rw [gfClass_injective] at this
  simpa [hj1, hj2] using this

/-- A system with two equal points is singular. -/
theorem gaussJordan_vandermonde_eq {xs ys : List GF} (h : xs.length = ys.length) {i j : Nat} (hij : i < j)
    (hj : j < xs.length) (he : xs.getD i 0 = xs.getD j 0) :
    gaussJordan xs.length (vandermonde xs ys) = .error .singularSystem := by
  have : Fact (Nat.Prime 257) := ⟨by norm_num⟩
  rcases gaussJordan_cases (shaped_vandermonde h) with ⟨B, _, _, h3, h4⟩ | ⟨hs, _⟩
  · exfalso
    -- The polynomial that vanishes at every point but the `j`-th, of degree below `k`, vanishes there too.
    set k := xs.length with hk
    set p : Polynomial (ZMod 257) :=
      ∏ m ∈ (Finset.range k).erase j, (Polynomial.X - Polynomial.C (gfClass (xs.getD m 0))) with hp
    have hmonic : p.Monic := Polynomial.monic_prod_of_monic _ _ fun m _ => Polynomial.monic_X_sub_C _
    have hdeg : p.natDegree = k - 1 := by
      rw [hp, Polynomial.natDegree_prod_of_monic _ _ fun m _ => Polynomial.monic_X_sub_C _]
      simp [hj]
    have hroot : ∀ m < k, p.eval (gfClass (xs.getD m 0)) = 0 := by
      intro m hm
      rw [hp, Polynomial.eval_prod]
      by_cases hmj : m = j
      · refine Finset.prod_eq_zero (Finset.mem_erase.2 ⟨Nat.ne_of_lt hij, Finset.mem_range.2 (by omega)⟩) ?_
        simp only [Polynomial.eval_sub, Polynomial.eval_X, Polynomial.eval_C]
        rw [hmj, ← he, sub_self]
      · refine Finset.prod_eq_zero (Finset.mem_erase.2 ⟨hmj, Finset.mem_range.2 hm⟩) ?_
        simp
    have hnull : NullVec k (vandermonde xs ys) (fun c => if c = k then 0 else p.coeff c) := by
      intro m hm
      rw [sum_vandermonde h _ hm, if_pos rfl, mul_zero, add_zero]
      have := hroot m hm
      rw [Polynomial.eval_eq_sum_range' (n := k) (by omega)] at this
      rw [← this]
      exact Finset.sum_congr rfl fun c hc => by rw [if_neg (by have := Finset.mem_range.1 hc; omega)]
    have hB := (h4 _).1 hnull (k - 1) (by omega)
    rw [sum_unitCols h3 _ (by omega), if_pos rfl, mul_zero, add_zero, if_neg (by omega), ← hdeg] at hB
    rw [Polynomial.Monic, Polynomial.leadingCoeff] at hmonic
    rw [hmonic] at hB
    exact one_ne_zero hB
  · exact hs

/-! ### The Lagrange form -/

/-- The two products as products of classes. -/
theorem gfClass_lagrangeProducts (xs : List GF) (i : Nat) :
    gfClass (lagrangeProducts xs i).1 = ∏ j ∈ (Finset.range xs.length).erase i, (0 - gfClass (xs.getD j 0)) ∧
    gfClass (lagrangeProducts xs i).2 =
      ∏ j ∈ (Finset.range xs.length).erase i, (gfClass (xs.getD i 0) - gfClass (xs.getD j 0)) := by
  have key : ∀ (l : List Nat) (p : GF × GF),
      gfClass (l.foldl (fun p j => (fmul p.1 (fsub 0 (xs.getD j 0)), fmul p.2 (fsub (xs.getD i 0) (xs.getD j 0)))) p).1 =
        gfClass p.1 * (l.map fun j => 0 - gfClass (xs.getD j 0)).prod ∧
      gfClass (l.foldl (fun p j => (fmul p.1 (fsub 0 (xs.getD j 0)), fmul p.2 (fsub (xs.getD i 0) (xs.getD j 0)))) p).2 =
        gfClass p.2 * (l.map fun j => gfClass (xs.getD i 0) - gfClass (xs.getD j 0)).prod := by
    intro l
    induction l with
    | nil => simp
    | cons a l ih =>
      intro p
      rw [List.foldl_cons]
      constructor
      · rw [(ih _).1]; simp [mul_assoc]
      · rw [(ih _).2]; simp [mul_assoc]
  have hset : (Finset.range xs.length).erase i =
      ((List.range xs.length).filter (fun j => decide (j ≠ i))).toFinset := by
    ext j; simp [and_comm]
  have hnd : ((List.range xs.length).filter (fun j => decide (j ≠ i))).Nodup := List.nodup_range.filter _
  constructor
  · rw [lagrangeProducts, (key _ _).1, gfClass_one, one_mul, hset, List.prod_toFinset _ hnd]
  · rw [lagrangeProducts, (key _ _).2, gfClass_one, one_mul, hset, List.prod_toFinset _ hnd]

/-- At distinct points no denominator is 0. -/
theorem lagrange_den_ne_zero {xs : List GF} (hd : DistinctPoints xs) {i : Nat} (hi : i < xs.length) :
    (lagrangeProducts xs i).2 ≠ 0 := by
  have : Fact (Nat.Prime 257) := ⟨by norm_num⟩
  rw [Ne, ← gfClass_eq_zero, (gfClass_lagrangeProducts xs i).2, Finset.prod_eq_zero_iff]
  rintro ⟨j, hj, h0⟩
  obtain ⟨hji, hj⟩ := Finset.mem_erase.1 hj
  exact hji (hd i hi j (Finset.mem_range.1 hj) (gfClass_injective.1 (sub_eq_zero.1 h0))).symm

/-- With two equal points some denominator is 0. -/
theorem lagrange_den_eq_zero {xs : List GF} {i j : Nat} (hij : i < j) (hj : j < xs.length)
    (he : xs.getD i 0 = xs.getD j 0) : (lagrangeProducts xs i).2 = 0 := by
  rw [← gfClass_eq_zero, (gfClass_lagrangeProducts xs i).2]
  refine Finset.prod_eq_zero (Finset.mem_erase.2 ⟨Nat.ne_of_gt hij, Finset.mem_range.2 hj⟩) ?_
  rw [he, sub_self]

/-- `lagrange0` reports `NoInverse` with two equal points. -/
theorem lagrange0_eq_points {xs ys : List GF} {i j : Nat} (hij : i < j) (hj : j < xs.length)
    (he : xs.getD i 0 = xs.getD j 0) : lagrange0 xs ys = .error .noInverse := by
  have key : ∀ (l : List Nat) (t : GF), i ∈ l →
      foldE (fun total i =>
        match finv (lagrangeProducts xs i).2 with
        | some inv => .ok (fadd total (fmul (ys.getD i 0) (fmul (lagrangeProducts xs i).1 inv)))
        | none => .error .noInverse) t l = .error .noInverse := by
    intro l
    induction l with
    | nil => intro t h; simp at h
    | cons a l ih =>
      intro t h
      simp only [foldE]
      cases hf : finv (lagrangeProducts xs a).2 with
      | none => rfl
      | some inv =>
        rcases List.mem_cons.1 h with rfl | h
        · rw [lagrange_den_eq_zero hij hj he] at hf
          rw [finv_eq_none.2 rfl] at hf; cases hf
        · exact ih _ h
  exact key _ _ (List.mem_range.2 (by omega))

/-- At distinct points `lagrange0` answers the constant term of the polynomial through the points. -/
theorem lagrange0_ok {xs ys : List GF} (h : xs.length = ys.length) (hd : DistinctPoints xs) {c : List GF}
    (hc : interpolate xs ys = .ok c) : lagrange0 xs ys = .ok (c.getD 0 0) := by
  have : Fact (Nat.Prime 257) := ⟨by norm_num⟩
  set k := xs.length with hk
  have hfold : lagrange0 xs ys = .ok ((List.range k).foldl (fun total i =>
      fadd total (fmul (ys.getD i 0) (fmul (lagrangeProducts xs i).1 ((finv (lagrangeProducts xs i).2).getD 0)))) 0) := by
    refine foldE_ok (fun i hi t => ?_) 0
    obtain ⟨inv, hinv⟩ := finv_some (lagrange_den_ne_zero hd (List.mem_range.1 hi))
    simp [hinv]
  have hsum : ∀ (n : Nat) (f : Nat → GF),
      gfClass ((List.range n).foldl (fun t i => fadd t (f i)) 0) = ∑ i ∈ Finset.range n, gfClass (f i) := by
    intro n f
    induction n with
    | zero => simp
    | succ n ih => rw [List.range_succ, List.foldl_append, Finset.sum_range_succ, ← ih]; simp
  obtain ⟨d, hd1, hd2, hd3⟩ := interpolate_ok h hd
  obtain rfl : d = c := by rw [hd1] at hc; cases hc; rfl
  rw [hfold]
  congr 1
  rw [← gfClass_injective, hsum]
  set p : Polynomial (ZMod 257) := ∑ j ∈ Finset.range k, Polynomial.C (gfClass (d.getD j 0)) * Polynomial.X ^ j with hp
  have hinj : Set.InjOn (fun i => gfClass (xs.getD i 0)) (Finset.range k : Set Nat) := fun i hi j hj hij =>
    hd i (by simpa using hi) j (by simpa using hj) (gfClass_injective.1 hij)
  have hdeg : p.degree < (Finset.range k).card := by
    rw [Finset.card_range, Polynomial.degree_lt_iff_coeff_zero]
    intro m hm
    rw [hp, Polynomial.finsetSum_coeff]
    refine Finset.sum_eq_zero fun j hj => ?_
    rw [Polynomial.coeff_C_mul_X_pow, if_neg (by have := Finset.mem_range.1 hj; omega)]
  have heq := Lagrange.eq_interpolate_of_eval_eq (r := fun i => gfClass (ys.getD i 0)) hinj hdeg (fun i hi => by
    rw [hp, Polynomial.eval_finsetSum]
    simpa using hd3 i (Finset.mem_range.1 hi))
  have h0 : p.eval 0 = gfClass (d.getD 0 0) := by
    rw [hp, Polynomial.eval_finsetSum]
    rcases Nat.eq_zero_or_pos k with hk0 | hk0
    · have : d = [] := List.eq_nil_of_length_eq_zero (hd2.trans hk0)
      simp [hk0, this]
    · rw [Finset.sum_eq_single 0]
      · simp
      · intro j _ hj0; simp [hj0]
      · intro hm; exact absurd (Finset.mem_range.2 hk0) hm
  rw [← h0, heq, Lagrange.interpolate_apply, Polynomial.eval_finsetSum]
  refine Finset.sum_congr rfl fun i hi => ?_
  obtain ⟨inv, hinv⟩ := finv_some (lagrange_den_ne_zero hd (Finset.mem_range.1 hi))
  rw [Polynomial.eval_mul, Polynomial.eval_C, Lagrange.basis, Polynomial.eval_prod, gfClass_fmul, gfClass_fmul, hinv,
    Option.getD_some, gfClass_finv_eq hinv, (gfClass_lagrangeProducts xs i).1, (gfClass_lagrangeProducts xs i).2,
    ← Finset.prod_inv_distrib, ← Finset.prod_mul_distrib]
  congr 1
  refine Finset.prod_congr rfl fun j _ => ?_
  simp [Lagrange.basisDivisor, mul_comm]

end Sys2Proof.Machine
end

