-- ==== Sys2Proof/Laws/Encoding.lean ====
section
/-! SUPPORT. Laws of the encoding: the fields of a word of each format, the zero bits of each format, and the code
tables of registers, spaces and grids read back. -/

namespace Sys2Proof

/-! ### Fields of the formats (30_encoding.md R91 to R96) -/

@[simp] theorem opField_formatN (op : BitVec 8) :
    opField (formatN op) = op := by
  apply BitVec.eq_of_getLsbD_eq
  intro i hi
  simp [formatN, opField, BitVec.getLsbD_extractLsb']
  grind

@[simp] theorem opField_formatF (op : BitVec 8) (a b c : BitVec 4) :
    opField (formatF op a b c) = op := by
  apply BitVec.eq_of_getLsbD_eq
  intro i hi
  simp [formatF, opField, BitVec.getLsbD_extractLsb']
  grind

@[simp] theorem aField_formatF (op : BitVec 8) (a b c : BitVec 4) :
    aField (formatF op a b c) = a := by
  apply BitVec.eq_of_getLsbD_eq
  intro i hi
  simp [formatF, aField, BitVec.getLsbD_extractLsb']
  grind

@[simp] theorem bField_formatF (op : BitVec 8) (a b c : BitVec 4) :
    bField (formatF op a b c) = b := by
  apply BitVec.eq_of_getLsbD_eq
  intro i hi
  simp [formatF, bField, BitVec.getLsbD_extractLsb']
  grind

@[simp] theorem cField_formatF (op : BitVec 8) (a b c : BitVec 4) :
    cField (formatF op a b c) = c := by
  apply BitVec.eq_of_getLsbD_eq
  intro i hi
  simp [formatF, cField, BitVec.getLsbD_extractLsb']
  grind

@[simp] theorem opField_formatI (op : BitVec 8) (a : BitVec 4) (imm : BitVec 32) :
    opField (formatI op a imm) = op := by
  apply BitVec.eq_of_getLsbD_eq
  intro i hi
  simp [formatI, opField, BitVec.getLsbD_extractLsb']
  grind

@[simp] theorem aField_formatI (op : BitVec 8) (a : BitVec 4) (imm : BitVec 32) :
    aField (formatI op a imm) = a := by
  apply BitVec.eq_of_getLsbD_eq
  intro i hi
  simp [formatI, aField, BitVec.getLsbD_extractLsb']
  grind

@[simp] theorem immField_formatI (op : BitVec 8) (a : BitVec 4) (imm : BitVec 32) :
    immField (formatI op a imm) = imm := by
  apply BitVec.eq_of_getLsbD_eq
  intro i hi
  simp [formatI, immField, BitVec.getLsbD_extractLsb']
  grind

@[simp] theorem opField_formatC (op cr : BitVec 8) (imm : BitVec 32) :
    opField (formatC op cr imm) = op := by
  apply BitVec.eq_of_getLsbD_eq
  intro i hi
  simp [formatC, opField, BitVec.getLsbD_extractLsb']
  grind

@[simp] theorem crField_formatC (op cr : BitVec 8) (imm : BitVec 32) :
    crField (formatC op cr imm) = cr := by
  apply BitVec.eq_of_getLsbD_eq
  intro i hi
  simp [formatC, crField, BitVec.getLsbD_extractLsb']
  grind

@[simp] theorem immField_formatC (op cr : BitVec 8) (imm : BitVec 32) :
    immField (formatC op cr imm) = imm := by
  apply BitVec.eq_of_getLsbD_eq
  intro i hi
  simp [formatC, immField, BitVec.getLsbD_extractLsb']
  grind

@[simp] theorem opField_formatM (op : BitVec 8) (space slot : BitVec 4) (data : BitVec 16) (addr : BitVec 32) :
    opField (formatM op space slot data addr) = op := by
  apply BitVec.eq_of_getLsbD_eq
  intro i hi
  simp [formatM, opField, BitVec.getLsbD_extractLsb']
  grind

@[simp] theorem aField_formatM (op : BitVec 8) (space slot : BitVec 4) (data : BitVec 16) (addr : BitVec 32) :
    aField (formatM op space slot data addr) = space := by
  apply BitVec.eq_of_getLsbD_eq
  intro i hi
  simp [formatM, aField, BitVec.getLsbD_extractLsb']
  grind

@[simp] theorem bField_formatM (op : BitVec 8) (space slot : BitVec 4) (data : BitVec 16) (addr : BitVec 32) :
    bField (formatM op space slot data addr) = slot := by
  apply BitVec.eq_of_getLsbD_eq
  intro i hi
  simp [formatM, bField, BitVec.getLsbD_extractLsb']
  grind

@[simp] theorem dataField_formatM (op : BitVec 8) (space slot : BitVec 4) (data : BitVec 16) (addr : BitVec 32) :
    dataField (formatM op space slot data addr) = data := by
  apply BitVec.eq_of_getLsbD_eq
  intro i hi
  simp [formatM, dataField, BitVec.getLsbD_extractLsb']
  grind

@[simp] theorem immField_formatM (op : BitVec 8) (space slot : BitVec 4) (data : BitVec 16) (addr : BitVec 32) :
    immField (formatM op space slot data addr) = addr := by
  apply BitVec.eq_of_getLsbD_eq
  intro i hi
  simp [formatM, immField, BitVec.getLsbD_extractLsb']
  grind

/-! ### Zero bits of the formats (30_encoding.md R100) -/

@[simp] theorem zero_formatN_0_56 (op : BitVec 8) :
    (formatN op).extractLsb' 0 56 = 0#56 := by
  apply BitVec.eq_of_getLsbD_eq
  intro i hi
  simp [formatN, BitVec.getLsbD_extractLsb']
  grind

@[simp] theorem zero_formatF_0_44 (op : BitVec 8) (a b c : BitVec 4) :
    (formatF op a b c).extractLsb' 0 44 = 0#44 := by
  apply BitVec.eq_of_getLsbD_eq
  intro i hi
  simp [formatF, BitVec.getLsbD_extractLsb']
  grind

@[simp] theorem zero_formatF_0_48 (op : BitVec 8) (a b : BitVec 4) :
    (formatF op a b 0#4).extractLsb' 0 48 = 0#48 := by
  apply BitVec.eq_of_getLsbD_eq
  intro i hi
  simp [formatF, BitVec.getLsbD_extractLsb']
  grind

@[simp] theorem zero_formatF_0_52 (op : BitVec 8) (a : BitVec 4) :
    (formatF op a 0#4 0#4).extractLsb' 0 52 = 0#52 := by
  apply BitVec.eq_of_getLsbD_eq
  intro i hi
  simp [formatF, BitVec.getLsbD_extractLsb']
  grind

@[simp] theorem zero_formatI_32_20 (op : BitVec 8) (a : BitVec 4) (imm : BitVec 32) :
    (formatI op a imm).extractLsb' 32 20 = 0#20 := by
  apply BitVec.eq_of_getLsbD_eq
  intro i hi
  simp [formatI, BitVec.getLsbD_extractLsb']
  grind

@[simp] theorem zero_formatC_32_16 (op cr : BitVec 8) (imm : BitVec 32) :
    (formatC op cr imm).extractLsb' 32 16 = 0#16 := by
  apply BitVec.eq_of_getLsbD_eq
  intro i hi
  simp [formatC, BitVec.getLsbD_extractLsb']
  grind

@[simp] theorem zero_formatC_0_48 (op cr : BitVec 8) :
    (formatC op cr 0#32).extractLsb' 0 48 = 0#48 := by
  apply BitVec.eq_of_getLsbD_eq
  intro i hi
  simp [formatC, BitVec.getLsbD_extractLsb']
  grind

@[simp] theorem zero_formatM_32_16 (op : BitVec 8) (space slot : BitVec 4) (addr : BitVec 32) :
    (formatM op space slot 0#16 addr).extractLsb' 32 16 = 0#16 := by
  apply BitVec.eq_of_getLsbD_eq
  intro i hi
  simp [formatM, BitVec.getLsbD_extractLsb']
  grind

/-! ### Words from their fields -/

/-- Zero bits, one by one. -/
theorem getLsbD_of_extractLsb'_eq_zero {w : CmdWord} {lo len i : Nat} (h : w.extractLsb' lo len = 0)
    (hl : lo ≤ i) (hu : i < lo + len) : w.getLsbD i = false := by
  have := congrArg (fun v : BitVec len => v.getLsbD (i - lo)) h
  simp only [BitVec.getLsbD_extractLsb', show i - lo < len by omega, decide_true, Bool.true_and,
    show lo + (i - lo) = i by omega] at this
  simpa using this

theorem eq_formatN {w : CmdWord} (h : w.extractLsb' 0 56 = 0) :
    formatN (opField w) = w := by
  have hz := fun i => getLsbD_of_extractLsb'_eq_zero (i := i) h
  apply BitVec.eq_of_getLsbD_eq
  intro i hi
  simp [formatN, opField]
  grind

theorem eq_formatF {w : CmdWord} (h : w.extractLsb' 0 44 = 0) :
    formatF (opField w) (aField w) (bField w) (cField w) = w := by
  have hz := fun i => getLsbD_of_extractLsb'_eq_zero (i := i) h
  apply BitVec.eq_of_getLsbD_eq
  intro i hi
  simp [formatF, opField, aField, bField, cField]
  grind

theorem eq_formatF_two {w : CmdWord} (h : w.extractLsb' 0 48 = 0) :
    formatF (opField w) (aField w) (bField w) 0 = w := by
  have hz := fun i => getLsbD_of_extractLsb'_eq_zero (i := i) h
  apply BitVec.eq_of_getLsbD_eq
  intro i hi
  simp [formatF, opField, aField, bField]
  grind

theorem eq_formatF_one {w : CmdWord} (h : w.extractLsb' 0 52 = 0) :
    formatF (opField w) (aField w) 0 0 = w := by
  have hz := fun i => getLsbD_of_extractLsb'_eq_zero (i := i) h
  apply BitVec.eq_of_getLsbD_eq
  intro i hi
  simp [formatF, opField, aField]
  grind

theorem eq_formatI {w : CmdWord} (h : w.extractLsb' 32 20 = 0) :
    formatI (opField w) (aField w) (immField w) = w := by
  have hz := fun i => getLsbD_of_extractLsb'_eq_zero (i := i) h
  apply BitVec.eq_of_getLsbD_eq
  intro i hi
  simp [formatI, opField, aField, immField]
  grind

theorem eq_formatC {w : CmdWord} (h : w.extractLsb' 32 16 = 0) :
    formatC (opField w) (crField w) (immField w) = w := by
  have hz := fun i => getLsbD_of_extractLsb'_eq_zero (i := i) h
  apply BitVec.eq_of_getLsbD_eq
  intro i hi
  simp [formatC, opField, crField, immField]
  grind

theorem eq_formatC_read {w : CmdWord} (h : w.extractLsb' 0 48 = 0) :
    formatC (opField w) (crField w) 0 = w := by
  have hz := fun i => getLsbD_of_extractLsb'_eq_zero (i := i) h
  apply BitVec.eq_of_getLsbD_eq
  intro i hi
  simp [formatC, opField, crField]
  grind

theorem eq_formatM_read {w : CmdWord} (h : w.extractLsb' 32 16 = 0) :
    formatM (opField w) (aField w) (bField w) 0 (immField w) = w := by
  have hz := fun i => getLsbD_of_extractLsb'_eq_zero (i := i) h
  apply BitVec.eq_of_getLsbD_eq
  intro i hi
  simp [formatM, opField, aField, bField, immField]
  grind

theorem eq_formatM (w : CmdWord) :
    formatM (opField w) (aField w) (bField w) (dataField w) (immField w) = w := by
  apply BitVec.eq_of_getLsbD_eq
  intro i hi
  simp [formatM, opField, aField, bField, dataField, immField]
  grind

/-! ### Code tables -/

/-- The number of a register names it (10_state.md R24). -/
@[simp] theorem ofNum?_num (cr : CReg) : CReg.ofNum? cr.num = some cr := by
  rcases cr with _ | _ | _ | _ | _ | _ | _ | _ | _ | _ | _ | _ | _ | _ | _ | _ | _ | _ | _ | j | j | j
  case xi => revert j; decide
  case len => revert j; decide
  case sseed => revert j; decide
  all_goals rfl

/-- A number that names a register is its number. -/
theorem num_of_ofNum? : ∀ (b : BitVec 8) (cr : CReg), CReg.ofNum? b = some cr → cr.num = b := by
  have h : ∀ b : BitVec 8, (CReg.ofNum? b).all (fun cr => decide (cr.num = b)) = true := by decide
  intro b cr hb
  have := h b
  rw [hb] at this
  simpa using this

/-- The code of a space names it (20_memory.md R60). -/
@[simp] theorem ofCode?_spaceCode (sp : Space) : Space.ofCode? sp.code = some sp := by cases sp <;> rfl

/-- A code that names a space is its code. -/
theorem spaceCode_of_ofCode? : ∀ (b : BitVec 4) (sp : Space), Space.ofCode? b = some sp → sp.code = b := by
  have h : ∀ b : BitVec 4, (Space.ofCode? b).all (fun sp => decide (sp.code = b)) = true := by decide
  intro b sp hb
  have := h b
  rw [hb] at this
  simpa using this

/-- The number of a grid names it (30_encoding.md R93). -/
@[simp] theorem ofCode?_gridCode (g : Grid) : Grid.ofCode? g.code = some g := by cases g <;> rfl

/-- A number that names a grid is its number. -/
theorem gridCode_of_ofCode? : ∀ (b : BitVec 4) (g : Grid), Grid.ofCode? b = some g → g.code = b := by
  have h : ∀ b : BitVec 4, (Grid.ofCode? b).all (fun g => decide (g.code = b)) = true := by decide
  intro b g hb
  have := h b
  rw [hb] at this
  simpa using this

@[simp] theorem toFin_fieldBits (a : Fin 16) : (fieldBits a).toFin = a := rfl

@[simp] theorem fieldBits_toFin (b : BitVec 4) : fieldBits b.toFin = b := rfl

/-! ### The must-be-zero test -/

/-- What a passed must-be-zero test says. -/
theorem ifZero_ok {w : CmdWord} {lo len : Nat} {r : Except Reject Instr} {i : Instr} (h : ifZero w lo len r = .ok i) :
    w.extractLsb' lo len = 0 ∧ r = .ok i := by
  unfold ifZero at h
  split at h
  · exact ⟨‹_›, h⟩
  · cases h

/-- What a passed range test says. -/
theorem ifWellFormed_ok {i i' : Instr} {e : Reject} (h : ifWellFormed i e = .ok i') : i = i' ∧ i'.wellFormed = true := by
  unfold ifWellFormed at h
  split at h
  · cases h; exact ⟨rfl, ‹_›⟩
  · cases h

/-- What a passed space test says. -/
theorem withSpace_ok {w : CmdWord} {f : Space → Instr} {i : Instr} (h : withSpace w f = .ok i) :
    ∃ sp, aField w = sp.code ∧ i = f sp ∧ i.wellFormed = true := by
  unfold withSpace at h
  split at h
  · obtain ⟨rfl, h2⟩ := ifWellFormed_ok h
    exact ⟨_, (spaceCode_of_ofCode? _ _ ‹_›).symm, rfl, h2⟩
  · cases h

/-- What a passed register test says. -/
theorem withCReg_ok {w : CmdWord} {f : CReg → Instr} {i : Instr} (h : withCReg w f = .ok i) :
    ∃ cr, crField w = cr.num ∧ i = f cr ∧ i.wellFormed = true := by
  unfold withCReg at h
  split at h
  · obtain ⟨rfl, h2⟩ := ifWellFormed_ok h
    exact ⟨_, (num_of_ofNum? _ _ ‹_›).symm, rfl, h2⟩
  · cases h

/-- What a passed test of two grid selectors says. -/
theorem withGrids_ok {w : CmdWord} {f : Grid → Grid → Instr} {i : Instr} (h : withGrids w f = .ok i) :
    ∃ d s, aField w = d.code ∧ bField w = s.code ∧ i = f d s := by
  unfold withGrids at h
  split at h
  · cases h
    exact ⟨_, _, (gridCode_of_ofCode? _ _ ‹_›).symm, (gridCode_of_ofCode? _ _ ‹_›).symm, rfl⟩
  · cases h

end Sys2Proof
end

