-- ==== Sys2Proof/Laws/Exec.lean ====
section
/-! SUPPORT. What executing a command can do, for all commands at once. -/

namespace Sys2Proof.Machine

/-- A command ends with a state that keeps the capacities and the port, and a response of status 0, or with its
fault taken in the state before it. -/
theorem exec_cases (i : Instr) (s : State) :
    (∃ (u : State) (d : BitVec 32), exec i s = .next (u.respond 0 d) ∧ u.cmds = s.cmds ∧ u.resps = s.resps ∧
      u.lmax = s.lmax ∧ u.cmax = s.cmax) ∨
    ∃ e, exec i s = .next (takeFault e (encode i) s) := by
  cases i with
  | nop => exact .inl ⟨s, 0, rfl, rfl, rfl, rfl, rfl⟩
  | rst => exact .inl ⟨softReset s, 0, rfl, rfl, rfl, rfl, rfl⟩
  | clre => exact .inl ⟨clearError s, 0, rfl, rfl, rfl, rfl, rfl⟩
  | crw cr imm =>
    simp only [exec, execCrw]
    split_ifs
    · exact .inr ⟨_, rfl⟩
    · exact .inl ⟨_, _, rfl, writeCR_cmds .., writeCR_resps .., writeCR_lmax .., writeCR_cmax ..⟩
    · exact .inr ⟨_, rfl⟩
  | crr cr => exact .inl ⟨s, _, rfl, rfl, rfl, rfl, rfl⟩
  | put sp slot addr data =>
    simp only [exec, execPut, State.memWrite]
    by_cases h : sp = .tg
    · exact .inr ⟨_, by rw [if_pos h]; rfl⟩
    · rw [if_neg h]
      cases accessSlot sp slot with
      | error e => exact .inr ⟨_, rfl⟩
      | ok j =>
        simp only
        split_ifs
        · exact .inr ⟨_, rfl⟩
        · exact .inr ⟨_, rfl⟩
        · exact .inl ⟨_, _, rfl, setElement_cmds .., setElement_resps .., setElement_lmax .., setElement_cmax ..⟩
  | get sp slot addr =>
    simp only [exec, execGet]
    split
    · exact .inr ⟨_, rfl⟩
    · exact .inl ⟨s, _, rfl, rfl, rfl, rfl, rfl⟩
  | fli a imm =>
    simp only [exec, execFli]
    split_ifs
    · exact .inr ⟨_, rfl⟩
    · exact .inl ⟨_, _, rfl, rfl, rfl, rfl, rfl⟩
  | fadd a b c => exact .inl ⟨_, _, rfl, rfl, rfl, rfl, rfl⟩
  | fsub a b c => exact .inl ⟨_, _, rfl, rfl, rfl, rfl, rfl⟩
  | fmul a b c => exact .inl ⟨_, _, rfl, rfl, rfl, rfl, rfl⟩
  | finv a b =>
    simp only [exec, execFinv]
    split
    · exact .inl ⟨_, _, rfl, rfl, rfl, rfl, rfl⟩
    · exact .inr ⟨_, rfl⟩
  | frd a => exact .inl ⟨s, _, rfl, rfl, rfl, rfl, rfl⟩
  | kseed => exact .inl ⟨_, _, rfl, rfl, rfl, rfl, rfl⟩
  | knext a => exact .inl ⟨_, _, rfl, rfl, rfl, rfl, rfl⟩
  | pbuild =>
    simp only [exec, execPbuild]
    cases s.gridLength with
    | error e => exact .inr ⟨_, rfl⟩
    | ok L => exact .inl ⟨_, _, rfl, rfl, rfl, rfl, rfl⟩
  | pxor d g =>
    simp only [exec, execPxor]
    cases s.gridLength with
    | error e => exact .inr ⟨_, rfl⟩
    | ok L =>
      exact .inl ⟨_, _, rfl, writeGrid_cmds .., writeGrid_resps .., writeGrid_lmax .., writeGrid_cmax ..⟩
  | peval a b =>
    simp only [exec, execPeval]
    cases s.threshold with
    | error e => exact .inr ⟨_, rfl⟩
    | ok k => exact .inl ⟨_, _, rfl, rfl, rfl, rfl, rfl⟩
  | split =>
    simp only [exec, execSplit]
    cases s.checkSplit with
    | error e => exact .inr ⟨_, rfl⟩
    | ok p => exact .inl ⟨_, _, rfl, rfl, rfl, rfl, rfl⟩
  | lagr a =>
    simp only [exec, execLagr]
    cases s.threshold with
    | error e => exact .inr ⟨_, rfl⟩
    | ok k =>
      simp only
      split
      · exact .inr ⟨_, rfl⟩
      · exact .inl ⟨_, _, rfl, rfl, rfl, rfl, rfl⟩
  | vand =>
    simp only [exec, execVand]
    cases s.threshold with
    | error e => exact .inr ⟨_, rfl⟩
    | ok k =>
      exact .inl ⟨_, _, rfl, storeSystem_cmds .., storeSystem_resps .., storeSystem_lmax .., storeSystem_cmax ..⟩
  | solve =>
    simp only [exec, execSolve]
    cases s.threshold with
    | error e => exact .inr ⟨_, rfl⟩
    | ok k =>
      simp only
      split
      · exact .inr ⟨_, rfl⟩
      · refine .inl ⟨_, _, rfl, ?_, ?_, ?_, ?_⟩ <;> simp
  | recon =>
    simp only [exec, execRecon]
    cases s.reconChecks with
    | error e => exact .inr ⟨_, rfl⟩
    | ok r =>
      simp only
      split
      · exact .inr ⟨_, rfl⟩
      · exact .inl ⟨_, _, rfl, rfl, rfl, rfl, rfl⟩
  | embed slot =>
    simp only [exec, execEmbed]
    cases s.codecChecks slot with
    | error e => exact .inr ⟨_, rfl⟩
    | ok p =>
      simp only
      split
      · exact .inr ⟨_, rfl⟩
      · exact .inl ⟨_, _, rfl, rfl, rfl, rfl, rfl⟩
  | extract slot =>
    simp only [exec, execExtract]
    cases s.codecChecks slot with
    | error e => exact .inr ⟨_, rfl⟩
    | ok p => exact .inl ⟨_, _, rfl, rfl, rfl, rfl, rfl⟩
  | distrib =>
    simp only [exec, execDistrib]
    cases s.checkSplit with
    | error e => exact .inr ⟨_, rfl⟩
    | ok p => exact .inl ⟨_, _, rfl, rfl, rfl, rfl, rfl⟩
  | recover =>
    simp only [exec, execRecover]
    cases s.reconChecks with
    | error e => exact .inr ⟨_, rfl⟩
    | ok r =>
      simp only
      cases s.commonSeed r.sel with
      | error e => exact .inr ⟨_, rfl⟩
      | ok seed =>
        simp only
        split
        · exact .inr ⟨_, rfl⟩
        · exact .inl ⟨_, _, rfl, rfl, rfl, rfl, rfl⟩

end Sys2Proof.Machine
end

