-- ==== Sys2Proof/Laws/PerInstr.lean ====
section
/-! SUPPORT. Statements made for each command: the family `EncodesOpcode` says that bits 63:56 of a command's word
are the opcode of its row (30_encoding.md R91, R98). -/

namespace Sys2Proof.Laws

/-- Bits 63:56 of the command's word are its opcode. -/
def EncodesOpcode.Statement (i : Instr) : Prop := opField (encode i) = i.opcode

theorem EncodesOpcode.nop : EncodesOpcode.Statement .nop := opField_formatN ..
theorem EncodesOpcode.rst : EncodesOpcode.Statement .rst := opField_formatN ..
theorem EncodesOpcode.clre : EncodesOpcode.Statement .clre := opField_formatN ..
theorem EncodesOpcode.crw (cr : CReg) (imm : BitVec 32) : EncodesOpcode.Statement (.crw cr imm) := opField_formatC ..
theorem EncodesOpcode.crr (cr : CReg) : EncodesOpcode.Statement (.crr cr) := opField_formatC ..
theorem EncodesOpcode.put (sp : Space) (slot : Fin 16) (addr : BitVec 32) (data : BitVec 16) : EncodesOpcode.Statement (.put sp slot addr data) := opField_formatM ..
theorem EncodesOpcode.get (sp : Space) (slot : Fin 16) (addr : BitVec 32) : EncodesOpcode.Statement (.get sp slot addr) := opField_formatM ..
theorem EncodesOpcode.fli (a : Fin 16) (imm : BitVec 32) : EncodesOpcode.Statement (.fli a imm) := opField_formatI ..
theorem EncodesOpcode.fadd (a : Fin 16) (b : Fin 16) (c : Fin 16) : EncodesOpcode.Statement (.fadd a b c) := opField_formatF ..
theorem EncodesOpcode.fsub (a : Fin 16) (b : Fin 16) (c : Fin 16) : EncodesOpcode.Statement (.fsub a b c) := opField_formatF ..
theorem EncodesOpcode.fmul (a : Fin 16) (b : Fin 16) (c : Fin 16) : EncodesOpcode.Statement (.fmul a b c) := opField_formatF ..
theorem EncodesOpcode.finv (a : Fin 16) (b : Fin 16) : EncodesOpcode.Statement (.finv a b) := opField_formatF ..
theorem EncodesOpcode.frd (a : Fin 16) : EncodesOpcode.Statement (.frd a) := opField_formatF ..
theorem EncodesOpcode.kseed : EncodesOpcode.Statement .kseed := opField_formatN ..
theorem EncodesOpcode.knext (a : Fin 16) : EncodesOpcode.Statement (.knext a) := opField_formatF ..
theorem EncodesOpcode.pbuild : EncodesOpcode.Statement .pbuild := opField_formatN ..
theorem EncodesOpcode.pxor (d : Grid) (s : Grid) : EncodesOpcode.Statement (.pxor d s) := opField_formatF ..
theorem EncodesOpcode.peval (a : Fin 16) (b : Fin 16) : EncodesOpcode.Statement (.peval a b) := opField_formatF ..
theorem EncodesOpcode.split : EncodesOpcode.Statement .split := opField_formatN ..
theorem EncodesOpcode.lagr (a : Fin 16) : EncodesOpcode.Statement (.lagr a) := opField_formatF ..
theorem EncodesOpcode.vand : EncodesOpcode.Statement .vand := opField_formatN ..
theorem EncodesOpcode.solve : EncodesOpcode.Statement .solve := opField_formatN ..
theorem EncodesOpcode.recon : EncodesOpcode.Statement .recon := opField_formatN ..
theorem EncodesOpcode.embed (slot : Fin 16) : EncodesOpcode.Statement (.embed slot) := opField_formatF ..
theorem EncodesOpcode.extract (slot : Fin 16) : EncodesOpcode.Statement (.extract slot) := opField_formatF ..
theorem EncodesOpcode.distrib : EncodesOpcode.Statement .distrib := opField_formatN ..
theorem EncodesOpcode.recover : EncodesOpcode.Statement .recover := opField_formatN ..

end Sys2Proof.Laws
end

