-- ==== Sys2Proof/Laws/Reconstruction.lean ====
section
/-! SUPPORT. Laws of the solver's registers and of the reconstructor: what `MAT` and `CV` hold after a store, the
system a load reads, and what `reconGrid` answers on the shares of given polynomials. -/

namespace Sys2Proof.Machine

/-! ### Vector registers as lists -/

@[simp] theorem length_vecTake {n : Nat} (v : Vector GF n) (k : Nat) : (vecTake v k).length = k := by
  simp [vecTake]

/-- Element `i` of the first `k`. -/
theorem getD_vecTake {n : Nat} (v : Vector GF n) {k i : Nat} (h : i < k) : (vecTake v k).getD i 0 = vecAt v i := by
  simp [vecTake, h]

/-- The points of `XV` are distinct as a list when they are distinct as elements. -/
theorem distinctPoints_vecTake {n : Nat} {v : Vector GF n} {k : Nat} :
    DistinctPoints (vecTake v k) ↔ ∀ i < k, ∀ j < k, vecAt v i = vecAt v j → i = j := by
  simp only [DistinctPoints, length_vecTake]
  constructor
  · intro h i hi j hj hij
    exact h i hi j hj (by rwa [getD_vecTake v hi, getD_vecTake v hj])
  · intro h i hi j hj hij
    rw [getD_vecTake v hi, getD_vecTake v hj] at hij
    exact h i hi j hj hij

/-! ### The system registers -/

/-- An element of `MAT` after a system is stored. -/
theorem vecAt_systemMatrix (m : Vector GF 110) (k : Nat) (A : List (List GF)) {i j : Nat} (hi : i < 10) (hj : j ≤ 10) :
    vecAt (systemMatrix m k A) (11 * i + j) =
      if i < k ∧ j < k then entry A i j else if i < k ∧ j = 10 then entry A i k else vecAt m (11 * i + j) := by
  have hp : 11 * i + j < 110 := by omega
  have h1 : (11 * i + j) / 11 = i := by omega
  have h2 : (11 * i + j) % 11 = j := by omega
  simp [vecAt, systemMatrix, hp, h1, h2]

/-- An element of `CV` after coefficients are stored. -/
theorem vecAt_coeffVector (v : Vector GF 10) {k : Nat} (hk : k ≤ 10) (c : List GF) (i : Nat) :
    vecAt (coeffVector v k c) i = if i < k then c.getD i 0 else vecAt v i := by
  by_cases h : i < 10
  · simp [vecAt, coeffVector, h]
  · rw [if_neg (by omega)]; simp [vecAt, h]

/-- The system a load reads has its shape. -/
theorem shaped_loadSystem (s : State) (k : Nat) : Shaped k (s.loadSystem k) := by
  refine ⟨by simp [State.loadSystem], fun row hrow => ?_⟩
  obtain ⟨i, hi, rfl⟩ := List.getElem_of_mem hrow
  simp [State.loadSystem]

/-- The block a load reads. -/
theorem entry_loadSystem (s : State) {k i j : Nat} (hi : i < k) (hj : j < k) :
    entry (s.loadSystem k) i j = vecAt s.mat (11 * i + j) := by
  rw [entry_eq (by simp [State.loadSystem, hi]), List.getD_eq_getElem?_getD]
  simp only [State.loadSystem, List.getElem_map, List.getElem_range]
  rw [List.getElem?_append_left (by simpa using hj)]
  simp [hj]

/-- The last column a load reads. -/
theorem entry_loadSystem_last (s : State) {k i : Nat} (hi : i < k) :
    entry (s.loadSystem k) i k = vecAt s.mat (11 * i + 10) := by
  rw [entry_eq (by simp [State.loadSystem, hi])]
  simp [State.loadSystem, List.getD_eq_getElem?_getD]

/-- A row of the system a load reads, applied to a vector. -/
theorem sum_loadSystem (s : State) (k : Nat) (x : Nat → ZMod 257) {i : Nat} (hi : i < k) :
    ∑ c ∈ Finset.range (k + 1), gfClass (entry (s.loadSystem k) i c) * x c =
      (∑ j ∈ Finset.range k, gfClass (vecAt s.mat (11 * i + j)) * x j) + gfClass (vecAt s.mat (11 * i + 10)) * x k := by
  rw [Finset.sum_range_succ, entry_loadSystem_last s hi]
  congr 1
  exact Finset.sum_congr rfl fun j hj => by rw [entry_loadSystem s hi (Finset.mem_range.1 hj)]

/-- A response changes no register a load reads. -/
@[simp] theorem respond_loadSystem (s : State) (st : BitVec 8) (d : BitVec 32) (k : Nat) :
    (s.respond st d).loadSystem k = s.loadSystem k := rfl

/-- Loading the system just stored reads it back. -/
theorem loadSystem_storeSystem (s : State) {k : Nat} (hk : k ≤ 10) {A : List (List GF)} (hA : Shaped k A) :
    (s.storeSystem k A).loadSystem k = A := by
  refine List.ext_getElem (by simp [State.loadSystem, hA.1]) fun i h1 h2 => ?_
  have hi : i < k := by rw [← hA.1]; exact h2
  have hrow := hA.2 _ (List.getElem_mem h2)
  refine List.ext_getElem (by simp [State.loadSystem, hrow]) fun j h3 h4 => ?_
  have hj : j < k + 1 := by rw [← hrow]; exact h4
  have he : entry A i j = A[i][j] := by rw [entry_eq h2]; simp [h4]
  have hek : entry A i k = A[i][k]'(by rw [hrow]; omega) := by rw [entry_eq h2]; simp [hrow]
  simp only [State.loadSystem, List.getElem_map, List.getElem_range, storeSystem_mat]
  by_cases hjk : j < k
  · rw [List.getElem_append_left (by simpa using hjk), List.getElem_map, List.getElem_range,
      vecAt_systemMatrix _ _ _ (by omega) (by omega), if_pos ⟨hi, hjk⟩, he]
  · obtain rfl : j = k := by omega
    rw [List.getElem_append_right (by simp), List.getElem_singleton,
      vecAt_systemMatrix _ _ _ (by omega) le_rfl, if_neg (by omega), if_pos ⟨hi, rfl⟩, hek]

/-! ### Shares and coefficients -/

/-- The coefficients of a position or block: `K` elements, as `gridCoeff` says. -/
theorem shareCoeffs_spec (s : State) (q : Nat) :
    (s.shareCoeffs q).length = s.k.toNat ∧
      ∀ i < s.k.toNat, ((s.shareCoeffs q).getD i 0).val = s.gridCoeff q i := by
  unfold State.shareCoeffs State.gridCoeff
  by_cases h1 : s.blk.toNat = 1
  · simp only [if_pos h1]
    exact ⟨by simp, fun i hi => by simp [hi]⟩
  · simp only [if_neg h1]
    exact ⟨by simp, fun i hi => by simp [hi]⟩

/-- An index in `[1, 10]` is its own field element. -/
theorem ofNat_index_val {x : BitVec 16} (h : x.toNat ≤ 10) : (Fin.ofNat 257 x.toNat : GF).val = x.toNat := by
  simp [Fin.ofNat]; omega

/-- The indexes of `K` selected, distinct shares are distinct points. -/
theorem distinctPoints_selected {s : State} (h : s.ReconLegal) :
    DistinctPoints (s.selected.map (fun j => Fin.ofNat 257 s.xi[j].toNat)) := by
  obtain ⟨-, -, h3, h4, -⟩ := h
  intro a ha b hb hab
  simp only [List.length_map] at ha hb
  simp only [List.getD_eq_getElem?_getD, List.getElem?_map, List.getElem?_eq_getElem ha, List.getElem?_eq_getElem hb,
    Option.map_some, Option.getD_some] at hab
  have hsa := mem_selected.1 (List.getElem_mem ha)
  have hsb := mem_selected.1 (List.getElem_mem hb)
  have hv := congrArg Fin.val hab
  rw [ofNat_index_val (h3 _ hsa).2, ofNat_index_val (h3 _ hsb).2] at hv
  exact (nodup_selected s).getElem_inj_iff.1 (h4 _ _ hsa hsb (BitVec.eq_of_toNat_eq hv))

/-- What the reconstructor interpolates for one position or block of shares of given polynomials. -/
theorem interpolate_shares {s : State} {C : Nat → Nat → Nat} (h : s.ReconLegal) (hS : s.SharesOf C) {q : Nat}
    (hq : q < s.streamLength) :
    interpolate (s.selected.map (fun j => Fin.ofNat 257 s.xi[j].toNat)) (s.selected.map (fun j => s.mem.shAt j q)) =
      .ok ((List.range s.k.toNat).map (fun i => Fin.ofNat 257 (C q i))) := by
  have hlen : s.selected.length = s.k.toNat := h.2.1
  refine interpolate_eq (by simp) (distinctPoints_selected h) (by simp [hlen]) fun a ha => ?_
  rw [List.length_map] at ha ⊢
  have hsa := mem_selected.1 (List.getElem_mem ha)
  simp only [List.getD_eq_getElem?_getD, List.getElem?_map, List.getElem?_eq_getElem ha, Option.map_some,
    Option.getD_some, gfClass_ofNat]
  have hv := congrArg (fun m : Nat => (m : ZMod 257)) (hS _ hsa q hq)
  simp only [natCast_polyValue] at hv
  rw [show gfClass (s.mem.shAt s.selected[a] q) = ((s.mem.shAt s.selected[a] q).val : ZMod 257) from rfl, hv, hlen]
  refine Finset.sum_congr rfl fun i hi => ?_
  rw [List.getElem?_range (Finset.mem_range.1 hi), Option.map_some, Option.getD_some, gfClass_ofNat]

/-- The samples `reconBlock` reads: the first `BLK` coefficients. -/
theorem reconBlock_eq {s : State} {C : Nat → Nat → Nat} (h : s.ReconLegal) (hS : s.SharesOf C) {q : Nat}
    (hq : q < s.streamLength) (L n : Nat) :
    s.reconBlock ⟨s.selected, s.selected.map (fun j => Fin.ofNat 257 s.xi[j].toNat), L, n⟩ q =
      collectE gfToSample ((List.range s.blk.toNat).map (fun i => Fin.ofNat 257 (C q i))) := by
  simp only [State.reconBlock, interpolate_shares h hS hq]
  obtain ⟨⟨⟨h1, _⟩, _, hb, _⟩, _⟩ := h
  by_cases h2 : s.blk.toNat = 1
  · rw [if_pos h2, h2]
    obtain ⟨k, hk⟩ : ∃ k, s.k.toNat = k + 1 := ⟨s.k.toNat - 1, by omega⟩
    rw [hk, List.range_succ_eq_map]
    simp
  · rw [if_neg h2, hb.resolve_left h2]

/-- A concatenation of blocks of one length, element by element. -/
theorem getElem?_flatten_blocks {α : Type} (f : Nat → Nat → α) (n m q i : Nat) (hq : q < n) (hi : i < m) :
    (((List.range n).map fun q => (List.range m).map (f q)).flatten)[q * m + i]? = some (f q i) := by
  induction n generalizing q f with
  | zero => omega
  | succ n ih =>
    rw [List.range_succ_eq_map, List.map_cons, List.flatten_cons, List.map_map]
    cases q with
    | zero => rw [List.getElem?_append_left (by simpa using hi)]; simp [hi]
    | succ q =>
      rw [List.getElem?_append_right (by simp; nlinarith)]
      have : (q + 1) * m + i - ((List.range m).map (f 0)).length = q * m + i := by
        simp; rw [Nat.add_mul, one_mul]; omega
      rw [this]
      exact ih (fun q => f (q + 1)) q (by omega)

/-- The length of a concatenation of blocks of one length. -/
theorem length_flatten_blocks {α : Type} (f : Nat → Nat → α) (n m : Nat) :
    (((List.range n).map fun q => (List.range m).map (f q)).flatten).length = n * m := by
  induction n generalizing f with
  | zero => simp
  | succ n ih =>
    rw [List.range_succ_eq_map, List.map_cons, List.flatten_cons, List.map_map, List.length_append]
    rw [show ((List.range n).map ((fun q => (List.range m).map (f q)) ∘ Nat.succ)) =
      (List.range n).map (fun q => (List.range m).map (f (q + 1))) from rfl, ih fun q => f (q + 1)]
    simp; ring

/-- The grid recovered from the shares of polynomials whose stored coefficients are Samples. -/
theorem reconGrid_ok {s : State} {C : Nat → Nat → Nat} (h : s.ReconLegal) (hS : s.SharesOf C)
    (hB : ∀ q < s.streamLength, ∀ i < s.blk.toNat, C q i ≤ 255) (L : Nat) :
    s.reconGrid ⟨s.selected, s.selected.map (fun j => Fin.ofNat 257 s.xi[j].toNat), L, s.streamLength⟩ =
      .ok ((List.range s.streamLength).map fun q =>
        (List.range s.blk.toNat).map fun i => BitVec.ofNat 8 (C q i)).flatten := by
  have hb : ∀ q ∈ List.range s.streamLength,
      s.reconBlock ⟨s.selected, s.selected.map (fun j => Fin.ofNat 257 s.xi[j].toNat), L, s.streamLength⟩ q =
        .ok ((List.range s.blk.toNat).map fun i => BitVec.ofNat 8 (C q i)) := by
    intro q hq
    have hq := List.mem_range.1 hq
    rw [reconBlock_eq h hS hq, collectE_ok (g := fun x => BitVec.ofNat 8 x.val)]
    · rw [List.map_map]
      congr 1
      refine List.map_congr_left fun i hi => ?_
      have := hB q hq i (List.mem_range.1 hi)
      simp only [Function.comp_apply, Fin.ofNat]
      rw [Nat.mod_eq_of_lt (by omega)]
    · intro x hx
      obtain ⟨i, hi, rfl⟩ := List.mem_map.1 hx
      have := hB q hq i (List.mem_range.1 hi)
      exact gfToSample_ok (by simp only [Fin.ofNat]; rw [Nat.mod_eq_of_lt (by omega)]; exact this)
  simp only [State.reconGrid, collectE_ok hb]

/-- A stored coefficient of 256 makes the reconstruction fail. -/
theorem reconGrid_error {s : State} {C : Nat → Nat → Nat} (h : s.ReconLegal) (hS : s.SharesOf C)
    {q i : Nat} (hq : q < s.streamLength) (hi : i < s.blk.toNat) (hv : C q i = 256) (L : Nat) :
    s.reconGrid ⟨s.selected, s.selected.map (fun j => Fin.ofNat 257 s.xi[j].toNat), L, s.streamLength⟩ =
      .error .operand := by
  have hg : ∀ x e, gfToSample x = .error e → e = .operand := by
    intro x e he
    rw [gfToSample] at he
    split at he <;> cases he
    rfl
  have hblock : ∀ p < s.streamLength, ∀ e,
      s.reconBlock ⟨s.selected, s.selected.map (fun j => Fin.ofNat 257 s.xi[j].toNat), L, s.streamLength⟩ p =
        .error e → e = .operand := by
    intro p hp e he
    rw [reconBlock_eq h hS hp] at he
    obtain ⟨x, _, hx⟩ := collectE_error_elim he
    exact hg x e hx
  have : collectE (s.reconBlock
      ⟨s.selected, s.selected.map (fun j => Fin.ofNat 257 s.xi[j].toNat), L, s.streamLength⟩)
      (List.range s.streamLength) = .error .operand := by
    refine collectE_error ⟨q, List.mem_range.2 hq, ?_⟩ fun p hp e he => hblock p (List.mem_range.1 hp) e he
    rw [reconBlock_eq h hS hq]
    refine collectE_error ⟨Fin.ofNat 257 (C q i), List.mem_map.2 ⟨i, List.mem_range.2 hi, rfl⟩, ?_⟩
      fun x _ e he => hg x e he
    rw [hv]
    exact gfToSample_error (by decide)
  simp only [State.reconGrid, this]

/-- A recovered grid is no longer than the number of blocks times their length. -/
theorem length_reconGrid {s : State} {r : ReconInput} {vs : List Byte} (h : s.reconGrid r = .ok vs)
    (hx : r.xs.length = s.k.toNat) (hb : s.blk.toNat = 1 ∨ s.blk.toNat = s.k.toNat) :
    vs.length ≤ r.count * s.blk.toNat := by
  unfold State.reconGrid at h
  split at h
  · cases h
  rename_i blocks hblocks
  cases h
  have hall := collectE_ok_iff.1 hblocks
  have hlen : ∀ b ∈ blocks, b.length ≤ s.blk.toNat := by
    intro b hbm
    obtain ⟨i, hi, rfl⟩ := List.getElem_of_mem hbm
    have hq := (List.forall₂_iff_get.1 hall).2 i (by rw [hall.length_eq]; exact hi) hi
    simp only [List.get_eq_getElem] at hq
    unfold State.reconBlock at hq
    split at hq
    · cases hq
    · rename_i c hc
      have hl := (collectE_ok_iff.1 hq).length_eq
      rw [← hl]
      split
      · rename_i h1; rw [List.length_take]; omega
      · rename_i h1
        unfold interpolate at hc
        split at hc
        · cases hc
          rw [solution, List.length_map, List.length_range, hx, hb.resolve_left h1]
        · cases hc
  have hn : blocks.length = r.count := by rw [← hall.length_eq, List.length_range]
  rw [List.length_flatten, ← hn, Nat.mul_comm]
  refine le_trans (List.sum_le_card_nsmul _ s.blk.toNat fun x hx => ?_) ?_
  · obtain ⟨b, hb, rfl⟩ := List.mem_map.1 hx
    exact hlen b hb
  · simp [Nat.mul_comm]

/-- The seed check passes where the selected slots carry one seed. -/
theorem commonSeed_ok {s : State} (h : s.SeedsAgree) {j : Fin 10} (hj : s.Selects j) :
    s.commonSeed s.selected = .ok s.sseed[j] := by
  have hm := mem_selected.2 hj
  cases hl : s.selected with
  | nil => rw [hl] at hm; simp at hm
  | cons a l =>
    have hall : ∀ i ∈ a :: l, s.sseed[i] = s.sseed[a] := fun i hi =>
      h i a (mem_selected.1 (by rw [hl]; exact hi)) (mem_selected.1 (by rw [hl]; simp))
    have hall' : l.all (fun i => decide (s.sseed[i] = s.sseed[a])) = true :=
      List.all_eq_true.2 fun i hi => decide_eq_true (hall i (by simp [hi]))
    rw [State.commonSeed, if_pos hall', hall j (by rw [← hl]; exact hm)]

/-- The seed check fails where two selected slots carry different seeds. -/
theorem commonSeed_error {s : State} (h : ¬ s.SeedsAgree) : s.commonSeed s.selected = .error .invalidParameters := by
  cases hl : s.selected with
  | nil => rfl
  | cons a l =>
    rw [State.commonSeed, if_neg]
    intro hall
    refine h fun i j hi hj => ?_
    have key : ∀ i, s.Selects i → s.sseed[i] = s.sseed[a] := by
      intro i hi
      have := mem_selected.2 hi
      rw [hl] at this
      rcases List.mem_cons.1 this with rfl | hm
      · rfl
      · simpa using List.all_eq_true.1 hall i hm
    rw [key i hi, key j hj]

end Sys2Proof.Machine
end

