-- ==== Sys2Proof/Tests/Slice0.lean ====
section
/-! SUPPORT. Tests: ill-formed commands that `wellFormed` refuses, one decoded word for each command, one step on a
small state for each command with the result the spec gives, and for each statement with hypotheses a state and
operands that meet them. -/

namespace Sys2Proof.Machine

/-! ### Small states -/

/-- The unit of 95_test_vectors.md right after hard reset: `LMAX = 16`, `CMAX = 64`. -/
def unit0 : State := State.hardReset 16 64

/-- The state an outcome goes on to, if it does and satisfies `p`. -/
def goesTo (o : Host.Outcome State Fault Refusal) (p : State → Bool) : Bool :=
  match o with
  | .next t => p t
  | _ => false

/-- The state after a command, for hypotheses of the form `exec i s = .next t`. -/
def afterExec (i : Instr) (s : State) : State :=
  match exec i s with
  | .next t => t
  | _ => s

/-- The state after a step. -/
def afterStep (s : State) : State :=
  match step s with
  | .next t => t
  | _ => s

/-- A state with one command word issued. -/
def withWord (s : State) (w : CmdWord) : State := { s with cmds := [w] }

/-- `unit0` with `F0` and `F1` set. -/
def regs (x y : GF) : State := (unit0.writeF 0 x).writeF 1 y

/-- Consecutive elements from address 0. -/
def cells {α : Type} (vs : List α) : Buf α := bufSetList [] 0 vs

/-- A 2 × 2 grid with threshold 3 of 5, `SEED = 43` (47_scheme.md R252). -/
def grid22 : State := { unit0 with k := 3, n := 5, w := 2, h := 2, seed := 43 }

/-- `grid22` with the secret of the §8 scenario. -/
def secret22 : State := { grid22 with mem := { grid22.mem with sg := cells [10, 20, 30, 40] } }

/-- `grid22` with its diffused grid. -/
def diffused22 : State := { grid22 with mem := { grid22.mem with dg := cells [176, 70, 196, 241] } }

/-- Slots 0, 2 and 4 of 44_share_generation.md R194's example, selected. -/
def shares22 : State :=
  { grid22 with
    sel := 0x15
    xi := #v[1, 0, 3, 0, 5, 0, 0, 0, 0, 0]
    len := #v[4, 0, 4, 0, 4, 0, 0, 0, 0, 0]
    sseed := #v[43, 0, 43, 0, 43, 0, 0, 0, 0, 0]
    mem := { grid22.mem with
      sh := #v[cells [14, 210, 74, 209], [], cells [232, 139, 235, 49], [], cells [59, 114, 165, 18], [], [], [], [],
        []] } }

/-- Two shares of one element in slots 0 and 1, with threshold 2 and a 1 × 1 grid. -/
def pair11 (y0 y1 : GF) : State :=
  { unit0 with
    k := 2
    w := 1
    h := 1
    sel := 3
    xi := #v[1, 2, 0, 0, 0, 0, 0, 0, 0, 0]
    len := #v[1, 1, 0, 0, 0, 0, 0, 0, 0, 0]
    mem := { unit0.mem with sh := #v[[(0, y0)], [(0, y1)], [], [], [], [], [], [], [], []] } }

/-- `K = 3` and the points of 45_reconstruction.md R212's example. -/
def points3 : State :=
  { unit0 with k := 3, xv := #v[1, 3, 5, 0, 0, 0, 0, 0, 0, 0], yv := #v[14, 232, 59, 0, 0, 0, 0, 0, 0, 0] }

/-- `K = 2` and two equal points (95_test_vectors.md V45.10). -/
def equalPoints : State :=
  { unit0 with k := 2, xv := #v[1, 1, 0, 0, 0, 0, 0, 0, 0, 0], yv := #v[5, 6, 0, 0, 0, 0, 0, 0, 0, 0] }

/-- A `2 × 2` system in `MAT`, rows `[a, b | c]` and `[d, e | f]`. -/
def system2 (a b c d e f : GF) : State :=
  { unit0 with
    k := 2
    mat := ((((((Vector.replicate 110 0).set 0 a).set 1 b).set 10 c).set 11 d).set 12 e).set 21 f }

/-- Slot 0 and the carrier of 46_stego.md R236's example. -/
def codec2 : State :=
  { unit0 with
    b := 2
    clen := 4
    xi := unit0.xi.set 0 3
    len := unit0.len.set 0 1
    sseed := unit0.sseed.set 0 43
    mem := { unit0.mem with sh := unit0.mem.sh.set 0 [(0, 181)], cg := cells [0xFF, 0x00, 0xAA, 0x55] } }

/-! ### Ill-formed commands (30_encoding.md R101) -/

theorem test_wf_crw_read_only : Instr.wellFormed (.crw .pmod 0) = false := by decide
theorem test_wf_put_to_tg : Instr.wellFormed (.put .tg 0 0 0) = false := by decide
theorem test_wf_put_slot : Instr.wellFormed (.put .sg 1 0 0) = false := by decide
theorem test_wf_put_share_slot : Instr.wellFormed (.put .sh 10 0 0) = false := by decide
theorem test_wf_get_slot : Instr.wellFormed (.get .tg 1 0) = false := by decide
theorem test_wf_embed_slot : Instr.wellFormed (.embed 10) = false := by decide
theorem test_wf_extract_slot : Instr.wellFormed (.extract 15) = false := by decide

/-! ### Decoding: one written-out word for each command (30_encoding.md R92 to R98 and the example words of the
commands' rules), and words that are none (95_test_vectors.md V30) -/

theorem test_decode_nop : decode 0x0000000000000000 = .ok .nop := by decide
theorem test_decode_rst : decode 0x0100000000000000 = .ok .rst := by decide
theorem test_decode_clre : decode 0x0200000000000000 = .ok .clre := by decide
theorem test_decode_crw : decode 0x030E00000000002B = .ok (.crw .seed 43) := by decide
theorem test_decode_crr : decode 0x040C000000000000 = .ok (.crr .blk) := by decide
theorem test_decode_put : decode 0x0842010000000000 = .ok (.put .sh 2 0 256) := by decide
theorem test_decode_get : decode 0x0940000000000000 = .ok (.get .sh 0 0) := by decide
theorem test_decode_fli : decode 0x1010000000000100 = .ok (.fli 1 256) := by decide
theorem test_decode_fadd : decode 0x1120100000000000 = .ok (.fadd 2 0 1) := by decide
theorem test_decode_fsub : decode 0x1220100000000000 = .ok (.fsub 2 0 1) := by decide
theorem test_decode_fmul : decode 0x1320100000000000 = .ok (.fmul 2 0 1) := by decide
theorem test_decode_finv : decode 0x1410000000000000 = .ok (.finv 1 0) := by decide
theorem test_decode_frd : decode 0x1520000000000000 = .ok (.frd 2) := by decide
theorem test_decode_kseed : decode 0x2000000000000000 = .ok .kseed := by decide
theorem test_decode_knext : decode 0x2130000000000000 = .ok (.knext 3) := by decide
theorem test_decode_pbuild : decode 0x2800000000000000 = .ok .pbuild := by decide
theorem test_decode_pxor : decode 0x2901000000000000 = .ok (.pxor .sg .dg) := by decide
theorem test_decode_peval : decode 0x3001000000000000 = .ok (.peval 0 1) := by decide
theorem test_decode_split : decode 0x3100000000000000 = .ok .split := by decide
theorem test_decode_lagr : decode 0x3870000000000000 = .ok (.lagr 7) := by decide
theorem test_decode_vand : decode 0x3900000000000000 = .ok .vand := by decide
theorem test_decode_solve : decode 0x3A00000000000000 = .ok .solve := by decide
theorem test_decode_recon : decode 0x3B00000000000000 = .ok .recon := by decide
theorem test_decode_embed : decode 0x4020000000000000 = .ok (.embed 2) := by decide
theorem test_decode_extract : decode 0x4150000000000000 = .ok (.extract 5) := by decide
theorem test_decode_distrib : decode 0x4800000000000000 = .ok .distrib := by decide
theorem test_decode_recover : decode 0x4900000000000000 = .ok .recover := by decide

theorem test_decode_rejects :
    decode 0x0000000000000001 = .error .mustBeZero ∧
    decode 0x0308000100000003 = .error .mustBeZero ∧
    decode 0x0304000000000000 = .error .readOnlyRegister ∧
    decode 0x0303000000000000 = .error .unknownRegister ∧
    decode 0x0407000000000000 = .error .unknownRegister ∧
    decode 0x0830000000000000 = .error .selectorRange ∧
    decode 0x08F0000000000000 = .error .selectorRange ∧
    decode 0x094A000000000000 = .error .selectorRange ∧
    decode 0x2920000000000000 = .error .selectorRange ∧
    decode 0x40A0000000000000 = .error .selectorRange ∧
    decode 0x0500000000000000 = .error .unassignedOpcode := by decide

/-! ### One step for each command. The expected values are those of the examples in the commands' rules and of
95_test_vectors.md. -/

/-- The first command after reset, `FLI F1, 256`, the word of 41_field.md R147. -/
theorem test_first_command : goesTo (step (State.reset.withFetchWord 64 0x1010000000000100)) (fun t => decide
    (t.f[1] = 256)) = true := by decide

/-- 40_system_access.md R121. -/
theorem test_nop : goesTo (step (withWord unit0 0)) (fun t => decide (t = unit0.respond 0 0)) = true := by decide

/-- 40_system_access.md R122: the registers go, `BLK` is 1, the buffers stay. -/
theorem test_rst :
    goesTo (exec .rst { secret22 with ks := 5, err := 7 }) (fun t => decide
      (t.k = 0 ∧ t.blk = 1 ∧ t.ks = 0 ∧ t.err = 0 ∧ t.lmax = 16 ∧ t.mem.sgAt 3 = 40)) = true := by decide

/-- 40_system_access.md R123. -/
theorem test_clre :
    goesTo (exec .clre { unit0 with err := 2, einfohi := 0x49000000 }) (fun t => decide
      (t.err = 0 ∧ t.einfohi = 0)) = true := by decide

/-- 40_system_access.md R125: `CRW SEED, 43`. -/
theorem test_crw : goesTo (step (withWord unit0 0x030E00000000002B)) (fun t => decide
    (t.seed = 43 ∧ t.resps = [⟨0, 0⟩])) = true := by decide

/-- 40_system_access.md R125: `CRW K, 16` is refused and recorded. -/
theorem test_crw_refused : goesTo (step (withWord unit0 0x0308000000000010)) (fun t => decide
    (t.k = 0 ∧ t.resps = [⟨0x12, 0⟩] ∧ t.err = 0x12 ∧ t.einfolo = 16 ∧ t.einfohi = 0x03080000)) = true := by decide

/-- 40_system_access.md R124: `CRR PMOD` answers 257. -/
theorem test_crr : goesTo (step (withWord unit0 0x0400000000000000)) (fun t => decide
    (t.resps = [⟨0, 257⟩])) = true := by decide

/-- 40_system_access.md R126: `PUT SG, 0, 3, 40`. -/
theorem test_put : goesTo (step (withWord unit0 0x0800002800000003)) (fun t => decide
    (t.mem.sgAt 3 = 40 ∧ t.resps = [⟨0, 0⟩])) = true := by decide

/-- 95_test_vectors.md V40.11: `PUT XV, 0, 10, 1` is past the end. -/
theorem test_put_address : goesTo (exec (.put .xv 0 10 1) unit0) (fun t => decide (t.resps = [⟨0x11, 0⟩])) = true := by
  decide

/-- 40_system_access.md R127: slot 0 of the §8 scenario starts with 14. -/
theorem test_get : goesTo (exec (.get .sh 0 0) shares22) (fun t => decide (t.resps = [⟨0, 14⟩])) = true := by decide

/-- 20_memory.md R68: the `TG` view of table entry 186 in a grid of 4 is 2. -/
theorem test_get_target :
    goesTo (exec (.get .tg 0 0) { grid22 with mem := { grid22.mem with pm := cells [186] } }) (fun t => decide
      (t.resps = [⟨0, 2⟩])) = true := by decide

/-- 41_field.md R147: 256 is accepted. -/
theorem test_fli : goesTo (exec (.fli 1 256) unit0) (fun t => decide (t.f[1] = 256)) = true := by decide

/-- 41_field.md R147: 257 is refused, not reduced. -/
theorem test_fli_refused : goesTo (exec (.fli 1 257) (regs 5 6)) (fun t => decide
    (t.f[1] = 6 ∧ t.resps = [⟨0x12, 0⟩])) = true := by decide

/-- 41_field.md R148: `200 + 100 = 43`. -/
theorem test_fadd : goesTo (exec (.fadd 2 0 1) (regs 200 100)) (fun t => decide (t.f[2] = 43)) = true := by decide

/-- 41_field.md R148: `256 + 256 = 255`, all three registers one. -/
theorem test_fadd_same : goesTo (exec (.fadd 1 1 1) (regs 0 256)) (fun t => decide (t.f[1] = 255)) = true := by decide

/-- 41_field.md R149: `100 - 200 = 157`. -/
theorem test_fsub : goesTo (exec (.fsub 2 0 1) (regs 100 200)) (fun t => decide (t.f[2] = 157)) = true := by decide

/-- 41_field.md R150: `200 * 100 = 211`. -/
theorem test_fmul : goesTo (exec (.fmul 2 0 1) (regs 200 100)) (fun t => decide (t.f[2] = 211)) = true := by decide

/-- 41_field.md R150: `16 * 16 = 256`. -/
theorem test_fmul_256 : goesTo (exec (.fmul 0 0 0) (regs 16 0)) (fun t => decide (t.f[0] = 256)) = true := by decide

/-- 41_field.md R151: the inverse of 2 is 129. -/
theorem test_finv : goesTo (exec (.finv 1 0) (regs 2 0)) (fun t => decide (t.f[1] = 129)) = true := by decide

/-- 95_test_vectors.md V41.6: the inverse of 0 faults and `F3` keeps its value. -/
theorem test_finv_zero : goesTo (exec (.finv 3 0) unit0) (fun t => decide
    (t.f[3] = 0 ∧ t.resps = [⟨7, 0⟩] ∧ t.einfohi = 0x14300000)) = true := by decide

/-- 41_field.md R152. -/
theorem test_frd : goesTo (exec (.frd 1) (regs 0 211)) (fun t => decide (t.resps = [⟨0, 211⟩])) = true := by decide

/-- 42_keystream.md R164: `SEED = 43`. -/
theorem test_kseed : goesTo (exec .kseed grid22) (fun t => decide (t.ks = 0x0005DEECE646)) = true := by decide

/-- 42_keystream.md R165: the first byte for seed 43 is 186. -/
theorem test_knext : goesTo (exec (.knext 3) { unit0 with ks := 0x0005DEECE646 }) (fun t => decide
    (t.ks = 0xBA3BBE48EFD9 ∧ t.f[3] = 186)) = true := by decide

/-- 42_keystream.md R165: from the reset state. -/
theorem test_knext_zero : goesTo (exec (.knext 0) unit0) (fun t => decide (t.ks = 0xB ∧ t.f[0] = 0)) = true := by
  decide

/-- 43_permutation.md R174. -/
theorem test_pbuild : goesTo (exec .pbuild grid22) (fun t => decide
    (t.mem.pm = cells [186, 82, 218, 217] ∧ t.ks = 0xD95A48FC11AA)) = true := by decide

/-- 43_permutation.md R175: `PAPPLY`. -/
theorem test_pxor :
    goesTo (exec (.pxor .dg .sg) { secret22 with mem := { secret22.mem with pm := cells [186, 82, 218, 217] } })
      (fun t => decide (t.mem.dg = cells [176, 70, 196, 241] ∧ t.mem.sg = secret22.mem.sg)) = true := by decide

/-- 44_share_generation.md R193: `10 + 20·2 + 30·4 = 170`. -/
theorem test_peval :
    goesTo (exec (.peval 0 1) { regs 0 2 with k := 3, cv := #v[10, 20, 30, 9, 0, 0, 0, 0, 0, 0] }) (fun t => decide
      (t.f[0] = 170)) = true := by decide

/-- 44_share_generation.md R194: slots 1 and 4 of the §8 scenario, slot 5 untouched. -/
theorem test_split : goesTo (exec .split diffused22) (fun t => decide
    (t.mem.sh[1] = cells [204, 233, 87, 145] ∧ t.mem.sh[4] = cells [59, 114, 165, 18] ∧ t.mem.sh[5] = [] ∧
      t.xi[4] = 5 ∧ t.len[4] = 4 ∧ t.sseed[4] = 43 ∧ t.xi[5] = 0)) = true := by decide

/-- 95_test_vectors.md V44.7: block mode. -/
theorem test_split_blocks :
    goesTo (exec .split { unit0 with
        k := 2, n := 3, w := 2, h := 2, blk := 2, mem := { unit0.mem with dg := cells [10, 20, 30, 40] } })
      (fun t => decide (t.mem.sh[0] = cells [30, 70] ∧ t.mem.sh[2] = cells [70, 150] ∧ t.len[0] = 2)) = true := by
  decide

/-- 45_reconstruction.md R212. -/
theorem test_lagr : goesTo (exec (.lagr 0) points3) (fun t => decide (t.f[0] = 176)) = true := by decide

/-- 95_test_vectors.md V45.10. -/
theorem test_lagr_equal : goesTo (exec (.lagr 0) equalPoints) (fun t => decide (t.resps = [⟨7, 0⟩])) = true := by decide

/-- 45_reconstruction.md R213. -/
theorem test_vand : goesTo (exec .vand points3) (fun t => decide
    (t.mat[10] = 14 ∧ t.mat[11] = 1 ∧ t.mat[13] = 9 ∧ t.mat[21] = 232 ∧ t.mat[24] = 25 ∧ t.mat[3] = 0)) = true := by
  decide

/-- 45_reconstruction.md R214: pivot 0, rows exchanged, `CV = 253, 5`. -/
theorem test_solve : goesTo (exec .solve (system2 0 1 5 2 3 7)) (fun t => decide
    (t.cv[0] = 253 ∧ t.cv[1] = 5 ∧ t.mat[0] = 1 ∧ t.mat[1] = 0 ∧ t.mat[10] = 253)) = true := by decide

/-- 95_test_vectors.md V45.12: a singular system leaves `MAT`. -/
theorem test_solve_singular : goesTo (exec .solve (system2 1 2 3 2 4 6)) (fun t => decide
    (t.resps = [⟨5, 0⟩] ∧ t.mat = (system2 1 2 3 2 4 6).mat)) = true := by decide

/-- 45_reconstruction.md R215: slots 0, 2 and 4. -/
theorem test_recon : goesTo (exec .recon shares22) (fun t => decide
    (t.mem.dg = cells [176, 70, 196, 241] ∧ t.resps = [⟨0, 0⟩])) = true := by decide

/-- 95_test_vectors.md V45.33: a recovered 256 faults. -/
theorem test_recon_256 : goesTo (exec .recon (pair11 256 256)) (fun t => decide
    (t.mem.dg = [] ∧ t.resps = [⟨0x12, 0⟩])) = true := by decide

/-- 46_stego.md R236. -/
theorem test_embed : goesTo (exec (.embed 0) codec2) (fun t => decide
    (t.mem.cg = cells [0xFE, 0x03, 0xA9, 0x55] ∧ t.scseed = 43 ∧ t.scidx = 3)) = true := by decide

/-- 46_stego.md R237. -/
theorem test_extract :
    goesTo (exec (.extract 5) { codec2 with
        scseed := 43, scidx := 3, len := codec2.len.set 5 1
        mem := { codec2.mem with cg := cells [0xFE, 0x03, 0xA9, 0x55] } })
      (fun t => decide (t.mem.sh[5] = [(0, 181)] ∧ t.xi[5] = 3 ∧ t.sseed[5] = 43)) = true := by decide

/-- 47_scheme.md R252: the §8 scenario. -/
theorem test_distrib : goesTo (exec .distrib secret22) (fun t => decide
    (t.mem.dg = cells [176, 70, 196, 241] ∧ t.mem.sh[2] = cells [232, 139, 235, 49] ∧ t.ks = 0xD95A48FC11AA)) =
    true := by decide

/-- 47_scheme.md R253: the §8 scenario back from slots 0, 2 and 4. -/
theorem test_recover : goesTo (exec .recover { shares22 with seed := 0 }) (fun t => decide
    (t.mem.sg = cells [10, 20, 30, 40] ∧ t.seed = 43)) = true := by decide

/-- 47_scheme.md R253: with a share missing nothing is written (95_test_vectors.md V45.18). -/
theorem test_recover_missing : goesTo (exec .recover { shares22 with sel := 0x05 }) (fun t => decide
    (t.mem = shares22.mem ∧ t.resps = [⟨2, 0⟩])) = true := by decide

/-! ### Witnesses: for each statement with hypotheses, states and operands that meet them together, at boundary values
of each clause -/

theorem witness_DecodeInvertsEncode : Instr.wellFormed (.put .sh 9 0xFFFFFFFF 0xFFFF) = true := by decide

theorem witness_EncodeInvertsDecode : decode 0x4149000000000000 = .error .mustBeZero ∧
    decode 0x4190000000000000 = .ok (.extract 9) := by decide

/-- The first and the last `CR` numbers of a row, and a word no row admits. -/
theorem witness_LegalWordsAreTheOpcodeTable :
    (opcodeTable.get ⟨3, by decide⟩).admits 0x03080000FFFFFFFF = true ∧
    (opcodeTable.get ⟨3, by decide⟩).admits 0x0349000000000000 = true ∧
    (opcodeTable.get ⟨23, by decide⟩).admits 0x4090000000000000 = true ∧
    opcodeTable.any (fun r => r.admits 0x40A0000000000000) = false := by decide

/-- Both ends of every range of unassigned opcodes. -/
theorem witness_UnassignedOpcodesAreIllegal :
    [0x05, 0x07, 0x0A, 0x0F, 0x16, 0x1F, 0x22, 0x27, 0x2A, 0x2F, 0x32, 0x37, 0x3C, 0x3F, 0x42, 0x47, 0x4A, 0xFF].all
      (fun op => decide ((BitVec.ofNat 64 (op * 2 ^ 56)).toNat / 2 ^ 56 = op)) = true := by decide

theorem witness_IllegalWordFaults : (withWord unit0 0xFFFFFFFFFFFFFFFF).cmds = [0xFFFFFFFFFFFFFFFF] ∧
    decode 0xFFFFFFFFFFFFFFFF = .error .unassignedOpcode := by decide

theorem witness_StepRunsDecodedCommand : (withWord unit0 0).cmds = [0] ∧ decode 0 = .ok .nop := by decide

theorem witness_StepWaitsWithoutCommand : unit0.cmds = [] := by decide

theorem witness_OneResponsePerCommand : (withWord unit0 0x0400000000000000).cmds = [0x0400000000000000] := by decide

/-- `FINV F3, F0` with `F0 = 0`, first with no error recorded, then with one. -/
theorem witness_FaultIsAllOrNothing :
    (step (withWord unit0 0x1430000000000000) = .next (afterStep (withWord unit0 0x1430000000000000)) ∧
      (afterStep (withWord unit0 0x1430000000000000)).resps = [⟨7, 0⟩]) ∧
    step (withWord { unit0 with err := 2 } 0x1430000000000000) =
        .next (afterStep (withWord { unit0 with err := 2 } 0x1430000000000000)) ∧
      (afterStep (withWord { unit0 with err := 2 } 0x1430000000000000)).resps = [⟨7, 0⟩] := by
  refine ⟨⟨rfl, ?_⟩, rfl, ?_⟩ <;> decide

/-- `CLRE` with an error recorded, `NOP`, and a fault with `ERR = 0`. -/
theorem witness_FirstErrorSticks :
    (step (withWord { unit0 with err := 2 } 0x0200000000000000) =
        .next (afterStep (withWord { unit0 with err := 2 } 0x0200000000000000)) ∧
      decode 0x0200000000000000 = .ok .clre ∧
      (afterStep (withWord { unit0 with err := 2 } 0x0200000000000000)).resps = [⟨0, 0⟩]) ∧
    (step (withWord { unit0 with err := 2 } 0) = .next (afterStep (withWord { unit0 with err := 2 } 0)) ∧
      decode 0 ≠ .ok .clre ∧ decode 0 ≠ .ok .rst ∧
      (afterStep (withWord { unit0 with err := 2 } 0)).resps = [⟨0, 0⟩]) ∧
    step (withWord unit0 0x1430000000000000) = .next (afterStep (withWord unit0 0x1430000000000000)) ∧
      unit0.err = 0 ∧ (afterStep (withWord unit0 0x1430000000000000)).resps = [⟨7, 0⟩] := by
  refine ⟨⟨rfl, ?_, ?_⟩, ⟨rfl, ?_, ?_, ?_⟩, rfl, ?_, ?_⟩ <;> decide

/-- A command that succeeds and one that faults. -/
theorem witness_CommandsWriteOnlyTheirTableRow :
    (exec (.fadd 2 0 1) (regs 200 100) = .next (afterExec (.fadd 2 0 1) (regs 200 100)) ∧
      (afterExec (.fadd 2 0 1) (regs 200 100)).resps = [⟨0, 0⟩] ∧ Part.ks ∉ writtenParts (.fadd 2 0 1)) ∧
    exec .split unit0 = .next (afterExec .split unit0) ∧ (afterExec .split unit0).resps = [⟨1, 0⟩] := by
  refine ⟨⟨rfl, ?_, ?_⟩, rfl, ?_⟩ <;> decide

/-- The least and the greatest capacities. -/
theorem witness_ResetMeetsInvariant :
    (1 ≤ 1 ∧ 1 < 2 ^ 28) ∧ (1 ≤ 2 ^ 28 - 1 ∧ 2 ^ 28 - 1 < 2 ^ 28) ∧ 1 ≤ 2 ^ 32 - 1 ∧ 2 ^ 32 - 1 < 2 ^ 32 := by decide

/-- The invariant holds of a state with registers, buffers, an error record and responses, and it steps. -/
theorem witness_StepKeepsInvariant :
    (withWord (afterExec .split diffused22) 0x1430000000000000).Inv ∧
    step (withWord (afterExec .split diffused22) 0x1430000000000000) =
      .next (afterStep (withWord (afterExec .split diffused22) 0x1430000000000000)) := by
  refine ⟨?_, rfl⟩
  decide

theorem witness_UnconfiguredCommandsFault : (0#32).toNat < 1 ∧ (15#32).toNat < 16 := by decide

/-- Each kind of register at its maximum. -/
theorem witness_CrwWritesOneRegister :
    CReg.writable .k = true ∧ (15#32).toNat ≤ 15 ∧ CReg.writable (.xi 9) = true ∧ (65535#32).toNat ≤ 65535 ∧
    CReg.writable .sel = true ∧ (1023#32).toNat ≤ 1023 ∧ CReg.writable .clen = true ∧ (64#32).toNat ≤ unit0.cmax ∧
    CReg.writable (.len 0) = true ∧ (16#32).toNat ≤ unit0.lmax := by decide

/-- A read-only register, and each kind of writable register one above its maximum. -/
theorem witness_CrwRefusals :
    CReg.kshi ∈ [CReg.pmod, .lmax, .cmax, .status, .einfolo, .einfohi, .kslo, .kshi] ∧
    15 < (16#32).toNat ∧ 65535 < (65536#32).toNat ∧ 1023 < (1024#32).toNat ∧ unit0.cmax < (65#32).toNat ∧
    unit0.lmax < (17#32).toNat := by decide

theorem witness_CrrReads : unit0.lmax < 2 ^ 32 ∧ unit0.cmax < 2 ^ 32 := by decide

/-- The last element of each kind of space with its greatest value. -/
theorem witness_PutStoresOneElement :
    (Space.pm ≠ .tg ∧ (15#32).toNat < unit0.lmax ∧ (255#16).toNat ≤ 255) ∧
    (Space.cg ≠ .tg ∧ (63#32).toNat < unit0.cmax) ∧
    (Space.sh ≠ .tg ∧ (Space.sh ≠ .sh → (9 : Fin 10) = 0) ∧ (256#16).toNat ≤ 256) ∧
    ((9#32).toNat < 10 ∧ (109#32).toNat < 110) := by decide

/-- For each clause an operand at the edge of its range: slots 10 and 1, the first address past the end, the first
value too great, and an empty grid. -/
theorem witness_PutGetRefusals :
    ¬ ((10 : Fin 16).val ≤ 9) ∧ (Space.sg ≠ .sh ∧ (1 : Fin 16) ≠ 0) ∧ (9 : Fin 16).val ≤ 9 ∧
    unit0.lmax ≤ (16#32).toNat ∧ (15#32).toNat < unit0.lmax ∧ 255 < (256#16).toNat ∧ 256 < (257#16).toNat ∧
    ¬ unit0.GridLegal := by decide

theorem witness_GetReadsOneElement :
    (grid22.GridLegal ∧ (15#32).toNat < grid22.lmax) ∧ (63#32).toNat < grid22.cmax ∧ (9#32).toNat < 10 ∧
    (109#32).toNat < 110 := by decide

theorem witness_FliLoadsOrRefuses : (256#32).toNat ≤ 256 ∧ 256 < (257#32).toNat := by decide

theorem witness_FinvInvertsOrFaults : (regs 256 0).f[(0 : Fin 16)] ≠ 0 ∧ (regs 256 0).f[(1 : Fin 16)] = 0 := by decide

theorem witness_InverseIsUnique : 1 ≤ (1 : GF).val ∧ 1 ≤ (256 : GF).val ∧ (256 * 256) % 257 = 1 ∧
    unit0.f[(0 : Fin 16)] = 0 := by decide

theorem witness_FieldLaws : finv 2 = some 129 := by decide

/-- Two states with one seed and different generators, each about to run `KSEED` and two draws. -/
theorem witness_KeystreamIsDeterministic :
    let s : State := { grid22 with cmds := [0x2000000000000000, 0x2130000000000000, 0x2130000000000000] }
    let s' : State := { unit0 with
      seed := 43, ks := 5, cmds := [0x2000000000000000, 0x2140000000000000, 0x2140000000000000] }
    s.seed = s'.seed ∧ s.cmds = encode .kseed :: List.replicate (1 + 1) (encode (.knext 3)) ∧
      s'.cmds = encode .kseed :: List.replicate (1 + 1) (encode (.knext 4)) := by decide

/-- The states of the generator from seed 43. -/
theorem witness_PbuildBuildsTable :
    let st : Nat → Nat := fun i =>
      Nat.rec (0x5DEEC * 2 ^ 16 + (0xE66D ^^^ grid22.seed.toNat)) (fun _ v => (0x5DEECE66D * v + 0xB) % 2 ^ 48) i
    grid22.GridLegal ∧ st 0 = 0x5DEEC * 2 ^ 16 + (0xE66D ^^^ grid22.seed.toNat) ∧
      ∀ i, st (i + 1) = (0x5DEECE66D * st i + 0xB) % 2 ^ 48 :=
  ⟨by decide, rfl, fun _ => rfl⟩

theorem witness_TableDependsOnSeedAndLength :
    grid22.GridLegal ∧ { grid22 with h := 1 }.GridLegal ∧ grid22.seed = { grid22 with h := 1 }.seed ∧
    exec .pbuild grid22 = .next (afterExec .pbuild grid22) ∧
    exec .pbuild { grid22 with h := 1 } = .next (afterExec .pbuild { grid22 with h := 1 }) := by
  refine ⟨?_, ?_, ?_, rfl, rfl⟩ <;> decide

/-- A grid as long as the buffers. -/
theorem witness_PxorMasksGrid : { unit0 with w := 16, h := 1 }.GridLegal := by decide

theorem witness_EmptyOrOversizeGridFaults :
    (unit0.w.toNat = 0) ∧ ({ unit0 with w := 1 }.h.toNat = 0) ∧
    { unit0 with w := 17, h := 1 }.lmax < 17 * 1 := by decide

theorem witness_DiffusionIsInvolution : grid22.GridLegal := by decide

theorem witness_PevalEvaluatesPolynomial : { unit0 with k := 2 }.ThresholdLegal ∧ { unit0 with k := 10 }.ThresholdLegal := by
  decide

theorem witness_ThresholdOutOfRangeFaults : ¬ { unit0 with k := 1 }.ThresholdLegal ∧
    ¬ { unit0 with k := 11 }.ThresholdLegal := by decide

/-- Single-pixel mode, and block mode with every slot. -/
theorem witness_SplitGeneratesShares : grid22.SplitLegal ∧
    { unit0 with k := 10, n := 10, w := 10, h := 1, blk := 10 }.SplitLegal := by decide

theorem witness_SplitChecksAreExact : grid22.SplitLegal ∧ ¬ { grid22 with n := 2 }.SplitLegal ∧
    ¬ { grid22 with blk := 3 }.SplitLegal := by decide

theorem witness_LagrInterpolates : points3.ThresholdLegal ∧
    ∀ i < points3.k.toNat, ∀ j < points3.k.toNat, vecAt points3.xv i = vecAt points3.xv j → i = j := by decide

theorem witness_LagrFaultsOnEqualPoints : equalPoints.ThresholdLegal ∧ 0 < 1 ∧ 1 < equalPoints.k.toNat ∧
    vecAt equalPoints.xv 0 = vecAt equalPoints.xv 1 := by decide

theorem witness_VandBuildsSystem : points3.ThresholdLegal := by decide

/-- The identity sends only the zero vector to zero. -/
theorem witness_SolveFindsSolution :
    (system2 1 0 7 0 1 9).ThresholdLegal ∧
    ∀ v : Nat → Nat, (∀ i < (system2 1 0 7 0 1 9).k.toNat, rowValue (system2 1 0 7 0 1 9).mat 2 i v = 0) →
      ∀ j < (system2 1 0 7 0 1 9).k.toNat, v j % 257 = 0 := by
  refine ⟨by decide, fun v h j hj => ?_⟩
  have h0 := h 0 (by decide)
  have h1 := h 1 (by decide)
  have e : (vecAt (system2 1 0 7 0 1 9).mat 0 = 1 ∧ vecAt (system2 1 0 7 0 1 9).mat 1 = 0) ∧
      vecAt (system2 1 0 7 0 1 9).mat 11 = 0 ∧ vecAt (system2 1 0 7 0 1 9).mat 12 = 1 := by decide
  simp only [rowValue, Finset.sum_range_succ, Finset.sum_range_zero, e] at h0 h1
  have hj : j < 2 := hj
  interval_cases j
  · simpa using h0
  · simpa using h1

/-- `[1, 2]` and `[2, 4]` send `(255, 1)` to zero. -/
theorem witness_SolveFaultsOnSingular :
    (system2 1 2 3 2 4 6).ThresholdLegal ∧
    (∀ i < (system2 1 2 3 2 4 6).k.toNat,
      rowValue (system2 1 2 3 2 4 6).mat 2 i (fun j => if j = 0 then 255 else 1) = 0) ∧
    1 < (system2 1 2 3 2 4 6).k.toNat ∧ 1 % 257 ≠ 0 := by decide

theorem witness_LagrangeAgreesWithSolver : points3.ThresholdLegal ∧
    ∀ i < points3.k.toNat, ∀ j < points3.k.toNat, vecAt points3.xv i = vecAt points3.xv j → i = j := by decide

theorem witness_EqualPointsMakeSystemSingular : equalPoints.ThresholdLegal ∧ 0 < 1 ∧ 1 < equalPoints.k.toNat ∧
    vecAt equalPoints.xv 0 = vecAt equalPoints.xv 1 := by decide

/-- The shares 28 + 243·x of one position. -/
theorem witness_ReconRecoversCoefficients :
    (pair11 14 0).ReconLegal ∧ (∀ i : Fin 2, (if i.val = 0 then 28 else 243) ≤ 256) ∧
    (∀ q i, (fun _ m => if m = 0 then 28 else 243 : Nat → Nat → Nat) q i ≤ 256) ∧
    (pair11 14 0).SharesOf (fun _ m => if m = 0 then 28 else 243) ∧
    (∀ q < (pair11 14 0).streamLength, ∀ i < (pair11 14 0).blk.toNat,
      (fun _ m => if m = 0 then 28 else 243 : Nat → Nat → Nat) q i ≤ 255) := by
  refine ⟨by decide, by decide, fun _ i => ?_, by decide, by decide⟩
  by_cases h : i = 0 <;> simp [h]

/-- The shares 256 + 0·x (95_test_vectors.md V45.33), whose seeds agree. -/
theorem witness_Recovered256Faults :
    (pair11 256 256).ReconLegal ∧ (∀ q i, (fun _ m => if m = 0 then 256 else 0 : Nat → Nat → Nat) q i ≤ 256) ∧
    (pair11 256 256).SharesOf (fun _ m => if m = 0 then 256 else 0) ∧ 0 < (pair11 256 256).streamLength ∧
    0 < (pair11 256 256).blk.toNat ∧ (pair11 256 256).SeedsAgree := by
  refine ⟨by decide, fun _ i => ?_, by decide, by decide, by decide, by decide⟩
  by_cases h : i = 0 <;> simp [h]

/-- `shares22` with a field changed: the selection, one index, one length, one seed. -/
def sharesSel (v : BitVec 10) : State := { shares22 with sel := v }
/-- `shares22` with another index in slot 2. -/
def sharesXi (v : BitVec 16) : State := { shares22 with xi := shares22.xi.set 2 v }
/-- `shares22` with another length in slot 4. -/
def sharesLen (v : BitVec 32) : State := { shares22 with len := shares22.len.set 4 v }
/-- `shares22` with another seed in slot 4. -/
def sharesSeed (v : BitVec 16) : State := { shares22 with sseed := shares22.sseed.set 4 v }

/-- For each check a state that passes those before it and fails it (95_test_vectors.md V45.18 to V45.29). -/
theorem witness_ReconChecksInOrder :
    ¬ { shares22 with k := 11 }.ReconGridLegal ∧
    ((sharesSel 0x05).ReconGridLegal ∧ (sharesSel 0x05).selectedCount < (sharesSel 0x05).k.toNat) ∧
    ((sharesSel 0x1D).ReconGridLegal ∧ (sharesSel 0x1D).k.toNat < (sharesSel 0x1D).selectedCount) ∧
    ((sharesXi 11).ReconGridLegal ∧ (sharesXi 11).selectedCount = (sharesXi 11).k.toNat ∧
      ¬ (sharesXi 11).IndexesInRange) ∧
    ((sharesXi 0).ReconGridLegal ∧ (sharesXi 0).selectedCount = (sharesXi 0).k.toNat ∧
      ¬ (sharesXi 0).IndexesInRange) ∧
    ((sharesXi 1).ReconGridLegal ∧ (sharesXi 1).selectedCount = (sharesXi 1).k.toNat ∧ (sharesXi 1).IndexesInRange ∧
      ¬ (sharesXi 1).IndexesDistinct) ∧
    ((sharesLen 3).ReconGridLegal ∧ (sharesLen 3).selectedCount = (sharesLen 3).k.toNat ∧
      (sharesLen 3).IndexesInRange ∧ (sharesLen 3).IndexesDistinct ∧ ¬ (sharesLen 3).LengthsMatch) ∧
    ((sharesSeed 44).ReconLegal ∧ ¬ (sharesSeed 44).SeedsAgree) := by
  refine ⟨?_, ?_, ?_, ?_, ?_, ?_, ?_, ?_⟩ <;> decide

theorem witness_ReconNeverSingular : exec .recon shares22 = .next (afterExec .recon shares22) ∧
    (afterExec .recon shares22).resps = [⟨0, 0⟩] := by
  refine ⟨rfl, ?_⟩
  decide

/-- Shares 1, 3 and 5 of the five. -/
theorem witness_SplitReconRoundTrip :
    let t := afterExec .split diffused22
    let u : State := { t with sel := 0x15 }
    diffused22.SplitLegal ∧ exec .split diffused22 = .next t ∧ u.k = t.k ∧ u.w = t.w ∧ u.h = t.h ∧ u.blk = t.blk ∧
    u.lmax = t.lmax ∧ u.selectedCount = u.k.toNat ∧ (∀ j : Fin 10, u.Selects j → j.val < diffused22.n.toNat) ∧
    ∀ j : Fin 10, u.Selects j → u.xi[j] = t.xi[j] ∧ u.len[j] = t.len[j] ∧
      ∀ q < diffused22.streamLength, u.mem.shAt j q = t.mem.shAt j q := by
  refine ⟨by decide, rfl, rfl, rfl, rfl, rfl, rfl, by decide, by decide, fun j _ => ⟨rfl, rfl, fun q _ => rfl⟩⟩

theorem witness_EmbedWritesGroups : codec2.WidthLegal ∧ codec2.FitsCarrier 0 ∧
    ∀ i < codec2.len[(0 : Fin 10)].toNat, (codec2.mem.shAt 0 i).val ≤ 255 := by decide

theorem witness_ExtractAssemblesBytes : codec2.WidthLegal ∧ codec2.FitsCarrier 0 ∧
    { codec2 with b := 1, clen := 8 }.WidthLegal ∧ { codec2 with b := 1, clen := 8 }.FitsCarrier 0 ∧
    { codec2 with b := 8 }.WidthLegal := by decide

/-- Slot 0 embedded and extracted into slot 5. -/
theorem witness_EmbedExtractRoundTrip :
    let t := afterExec (.embed (slotField 0)) codec2
    let u : State := { t with len := t.len.set 5 1 }
    exec (.embed (slotField 0)) codec2 = .next t ∧ t.resps = [⟨0, 0⟩] ∧ u.b = t.b ∧ u.clen = t.clen ∧
    u.scseed = t.scseed ∧ u.scidx = t.scidx ∧ u.len[(5 : Fin 10)] = t.len[(0 : Fin 10)] ∧
    ∀ a < t.clen.toNat, u.mem.cgAt a = t.mem.cgAt a := by
  refine ⟨rfl, by decide, rfl, rfl, rfl, rfl, by decide, fun _ _ => rfl⟩

/-- Slot 10, width 3, a carrier one byte short, and an element of 256. -/
theorem witness_CodecRefusals : 9 < (10 : Fin 16).val ∧ ¬ { codec2 with b := 3 }.WidthLegal ∧
    (codec2.WidthLegal ∧ ¬ { codec2 with clen := 3 }.FitsCarrier 0) ∧
    codec2.FitsCarrier 0 ∧
    ∃ i < codec2.len[(0 : Fin 10)].toNat,
      (({ codec2.mem with sh := codec2.mem.sh.set 0 [(0, 256)] } : Memory).shAt 0 i).val = 256 := by
  refine ⟨by decide, by decide, by decide, by decide, 0, by decide, by decide⟩

theorem witness_DistribIsBuildMaskSplit : secret22.SplitLegal := by decide

theorem witness_RecoverIsReconBuildUnmask :
    (pair11 14 0).ReconLegal ∧ (pair11 14 0).SeedsAgree ∧ (pair11 14 0).Selects 0 ∧
    (∀ q i, (fun _ m => if m = 0 then 28 else 243 : Nat → Nat → Nat) q i ≤ 256) ∧
    (pair11 14 0).SharesOf (fun _ m => if m = 0 then 28 else 243) ∧
    (∀ q < (pair11 14 0).streamLength, ∀ i < (pair11 14 0).blk.toNat,
      (fun _ m => if m = 0 then 28 else 243 : Nat → Nat → Nat) q i ≤ 255) := by
  refine ⟨by decide, by decide, by decide, fun _ i => ?_, by decide, by decide⟩
  by_cases h : i = 0 <;> simp [h]

/-- Shares 1, 3 and 5 of the §8 scenario. -/
theorem witness_DistribRecoverRoundTrip :
    let t := afterExec .distrib secret22
    let u : State := { t with sel := 0x15 }
    secret22.SplitLegal ∧ exec .distrib secret22 = .next t ∧ u.k = t.k ∧ u.w = t.w ∧ u.h = t.h ∧ u.blk = t.blk ∧
    u.lmax = t.lmax ∧ u.selectedCount = u.k.toNat ∧ (∀ j : Fin 10, u.Selects j → j.val < secret22.n.toNat) ∧
    ∀ j : Fin 10, u.Selects j → u.xi[j] = t.xi[j] ∧ u.len[j] = t.len[j] ∧ u.sseed[j] = t.sseed[j] ∧
      ∀ q < secret22.streamLength, u.mem.shAt j q = t.mem.shAt j q := by
  refine ⟨by decide, rfl, rfl, rfl, rfl, rfl, rfl, by decide, by decide, fun j _ => ⟨rfl, rfl, rfl, fun q _ => rfl⟩⟩

end Sys2Proof.Machine
end

section
/-! The invariant at hard reset (10_state.md R50, R51; 00_scope.md R11): each clause of `State.Inv` for the state
after hard reset, and the ranges of the machine's own capacities. -/

namespace Sys2Proof.Machine

/-! ### The machine's own capacities -/

/-- 00_scope.md R11: every choice of the free constant behind `LMAX` is admissible. -/
theorem config_lmax_admissible : 1 ≤ Config.lmax ∧ Config.lmax < 2 ^ 28 := by
  have hchoice := Config.lmaxChoice.rev.isLt
  unfold Config.lmax
  omega

/-- 00_scope.md R11: every choice of the free constant behind `CMAX` is admissible. -/
theorem config_cmax_admissible : 1 ≤ Config.cmax ∧ Config.cmax < 2 ^ 32 := by
  have hchoice := Config.cmaxChoice.rev.isLt
  unfold Config.cmax
  omega

/-! ### What hard reset leaves in the fields the invariant reads -/

theorem hardReset_len_get (L C : Nat) (j : Fin 10) : (State.hardReset L C).len[j] = 0 :=
  Vector.getElem_replicate j.isLt

theorem unwritten_sh_get (j : Fin 10) : Memory.unwritten.sh[j] = [] :=
  Vector.getElem_replicate j.isLt

/-! ### The clauses of the invariant -/

/-- `CLEN` and every `LEN[j]` are 0 after hard reset, so no capacity is too small for them. -/
theorem hardReset_registersInRange (L C : Nat) : (State.hardReset L C).RegistersInRange := by
  refine ⟨Nat.zero_le C, fun j => ?_⟩
  rw [hardReset_len_get]
  exact Nat.zero_le L

/-- No buffer lists an element after hard reset, so none has an address outside its buffer. -/
theorem hardReset_addressesInRange (L C : Nat) : (State.hardReset L C).AddressesInRange := by
  have hmem : (State.hardReset L C).mem = Memory.unwritten := rfl
  refine ⟨?sg, ?dg, ?pm, fun j p hp => ?sh, ?cg⟩
  case sh =>
    rw [hmem, unwritten_sh_get] at hp
    exact absurd hp List.not_mem_nil
  all_goals exact List.forall_mem_nil _

theorem hardReset_errorRecordSound (L C : Nat) : (State.hardReset L C).ErrorRecordSound :=
  .inl ⟨rfl, rfl, rfl⟩

theorem hardReset_responsesSound (L C : Nat) : (State.hardReset L C).ResponsesSound :=
  List.forall_mem_nil _

/-- The capacities are the only clause of the invariant that hard reset does not establish by itself. -/
theorem hardReset_inv {L C : Nat} (hL : 1 ≤ L ∧ L < 2 ^ 28) (hC : 1 ≤ C ∧ C < 2 ^ 32) :
    (State.hardReset L C).Inv :=
  ⟨⟨hL.1, hL.2, hC⟩, hardReset_registersInRange L C, memory_wf_unwritten, hardReset_addressesInRange L C,
    hardReset_errorRecordSound L C, hardReset_responsesSound L C⟩

/-- Settles O14: `State.reset` is the hard reset with the capacities of `Config`, which are admissible. -/
theorem resetMeetsInvariant : Obligations.ResetMeetsInvariant :=
  ⟨fun _ _ hL1 hL2 hC1 hC2 => hardReset_inv ⟨hL1, hL2⟩ ⟨hC1, hC2⟩,
    hardReset_inv config_lmax_admissible config_cmax_admissible⟩

end Sys2Proof.Machine
end

section
/-! What a step and a command can do, said once for all commands: the step by the state of the port, and for each
command the state it hands over when it does not fault. -/

namespace Sys2Proof.Machine

/-! ### The step -/

/-- 70_reset_and_hazards.md R310: the unit waits. -/
theorem step_of_no_command {s : State} (h : s.cmds = []) : step s = .next s := by
  have hfetch : fetch s = none := by rw [fetch, h]
  rw [step, hfetch]

/-- 40_system_access.md R120: the oldest issued word is taken from the port and executed. -/
theorem step_of_decode {s : State} {w : CmdWord} {rest : List CmdWord} {i : Instr} (h : s.cmds = w :: rest)
    (hd : decode w = .ok i) : step s = exec i { s with cmds := rest } := by
  have hfetch : fetch s = some (w, { s with cmds := rest }) := by rw [fetch, h]
  simp only [step, hfetch, hd]

/-- 30_encoding.md R103: a word that is no legal command is taken from the port and faults. -/
theorem step_of_reject {s : State} {w : CmdWord} {rest : List CmdWord} {e : Reject} (h : s.cmds = w :: rest)
    (hd : decode w = .error e) : step s = .next (takeFault .illegal w { s with cmds := rest }) := by
  have hfetch : fetch s = some (w, { s with cmds := rest }) := by rw [fetch, h]
  simp only [step, hfetch, hd]

/-! ### What a command hands over -/

/-- A stream is no longer than the grid (44_share_generation.md R191). -/
theorem streamLength_le_lmax {s : State} (h : s.GridLegal) : s.streamLength ≤ s.lmax :=
  le_trans (Nat.div_le_self _ _) h.2.2

/-- Command `i`, started in `s`, may commit `u`: the update each command makes, with what its checks say about the
lengths, the addresses and the stored control value. What a field register, a recovered grid, a carrier or a slot is
given is left open: neither the frame nor the invariant depends on it. `exec_ends` ties it to `exec`. -/
def Committed (i : Instr) (s u : State) : Prop :=
  match i with
  | .nop | .crr _ | .get _ _ _ | .frd _ => u = s
  | .rst => u = softReset s
  | .clre => u = clearError s
  | .crw cr imm => imm.toNat ≤ s.maxCR cr ∧ u = s.writeCR cr imm
  | .put sp _ addr data =>
    ∃ j, sp ≠ .tg ∧ addr.toNat < s.spaceSize sp ∧ u = s.setElement sp j addr.toNat data.toNat
  | .fli a _ | .fadd a _ _ | .fsub a _ _ | .fmul a _ _ | .finv a _ | .peval a _ | .lagr a => ∃ v, u = s.writeF a v
  | .kseed => u = { s with ks := ksSeed s.seed }
  | .knext a => u = { s with ks := ksStep s.ks }.writeF a (sampleToGF (ksByte s.ks))
  | .pbuild => ∃ L ≤ s.lmax, u = s.buildTable L
  | .pxor dst src => ∃ L ≤ s.lmax, u = s.xorGrid dst src L
  | .split => ∃ count ≤ s.lmax, u = s.splitStreams count
  | .vand => ∃ k A, u = s.storeSystem k A
  | .solve => ∃ k A c, u = (s.storeSystem k A).storeCoeffs k c
  | .recon => ∃ vs : List Byte, vs.length ≤ s.lmax ∧ u = s.writeGrid .dg vs
  | .embed _ =>
    ∃ (vs : List Byte) (seed idx : BitVec 16), vs.length ≤ s.clen.toNat ∧
      u = { s with mem := { s.mem with cg := bufSetList s.mem.cg 0 vs }, scseed := seed, scidx := idx }
  | .extract _ =>
    ∃ (j : Fin 10) (vs : List GF), vs.length = s.len[j].toNat ∧
      u = { s with
        mem := { s.mem with sh := s.mem.sh.set j.val (bufSetList s.mem.sh[j] 0 vs) }
        xi := s.xi.set j.val s.scidx
        sseed := s.sseed.set j.val s.scseed }
  | .distrib =>
    ∃ L ≤ s.lmax, ∃ count ≤ s.lmax, u = ((s.buildTable L).xorGrid .dg .sg L).splitStreams count
  | .recover =>
    ∃ (vs : List Byte) (seed : BitVec 16), vs.length ≤ s.lmax ∧ ∃ L ≤ s.lmax,
      u = ({ s.writeGrid .dg vs with seed := seed }.buildTable L).xorGrid .sg .dg L

/-- A command ends with what it hands over, or with its fault: the data it answers is no part of either. -/
theorem complete_ends {i : Instr} {s t : State} {r : Except ErrKind (State × BitVec 32)}
    (h : complete i s r = .next t) (hr : ∀ u d, r = .ok (u, d) → Committed i s u) :
    (∃ u d, Committed i s u ∧ t = u.respond 0 d) ∨ ∃ e, t = takeFault e (encode i) s := by
  rcases complete_cases h with ⟨u, d, hu, ht⟩ | ⟨e, -, ht⟩
  · exact .inl ⟨u, d, hr u d hu, ht⟩
  · exact .inr ⟨e, ht⟩

/-- The form of `complete_ends` for a command that answers no data. -/
theorem completeQuiet_ends {i : Instr} {s t : State} {r : Except ErrKind State}
    (h : completeQuiet i s r = .next t) (hr : ∀ u, r = .ok u → Committed i s u) :
    (∃ u d, Committed i s u ∧ t = u.respond 0 d) ∨ ∃ e, t = takeFault e (encode i) s := by
  rcases completeQuiet_cases h with ⟨u, hu, ht⟩ | ⟨e, -, ht⟩
  · exact .inl ⟨u, 0, hr u hu, ht⟩
  · exact .inr ⟨e, ht⟩

/-- The grid `RECON` and `RECOVER` write is no longer than `LMAX` (45_reconstruction.md R215, R216). -/
theorem length_reconGrid_le_lmax {s : State} {r : ReconInput} {vs : List Byte} (hr : s.reconChecks = .ok r)
    (hvs : s.reconGrid r = .ok vs) : vs.length ≤ s.lmax := by
  obtain ⟨⟨⟨-, hgrid, hblk, -⟩, hcount, -⟩, rfl⟩ := reconChecks_ok hr
  calc vs.length ≤ s.streamLength * s.blk.toNat :=
        length_reconGrid hvs ((List.length_map _).trans hcount) hblk
    _ ≤ s.gridCells := Nat.div_mul_le_self _ _
    _ ≤ s.lmax := hgrid.2.2

/-- Every command ends with a state of its row of `Committed` and status 0, or with its fault taken in the state
before it. -/
theorem exec_ends {i : Instr} {s t : State} (h : exec i s = .next t) :
    (∃ u d, Committed i s u ∧ t = u.respond 0 d) ∨ ∃ e, t = takeFault e (encode i) s := by
  cases i with
  | nop | rst | clre | kseed | knext | crr | frd => cases h; exact .inl ⟨_, _, rfl, rfl⟩
  | get sp slot addr =>
    refine complete_ends h fun u d hu => ?_
    split at hu
    · cases hu
    · cases hu; rfl
  | fadd | fsub | fmul => cases h; exact .inl ⟨_, _, ⟨_, rfl⟩, rfl⟩
  | crw cr imm =>
    refine completeQuiet_ends h fun u hu => ?_
    split_ifs at hu with _ hle
    cases hu
    exact ⟨Nat.le_of_not_lt hle, rfl⟩
  | put sp slot addr data =>
    refine completeQuiet_ends h fun u hu => ?_
    obtain ⟨j, hsp, haddr, -, rfl⟩ := memWrite_ok hu
    exact ⟨j, hsp, haddr, rfl⟩
  | fli a imm =>
    refine completeQuiet_ends h fun u hu => ?_
    split_ifs at hu
    cases hu
    exact ⟨_, rfl⟩
  | finv a b =>
    refine completeQuiet_ends h fun u hu => ?_
    split at hu
    · cases hu; exact ⟨_, rfl⟩
    · cases hu
  | pbuild | pxor =>
    refine completeQuiet_ends h fun u hu => ?_
    split at hu
    · cases hu
    · rename_i L hL
      cases hu
      obtain ⟨hgrid, rfl⟩ := gridLength_ok hL
      exact ⟨_, hgrid.2.2, rfl⟩
  | peval a b =>
    refine completeQuiet_ends h fun u hu => ?_
    split at hu
    · cases hu
    · cases hu; exact ⟨_, rfl⟩
  | lagr a =>
    refine completeQuiet_ends h fun u hu => ?_
    split at hu
    · cases hu
    · split at hu
      · cases hu
      · cases hu; exact ⟨_, rfl⟩
  | vand =>
    refine completeQuiet_ends h fun u hu => ?_
    split at hu
    · cases hu
    · cases hu; exact ⟨_, _, rfl⟩
  | solve =>
    refine completeQuiet_ends h fun u hu => ?_
    split at hu
    · cases hu
    · split at hu
      · cases hu
      · cases hu; exact ⟨_, _, _, rfl⟩
  | split =>
    refine completeQuiet_ends h fun u hu => ?_
    split at hu
    · cases hu
    · rename_i L count hsplit
      cases hu
      obtain ⟨⟨-, -, -, hgrid, -⟩, hp⟩ := checkSplit_ok hsplit
      cases hp
      exact ⟨_, streamLength_le_lmax hgrid, rfl⟩
  | distrib =>
    refine completeQuiet_ends h fun u hu => ?_
    split at hu
    · cases hu
    · rename_i L count hsplit
      cases hu
      obtain ⟨⟨-, -, -, hgrid, -⟩, hp⟩ := checkSplit_ok hsplit
      cases hp
      exact ⟨_, hgrid.2.2, _, streamLength_le_lmax hgrid, rfl⟩
  | recon =>
    refine completeQuiet_ends h fun u hu => ?_
    split at hu
    · cases hu
    · rename_i r hr
      split at hu
      · cases hu
      · rename_i vs hvs
        cases hu
        exact ⟨vs, length_reconGrid_le_lmax hr hvs, rfl⟩
  | recover =>
    refine completeQuiet_ends h fun u hu => ?_
    split at hu
    · cases hu
    · rename_i r hr
      split at hu
      · cases hu
      · split at hu
        · cases hu
        · rename_i seed _ _ vs hvs
          cases hu
          obtain ⟨hlegal, hr'⟩ := reconChecks_ok hr
          have hlen : r.gridLen ≤ s.lmax := by rw [hr']; exact hlegal.1.2.1.2.2
          exact ⟨vs, seed, length_reconGrid_le_lmax hr hvs, _, hlen, rfl⟩
  | embed slot =>
    refine completeQuiet_ends h fun u hu => ?_
    split at hu
    · cases hu
    · rename_i j width hcodec
      split at hu
      · cases hu
      · rename_i vs hvs
        cases hu
        obtain ⟨-, -, hfits, hwidth⟩ := codecChecks_ok hcodec
        obtain ⟨-, rfl⟩ := shareBytes_elim hvs
        refine ⟨_, _, _, ?_, rfl⟩
        rw [length_embeddedBytes, List.length_map, List.length_range, show width = s.b.toNat from hwidth]
        exact hfits
  | extract slot =>
    refine completeQuiet_ends h fun u hu => ?_
    split at hu
    · cases hu
    · rename_i j width _
      cases hu
      exact ⟨j, _, by rw [List.length_map, List.length_range], rfl⟩

end Sys2Proof.Machine
end

section
/-! The invariant (10_state.md R50): each update a command commits keeps it, and so do a response, a fault and the
taking of a word from the port. -/

namespace Sys2Proof.Machine

/-! ### Addresses after a write -/

theorem addresses_bufSet {α : Type} {m : Buf α} {n a : Nat} (h : ∀ p ∈ m, p.1 < n) (ha : a < n) (v : α) :
    ∀ p ∈ bufSet m a v, p.1 < n := by
  intro p hp
  rcases mem_bufSet hp with hold | rfl
  · exact h p hold
  · exact ha

theorem addresses_bufSetList {α : Type} {m : Buf α} {n : Nat} {vs : List α} (h : ∀ p ∈ m, p.1 < n)
    (hlen : vs.length ≤ n) : ∀ p ∈ bufSetList m 0 vs, p.1 < n := by
  intro p hp
  rcases mem_bufSetList hp with hold | ⟨-, hnew⟩
  · exact h p hold
  · omega

theorem addresses_slot_set {sh : Vector (Buf GF) 10} {n : Nat} {b : Buf GF}
    (h : ∀ i : Fin 10, ∀ p ∈ sh[i], p.1 < n) (j : Fin 10) (hb : ∀ p ∈ b, p.1 < n) (i : Fin 10) :
    ∀ p ∈ (sh.set j.val b)[i], p.1 < n := by
  rw [Fin.getElem_fin, Vector.getElem_set]
  split
  · exact hb
  · exact h i

/-! ### A response, a fault, a word taken -/

/-- Taking a word from the port. -/
theorem inv_take_word {s : State} (h : s.Inv) (rest : List CmdWord) : { s with cmds := rest }.Inv := h

theorem inv_respond {s : State} (h : s.Inv) (d : BitVec 32) : (s.respond 0 d).Inv := by
  obtain ⟨hcap, hreg, hwf, haddr, herr, hresp⟩ := h
  exact ⟨hcap, hreg, hwf, haddr, herr, List.forall_mem_cons.2 ⟨.inl rfl, hresp⟩⟩

/-- A fault records a code of the table, unless an earlier one is recorded, and answers that code with data 0. -/
theorem inv_takeFault {s : State} (h : s.Inv) (e : ErrKind) (w : CmdWord) : (takeFault e w s).Inv := by
  obtain ⟨hcap, hreg, hwf, haddr, herr, hresp⟩ := h
  rw [takeFault_eq]
  refine ⟨hcap, hreg, hwf, haddr, ?_, List.forall_mem_cons.2 ⟨.inr ⟨code_mem_raisedCodes e, rfl⟩, hresp⟩⟩
  by_cases h0 : s.err = 0
  · exact .inr (by simpa only [if_pos h0] using code_mem_raisedCodes e)
  · simpa only [State.ErrorRecordSound, if_neg h0] using herr

/-! ### The updates commands commit -/

theorem inv_softReset {s : State} (h : s.Inv) : (softReset s).Inv := by
  obtain ⟨hcap, -, hwf, haddr, -, hresp⟩ := h
  exact ⟨hcap, hardReset_registersInRange s.lmax s.cmax, hwf, haddr, .inl ⟨rfl, rfl, rfl⟩, hresp⟩

theorem inv_clearError {s : State} (h : s.Inv) : (clearError s).Inv := by
  obtain ⟨hcap, hreg, hwf, haddr, -, hresp⟩ := h
  exact ⟨hcap, hreg, hwf, haddr, .inl ⟨rfl, rfl, rfl⟩, hresp⟩

/-- An update that leaves the capacities, the error record and the responses keeps the invariant if it keeps the
clauses about registers and buffers. -/
theorem inv_of_update {s u : State} (h : s.Inv)
    (hsame : u.lmax = s.lmax ∧ u.cmax = s.cmax ∧ u.err = s.err ∧ u.einfolo = s.einfolo ∧ u.einfohi = s.einfohi ∧
      u.resps = s.resps)
    (hreg : u.RegistersInRange) (hwf : u.mem.wf = true) (haddr : u.AddressesInRange) : u.Inv := by
  obtain ⟨hlmax, hcmax, herr, hlo, hhi, hresps⟩ := hsame
  obtain ⟨hcap, -, -, -, hrec, hresp⟩ := h
  refine ⟨?_, hreg, hwf, haddr, ?_, ?_⟩
  · rwa [State.CapacitiesInRange, hlmax, hcmax]
  · rwa [State.ErrorRecordSound, herr, hlo, hhi]
  · rwa [State.ResponsesSound, hresps]

theorem inv_writeF {s : State} (h : s.Inv) (a : Fin 16) (v : GF) : (s.writeF a v).Inv := h

theorem inv_storeSystem {s : State} (h : s.Inv) (k : Nat) (A : List (List GF)) : (s.storeSystem k A).Inv := by
  have ⟨_, hreg, hwf, haddr, _, _⟩ := h
  exact inv_of_update h (by simp) (by simpa [State.RegistersInRange] using hreg) (by simpa using hwf)
    (by simpa [State.AddressesInRange] using haddr)

theorem inv_storeCoeffs {s : State} (h : s.Inv) (k : Nat) (c : List GF) : (s.storeCoeffs k c).Inv := h

/-- Only `CLEN` and `LEN[j]` have a maximum below what their width holds, and `CRW` checks it (10_state.md R24). -/
theorem registersInRange_writeCR {s : State} (h : s.RegistersInRange) {cr : CReg} {v : BitVec 32}
    (hv : v.toNat ≤ s.maxCR cr) : (s.writeCR cr v).RegistersInRange := by
  obtain ⟨hclen, hlen⟩ := h
  cases cr with
  | clen => exact ⟨hv, hlen⟩
  | len j =>
    refine ⟨hclen, fun i => ?_⟩
    simp only [State.writeCR, Fin.getElem_fin, Vector.getElem_set]
    split
    · exact hv
    · exact hlen i
  | _ => exact ⟨hclen, hlen⟩

theorem inv_writeCR {s : State} (h : s.Inv) {cr : CReg} {v : BitVec 32} (hv : v.toNat ≤ s.maxCR cr) :
    (s.writeCR cr v).Inv := by
  have ⟨_, hreg, hwf, haddr, _, _⟩ := h
  exact inv_of_update h (by simp) (registersInRange_writeCR hreg hv) (by simpa using hwf)
    (by simpa [State.AddressesInRange] using haddr)

/-- A stored element has an address below the size of its space (20_memory.md R63). -/
theorem addressesInRange_setElement {s : State} (h : s.AddressesInRange) {sp : Space} {a : Nat}
    (ha : a < s.spaceSize sp) (j : Fin 10) (v : Nat) : (s.setElement sp j a v).AddressesInRange := by
  obtain ⟨hsg, hdg, hpm, hsh, hcg⟩ := h
  cases sp with
  | sg => exact ⟨addresses_bufSet hsg ha _, hdg, hpm, hsh, hcg⟩
  | dg => exact ⟨hsg, addresses_bufSet hdg ha _, hpm, hsh, hcg⟩
  | pm => exact ⟨hsg, hdg, addresses_bufSet hpm ha _, hsh, hcg⟩
  | sh => exact ⟨hsg, hdg, hpm, addresses_slot_set hsh j (addresses_bufSet (hsh j) ha _), hcg⟩
  | cg => exact ⟨hsg, hdg, hpm, hsh, addresses_bufSet hcg ha _⟩
  | tg | xv | yv | cv | mat => exact ⟨hsg, hdg, hpm, hsh, hcg⟩

theorem inv_setElement {s : State} (h : s.Inv) {sp : Space} {a : Nat} (ha : a < s.spaceSize sp) (j : Fin 10)
    (v : Nat) : (s.setElement sp j a v).Inv := by
  have ⟨_, hreg, hwf, haddr, _, _⟩ := h
  exact inv_of_update h (by simp) (by simpa [State.RegistersInRange] using hreg) (memory_wf_setElement hwf sp j a v)
    (addressesInRange_setElement haddr ha j v)

theorem inv_buildTable {s : State} (h : s.Inv) {L : Nat} (hL : L ≤ s.lmax) : (s.buildTable L).Inv := by
  obtain ⟨hcap, hreg, hwf, ⟨hsg, hdg, hpm, hsh, hcg⟩, herr, hresp⟩ := h
  exact ⟨hcap, hreg, memory_wf_buildTable hwf L,
    ⟨hsg, hdg, addresses_bufSetList hpm (by rwa [length_ksBytes]), hsh, hcg⟩, herr, hresp⟩

theorem inv_writeGrid {s : State} (h : s.Inv) (g : Grid) {vs : List Byte} (hvs : vs.length ≤ s.lmax) :
    (s.writeGrid g vs).Inv := by
  obtain ⟨hcap, hreg, hwf, ⟨hsg, hdg, hpm, hsh, hcg⟩, herr, hresp⟩ := h
  have hwf' := memory_wf_writeGrid hwf g vs
  cases g with
  | sg => exact ⟨hcap, hreg, hwf', ⟨addresses_bufSetList hsg hvs, hdg, hpm, hsh, hcg⟩, herr, hresp⟩
  | dg => exact ⟨hcap, hreg, hwf', ⟨hsg, addresses_bufSetList hdg hvs, hpm, hsh, hcg⟩, herr, hresp⟩

theorem inv_xorGrid {s : State} (h : s.Inv) (dst src : Grid) {L : Nat} (hL : L ≤ s.lmax) :
    (s.xorGrid dst src L).Inv :=
  inv_writeGrid h dst (by rwa [length_maskedGrid])

/-- The lengths and the streams `SPLIT` writes are of `count` elements (44_share_generation.md R194). -/
theorem inv_splitStreams {s : State} (h : s.Inv) {count : Nat} (hcount : count ≤ s.lmax) :
    (s.splitStreams count).Inv := by
  obtain ⟨hcap, ⟨hclen, hlen⟩, hwf, ⟨hsg, hdg, hpm, hsh, hcg⟩, herr, hresp⟩ := h
  refine ⟨hcap, ⟨hclen, fun j => ?len⟩, memory_wf_splitStreams hwf count, ⟨hsg, hdg, hpm, fun j => ?sh, hcg⟩, herr,
    hresp⟩
  case len =>
    simp only [splitStreams_len, Fin.getElem_fin, Vector.getElem_ofFn]
    split
    · exact le_trans (Nat.mod_le _ _) hcount
    · exact hlen j
  case sh =>
    simp only [splitStreams_mem, Fin.getElem_fin, Vector.getElem_ofFn]
    split
    · exact addresses_bufSetList (hsh j) (by rwa [length_shareStream])
    · exact hsh j

/-- The bytes `EMBED` writes fit `CLEN`, which is at most `CMAX` (46_stego.md R235). -/
theorem inv_embed {s : State} (h : s.Inv) {vs : List Byte} (hvs : vs.length ≤ s.clen.toNat) (seed idx : BitVec 16) :
    { s with mem := { s.mem with cg := bufSetList s.mem.cg 0 vs }, scseed := seed, scidx := idx }.Inv := by
  obtain ⟨hcap, hreg, hwf, ⟨hsg, hdg, hpm, hsh, hcg⟩, herr, hresp⟩ := h
  exact ⟨hcap, hreg, memory_wf_carrier hwf 0 vs,
    ⟨hsg, hdg, hpm, hsh, addresses_bufSetList hcg (le_trans hvs hreg.1)⟩, herr, hresp⟩

/-- The elements `EXTRACT` writes are as many as `LEN[j]` says, which is at most `LMAX` (46_stego.md R237). -/
theorem inv_extract {s : State} (h : s.Inv) (j : Fin 10) {vs : List GF} (hvs : vs.length = s.len[j].toNat)
    (xi sseed : Vector (BitVec 16) 10) :
    { s with
      mem := { s.mem with sh := s.mem.sh.set j.val (bufSetList s.mem.sh[j] 0 vs) }
      xi := xi
      sseed := sseed }.Inv := by
  obtain ⟨hcap, hreg, hwf, ⟨hsg, hdg, hpm, hsh, hcg⟩, herr, hresp⟩ := h
  have hslot := addresses_bufSetList (hsh j) (le_of_eq_of_le hvs (hreg.2 j))
  exact ⟨hcap, hreg, memory_wf_slot hwf j 0 vs, ⟨hsg, hdg, hpm, addresses_slot_set hsh j hslot, hcg⟩, herr, hresp⟩

/-! ### Commands and steps -/

/-- What a command commits meets the invariant. -/
theorem inv_committed {i : Instr} {s u : State} (h : s.Inv) (hu : Committed i s u) : u.Inv := by
  cases i with
  | nop | crr | get | frd => cases hu; exact h
  | rst => cases hu; exact inv_softReset h
  | clre => cases hu; exact inv_clearError h
  | crw cr imm => obtain ⟨hle, rfl⟩ := hu; exact inv_writeCR h hle
  | put sp slot addr data => obtain ⟨j, -, haddr, rfl⟩ := hu; exact inv_setElement h haddr j _
  | fli | fadd | fsub | fmul | finv | peval | lagr => obtain ⟨v, rfl⟩ := hu; exact inv_writeF h _ v
  | kseed | knext => cases hu; exact h
  | pbuild => obtain ⟨L, hL, rfl⟩ := hu; exact inv_buildTable h hL
  | pxor dst src => obtain ⟨L, hL, rfl⟩ := hu; exact inv_xorGrid h dst src hL
  | split => obtain ⟨count, hcount, rfl⟩ := hu; exact inv_splitStreams h hcount
  | vand => obtain ⟨k, A, rfl⟩ := hu; exact inv_storeSystem h k A
  | solve => obtain ⟨k, A, c, rfl⟩ := hu; exact inv_storeCoeffs (inv_storeSystem h k A) k c
  | recon => obtain ⟨vs, hvs, rfl⟩ := hu; exact inv_writeGrid h .dg hvs
  | embed slot => obtain ⟨vs, seed, idx, hvs, rfl⟩ := hu; exact inv_embed h hvs seed idx
  | extract slot => obtain ⟨j, vs, hvs, rfl⟩ := hu; exact inv_extract h j hvs _ _
  | distrib =>
    obtain ⟨L, hL, count, hcount, rfl⟩ := hu
    exact inv_splitStreams (inv_xorGrid (inv_buildTable h hL) .dg .sg hL) (by simpa [State.xorGrid] using hcount)
  | recover =>
    obtain ⟨vs, seed, hvs, L, hL, rfl⟩ := hu
    have hseed : { s.writeGrid .dg vs with seed := seed }.Inv := inv_writeGrid h .dg hvs
    exact inv_xorGrid (inv_buildTable hseed hL) .sg .dg hL

theorem inv_exec {i : Instr} {s t : State} (h : s.Inv) (ht : exec i s = .next t) : t.Inv := by
  rcases exec_ends ht with ⟨u, d, hu, rfl⟩ | ⟨e, rfl⟩
  · exact inv_respond (inv_committed h hu) d
  · exact inv_takeFault h e _

/-- Settles O15: a step waits, executes a command or faults an illegal word, and each keeps the invariant. -/
theorem stepKeepsInvariant : Obligations.StepKeepsInvariant := by
  intro s t h ht
  cases hcmds : s.cmds with
  | nil => rw [step_of_no_command hcmds] at ht; cases ht; exact h
  | cons w rest =>
    have h' := inv_take_word h rest
    cases hd : decode w with
    | ok i => rw [step_of_decode hcmds hd] at ht; exact inv_exec h' ht
    | error e => rw [step_of_reject hcmds hd] at ht; cases ht; exact inv_takeFault h' .illegal w

end Sys2Proof.Machine
end

section
/-! What each update leaves unchanged, part by part (10_state.md R52), and from that the parts a command and a fault
may write. -/

namespace Sys2Proof.Machine

theorem Part.Same.refl (p : Part) (s : State) : p.Same s s := by cases p <;> simp [Part.Same]

theorem Part.Same.trans {p : Part} {s t u : State} (hst : p.Same s t) (htu : p.Same t u) : p.Same s u := by
  cases p <;> simp_all [Part.Same]

/-! ### The parts each update leaves -/

/-- A response is no part of the state that the table speaks of. -/
theorem same_respond {p : Part} {s t : State} (h : p.Same s t) (st : BitVec 8) (d : BitVec 32) :
    p.Same s (t.respond st d) := by
  cases p <;> exact h

theorem same_takeFault {p : Part} (hp : p ≠ .errorRegs) (e : ErrKind) (w : CmdWord) (s : State) :
    p.Same s (takeFault e w s) := by
  cases p <;> simp_all [Part.Same]

theorem same_softReset {p : Part} (hp : p ∉ writtenParts .rst) (s : State) : p.Same s (softReset s) := by
  cases p <;> simp_all [Part.Same, writtenParts]

theorem same_clearError {p : Part} (hp : p ≠ .errorRegs) (s : State) : p.Same s (clearError s) := by
  cases p <;> simp_all [Part.Same]

theorem same_writeCR {p : Part} {cr : CReg} (hp : CReg.part cr ≠ some p) (s : State) (v : BitVec 32) :
    p.Same s (s.writeCR cr v) := by
  cases cr with
  | pmod | lmax | cmax | status | einfolo | einfohi | kslo | kshi => exact .refl p s
  | _ => cases p <;> simp_all [Part.Same, CReg.part, State.writeCR]

theorem same_setElement {p : Part} {sp : Space} (hp : Space.part sp ≠ some p) (s : State) (j : Fin 10) (a v : Nat) :
    p.Same s (s.setElement sp j a v) := by
  cases sp with
  | tg => exact .refl p s
  | xv | yv | cv | mat => cases p <;> simp_all [Part.Same, Space.part, State.setElement]
  | sg | dg | pm | sh | cg =>
    cases p <;> simp_all [Part.Same, Space.part, State.setElement, Memory.sgAt, Memory.dgAt, Memory.pmAt,
      Memory.shAt, Memory.cgAt]

theorem same_writeF {p : Part} (hp : p ≠ .fieldRegs) (s : State) (a : Fin 16) (v : GF) : p.Same s (s.writeF a v) := by
  cases p <;> simp_all [Part.Same]

theorem same_with_ks {p : Part} (hp : p ≠ .ks) (s : State) (x : BitVec 48) : p.Same s { s with ks := x } := by
  cases p <;> simp_all [Part.Same]

theorem same_with_seed {p : Part} (hp : p ≠ .seed) (s : State) (x : BitVec 16) : p.Same s { s with seed := x } := by
  cases p <;> simp_all [Part.Same]

theorem same_buildTable {p : Part} (hks : p ≠ .ks) (hpm : p ≠ .pm) (s : State) (L : Nat) :
    p.Same s (s.buildTable L) := by
  cases p <;> simp_all [Part.Same, Memory.sgAt, Memory.dgAt, Memory.shAt, Memory.cgAt]

theorem same_writeGrid {p : Part} {g src : Grid} (hp : p ∉ writtenParts (.pxor g src)) (s : State) (vs : List Byte) :
    p.Same s (s.writeGrid g vs) := by
  cases g <;> cases p <;>
    simp_all [Part.Same, writtenParts, Memory.sgAt, Memory.dgAt, Memory.pmAt, Memory.shAt, Memory.cgAt]

theorem same_splitStreams {p : Part} (hp : p ∉ writtenParts .split) (s : State) (count : Nat) :
    p.Same s (s.splitStreams count) := by
  cases p <;> simp_all [Part.Same, writtenParts, Memory.sgAt, Memory.dgAt, Memory.pmAt, Memory.cgAt]

theorem same_storeSystem {p : Part} (hp : p ≠ .mat) (s : State) (k : Nat) (A : List (List GF)) :
    p.Same s (s.storeSystem k A) := by
  cases p <;> simp_all [Part.Same]

theorem same_storeCoeffs {p : Part} (hp : p ≠ .cv) (s : State) (k : Nat) (c : List GF) :
    p.Same s (s.storeCoeffs k c) := by
  cases p <;> simp_all [Part.Same]

theorem same_embed {p : Part} {slot : Fin 16} (hp : p ∉ writtenParts (.embed slot)) (s : State) (cg : Buf Byte)
    (seed idx : BitVec 16) : p.Same s { s with mem := { s.mem with cg := cg }, scseed := seed, scidx := idx } := by
  cases p <;> simp_all [Part.Same, writtenParts, Memory.sgAt, Memory.dgAt, Memory.pmAt, Memory.shAt]

theorem same_extract {p : Part} {slot : Fin 16} (hp : p ∉ writtenParts (.extract slot)) (s : State)
    (sh : Vector (Buf GF) 10) (xi sseed : Vector (BitVec 16) 10) :
    p.Same s { s with mem := { s.mem with sh := sh }, xi := xi, sseed := sseed } := by
  cases p <;> simp_all [Part.Same, writtenParts, Memory.sgAt, Memory.dgAt, Memory.pmAt, Memory.cgAt]

/-! ### The parts a command writes -/

/-- What a command commits agrees with the state before it on every part its row does not name. -/
theorem same_committed {i : Instr} {s u : State} (hu : Committed i s u) {p : Part} (hp : p ∉ writtenParts i) :
    p.Same s u := by
  cases i with
  | nop | crr | get | frd => cases hu; exact .refl p _
  | rst => cases hu; exact same_softReset hp s
  | clre => cases hu; exact same_clearError (by simpa [writtenParts] using hp) s
  | crw cr imm => obtain ⟨-, rfl⟩ := hu; exact same_writeCR (by simpa [writtenParts] using hp) s imm
  | put sp slot addr data =>
    obtain ⟨j, -, -, rfl⟩ := hu
    exact same_setElement (by simpa [writtenParts] using hp) s j _ _
  | fli | fadd | fsub | fmul | finv | peval | lagr =>
    obtain ⟨v, rfl⟩ := hu
    exact same_writeF (by simpa [writtenParts] using hp) s _ v
  | kseed => cases hu; exact same_with_ks (by simpa [writtenParts] using hp) s _
  | knext a =>
    cases hu
    obtain ⟨hks, hf⟩ : p ≠ .ks ∧ p ≠ .fieldRegs := by simpa [writtenParts] using hp
    exact (same_with_ks hks s _).trans (same_writeF hf _ a _)
  | pbuild =>
    obtain ⟨L, -, rfl⟩ := hu
    obtain ⟨hks, hpm⟩ : p ≠ .ks ∧ p ≠ .pm := by simpa [writtenParts] using hp
    exact same_buildTable hks hpm s L
  | pxor dst src =>
    obtain ⟨L, -, rfl⟩ := hu
    exact same_writeGrid hp s _
  | split => obtain ⟨count, -, rfl⟩ := hu; exact same_splitStreams hp s count
  | vand => obtain ⟨k, A, rfl⟩ := hu; exact same_storeSystem (by simpa [writtenParts] using hp) s k A
  | solve =>
    obtain ⟨k, A, c, rfl⟩ := hu
    obtain ⟨hmat, hcv⟩ : p ≠ .mat ∧ p ≠ .cv := by simpa [writtenParts] using hp
    exact (same_storeSystem hmat s k A).trans (same_storeCoeffs hcv _ k c)
  | recon => obtain ⟨vs, -, rfl⟩ := hu; exact same_writeGrid (src := .sg) hp s vs
  | embed slot =>
    obtain ⟨vs, seed, idx, -, rfl⟩ := hu
    exact same_embed hp s _ seed idx
  | extract slot =>
    obtain ⟨j, vs, -, rfl⟩ := hu
    exact same_extract hp s _ _ _
  | distrib =>
    obtain ⟨L, -, count, -, rfl⟩ := hu
    obtain ⟨hks, hpm, hmask, hsplit⟩ :
        p ≠ .ks ∧ p ≠ .pm ∧ p ∉ writtenParts (.pxor .dg .sg) ∧ p ∉ writtenParts .split := by
      simpa [writtenParts] using hp
    have htable := same_buildTable hks hpm s L
    exact (htable.trans (same_writeGrid hmask _ _)).trans (same_splitStreams hsplit _ count)
  | recover =>
    obtain ⟨vs, seed, -, L, -, rfl⟩ := hu
    obtain ⟨hrecon, hseed, hks, hpm, hmask⟩ : p ∉ writtenParts (.pxor .dg .dg) ∧ p ≠ .seed ∧ p ≠ .ks ∧ p ≠ .pm ∧
        p ∉ writtenParts (.pxor .sg .dg) := by
      simpa [writtenParts] using hp
    have hwrite := (same_writeGrid hrecon s vs).trans (same_with_seed hseed _ seed)
    exact (hwrite.trans (same_buildTable hks hpm _ L)).trans (same_writeGrid hmask _ _)

/-- The status of the response tells whether a command committed or faulted. -/
theorem exec_ends_by_status {i : Instr} {s t : State} {r : Response} (h : exec i s = .next t)
    (hr : t.resps = r :: s.resps) :
    (r.status = 0 ∧ ∃ u d, Committed i s u ∧ t = u.respond 0 d) ∨
      (r.status ≠ 0 ∧ ∃ e, e.code = r.status ∧ t = takeFault e (encode i) s) := by
  rcases exec_ends h with ⟨u, d, hu, rfl⟩ | ⟨e, rfl⟩
  · rw [respond_resps, List.cons.injEq] at hr
    exact .inl ⟨by rw [← hr.1], u, d, hu, rfl⟩
  · rw [takeFault_resps, List.cons.injEq] at hr
    obtain ⟨rfl, -⟩ := hr
    exact .inr ⟨code_ne_zero e, e, rfl, rfl⟩

/-- No command writes the capacities or takes a pending word. -/
theorem exec_keeps_capacities_and_cmds {i : Instr} {s t : State} (h : exec i s = .next t) :
    t.lmax = s.lmax ∧ t.cmax = s.cmax ∧ t.cmds = s.cmds := by
  rcases exec_cases i s with ⟨u, d, hu, hcmds, -, hlmax, hcmax⟩ | ⟨e, he⟩
  · rw [hu] at h; cases h; exact ⟨hlmax, hcmax, hcmds⟩
  · rw [he] at h; cases h; simp

/-- Settles O12: a command that does not fault commits an update of its row, and a fault writes the error
registers only. -/
theorem commandsWriteOnlyTheirTableRow : Obligations.CommandsWriteOnlyTheirTableRow := by
  intro i s t r h hr
  obtain ⟨hlmax, hcmax, hcmds⟩ := exec_keeps_capacities_and_cmds h
  refine ⟨hlmax, hcmax, hcmds, ?_⟩
  rcases exec_ends_by_status h hr with ⟨h0, u, d, hu, rfl⟩ | ⟨hne, e, -, rfl⟩
  · exact ⟨fun _ p hp => same_respond (same_committed hu hp) 0 d, fun hne => absurd h0 hne⟩
  · exact ⟨fun h0 => absurd h0 hne, fun _ p hp => same_takeFault hp e _ s⟩

end Sys2Proof.Machine
end

section
/-! A word that decodes is the word of its command (30_encoding.md R99, R100): format by format, then for the
decoder. So the word a fault records is the word that was issued (log entry 6). -/

namespace Sys2Proof

/-! ### Commands whose operands are fields of the word -/

section

variable {w : CmdWord} {i₀ i : Instr}

/-- Format N (30_encoding.md R92). -/
theorem encode_of_formatN (h : ifZero w 0 56 (.ok i₀) = .ok i) (hop : (opField w).toNat = i₀.opcode.toNat)
    (henc : encode i₀ = formatN i₀.opcode) : encode i = w := by
  obtain ⟨hzero, hi⟩ := ifZero_ok h
  cases hi
  rw [henc, ← BitVec.eq_of_toNat_eq hop, eq_formatN hzero]

/-- Format F with three registers (30_encoding.md R93). -/
theorem encode_of_formatF (h : ifZero w 0 44 (.ok i₀) = .ok i) (hop : (opField w).toNat = i₀.opcode.toNat)
    (henc : encode i₀ = formatF i₀.opcode (aField w) (bField w) (cField w)) : encode i = w := by
  obtain ⟨hzero, hi⟩ := ifZero_ok h
  cases hi
  rw [henc, ← BitVec.eq_of_toNat_eq hop, eq_formatF hzero]

/-- Format F with two registers. -/
theorem encode_of_formatF_two (h : ifZero w 0 48 (.ok i₀) = .ok i) (hop : (opField w).toNat = i₀.opcode.toNat)
    (henc : encode i₀ = formatF i₀.opcode (aField w) (bField w) 0) : encode i = w := by
  obtain ⟨hzero, hi⟩ := ifZero_ok h
  cases hi
  rw [henc, ← BitVec.eq_of_toNat_eq hop, eq_formatF_two hzero]

/-- Format F with one register. -/
theorem encode_of_formatF_one (h : ifZero w 0 52 (.ok i₀) = .ok i) (hop : (opField w).toNat = i₀.opcode.toNat)
    (henc : encode i₀ = formatF i₀.opcode (aField w) 0 0) : encode i = w := by
  obtain ⟨hzero, hi⟩ := ifZero_ok h
  cases hi
  rw [henc, ← BitVec.eq_of_toNat_eq hop, eq_formatF_one hzero]

end

/-! ### The decoder -/

/-- No bit of a legal word is ignored: a word decodes only to the command it is the word of. -/
theorem encode_of_decode {w : CmdWord} {i : Instr} (h : decode w = .ok i) : encode i = w := by
  unfold decode at h
  split at h
  all_goals rename_i hnum
  case h_1 | h_2 | h_3 | h_14 | h_16 | h_19 | h_21 | h_22 | h_23 | h_26 | h_27 => exact encode_of_formatN h hnum rfl
  case h_9 | h_10 | h_11 => exact encode_of_formatF h hnum rfl
  case h_12 | h_18 => exact encode_of_formatF_two h hnum rfl
  case h_13 | h_15 | h_20 => exact encode_of_formatF_one h hnum rfl
  case h_24 | h_25 =>
    obtain ⟨hzero, hslot⟩ := ifZero_ok h
    obtain ⟨rfl, -⟩ := ifWellFormed_ok hslot
    exact encode_of_formatF_one (if_pos hzero) hnum rfl
  case h_4 =>
    have hop : opField w = 0x03 := BitVec.eq_of_toNat_eq hnum
    obtain ⟨hzero, hcreg⟩ := ifZero_ok h
    obtain ⟨cr, hcr, rfl, -⟩ := withCReg_ok hcreg
    rw [encode, Instr.opcode, ← hcr, ← hop, eq_formatC hzero]
  case h_5 =>
    have hop : opField w = 0x04 := BitVec.eq_of_toNat_eq hnum
    obtain ⟨hzero, hcreg⟩ := ifZero_ok h
    obtain ⟨cr, hcr, rfl, -⟩ := withCReg_ok hcreg
    rw [encode, Instr.opcode, ← hcr, ← hop, eq_formatC_read hzero]
  case h_6 =>
    have hop : opField w = 0x08 := BitVec.eq_of_toNat_eq hnum
    obtain ⟨sp, hsp, rfl, -⟩ := withSpace_ok h
    rw [encode, Instr.opcode, ← hsp, ← hop, fieldBits_toFin, eq_formatM]
  case h_7 =>
    have hop : opField w = 0x09 := BitVec.eq_of_toNat_eq hnum
    obtain ⟨hzero, hspace⟩ := ifZero_ok h
    obtain ⟨sp, hsp, rfl, -⟩ := withSpace_ok hspace
    rw [encode, Instr.opcode, ← hsp, ← hop, fieldBits_toFin, eq_formatM_read hzero]
  case h_8 =>
    have hop : opField w = 0x10 := BitVec.eq_of_toNat_eq hnum
    obtain ⟨hzero, hi⟩ := ifZero_ok h
    cases hi
    rw [encode, Instr.opcode, ← hop, fieldBits_toFin, eq_formatI hzero]
  case h_17 =>
    have hop : opField w = 0x29 := BitVec.eq_of_toNat_eq hnum
    obtain ⟨hzero, hgrids⟩ := ifZero_ok h
    obtain ⟨d, g, hd, hg, rfl⟩ := withGrids_ok hgrids
    rw [encode, Instr.opcode, ← hd, ← hg, ← hop]
    exact eq_formatF_two hzero
  case h_28 => cases h

end Sys2Proof
end

section
/-! The error registers (10_state.md R26, R27; 60_exceptions.md R287): what a fault does to them, and that nothing
else but `CLRE` and `RST` does. -/

namespace Sys2Proof.Machine

theorem takeFault_keeps_error {s : State} (h : s.err ≠ 0) (e : ErrKind) (w : CmdWord) :
    (takeFault e w s).err = s.err ∧ (takeFault e w s).einfolo = s.einfolo ∧
      (takeFault e w s).einfohi = s.einfohi := by
  simp only [takeFault_err, takeFault_einfolo, takeFault_einfohi, if_neg h, and_self]

theorem takeFault_records_error {s : State} (h : s.err = 0) (e : ErrKind) (w : CmdWord) :
    (takeFault e w s).err = e.code ∧ (takeFault e w s).einfohi ++ (takeFault e w s).einfolo = w := by
  simpa [h] using word_halves w

/-- A fault is recorded exactly if no earlier one is; `st` is the status it responds with. -/
theorem takeFault_first_error {s : State} {e : ErrKind} {st : BitVec 8} (hst : e.code = st) (w : CmdWord) :
    (s.err ≠ 0 ∨ st = 0 → (takeFault e w s).err = s.err ∧ (takeFault e w s).einfolo = s.einfolo ∧
      (takeFault e w s).einfohi = s.einfohi) ∧
    (s.err = 0 → st ≠ 0 →
      (takeFault e w s).err = st ∧ (takeFault e w s).einfohi ++ (takeFault e w s).einfolo = w) := by
  subst hst
  exact ⟨fun h => takeFault_keeps_error (h.resolve_right (code_ne_zero e)) e w,
    fun h _ => takeFault_records_error h e w⟩

/-- `CLRE` and `RST` alone have the error registers in their row (10_state.md R52). -/
theorem errorRegs_not_written {i : Instr} (hclre : i ≠ .clre) (hrst : i ≠ .rst) :
    Part.errorRegs ∉ writtenParts i := by
  cases i with
  | clre => exact absurd rfl hclre
  | rst => exact absurd rfl hrst
  | crw cr imm => cases cr <;> simp [writtenParts, CReg.part]
  | put sp slot addr data => cases sp <;> simp [writtenParts, Space.part]
  | pxor dst src => cases dst <;> simp [writtenParts]
  | _ => simp [writtenParts]

/-- `CLRE` and `RST` clear the error registers (60_exceptions.md R288, 40_system_access.md R122). -/
theorem exec_clears_error {i : Instr} {s t : State} (hi : i = .clre ∨ i = .rst) (h : exec i s = .next t) :
    t.err = 0 ∧ t.einfolo = 0 ∧ t.einfohi = 0 := by
  rcases hi with rfl | rfl <;> cases h <;> exact ⟨rfl, rfl, rfl⟩

/-- Settles O11: by the decoded command and by its status; the word a fault records is the word issued, since a word
decodes only to the command it is the word of. -/
theorem firstErrorSticks : Obligations.FirstErrorSticks := by
  intro s t w rest r hcmds ht hr
  cases hd : decode w with
  | error e =>
    rw [step_of_reject hcmds hd] at ht
    cases ht
    rw [takeFault_resps, List.cons.injEq] at hr
    obtain ⟨rfl, -⟩ := hr
    exact ⟨by simp, fun _ => takeFault_first_error (e := .illegal) (s := { s with cmds := rest }) rfl w⟩
  | ok i =>
    rw [step_of_decode hcmds hd] at ht
    simp only [Except.ok.injEq, not_or]
    refine ⟨fun hi => exec_clears_error hi ht, fun hi => ?_⟩
    rcases exec_ends_by_status ht hr with ⟨h0, u, d, hu, rfl⟩ | ⟨-, e, hcode, rfl⟩
    · have hsame := same_committed hu (errorRegs_not_written hi.1 hi.2)
      exact ⟨fun _ => hsame, fun _ hne => absurd h0 hne⟩
    · rw [encode_of_decode hd]
      exact takeFault_first_error (s := { s with cmds := rest }) hcode w

end Sys2Proof.Machine
end

section
/-! The control registers (10_state.md R24): what `CRR` reads, also after `CRW`, and the two refusals of `CRW`. -/

namespace Sys2Proof.Machine

/-! ### Reading after writing -/

/-- A value that fits a register's width is stored exactly. -/
theorem setWidth_setWidth_of_fits {n : Nat} {v : BitVec 32} (h : v.toNat < 2 ^ n) :
    (v.setWidth n).setWidth 32 = v := by
  apply BitVec.eq_of_toNat_eq
  rw [BitVec.toNat_setWidth, BitVec.toNat_setWidth, Nat.mod_eq_of_lt h, Nat.mod_eq_of_lt v.isLt]

/-- A value up to the register's maximum reads back. -/
theorem readCR_writeCR_same {s : State} {cr : CReg} {v : BitVec 32} (hw : cr.writable = true)
    (hv : v.toNat ≤ s.maxCR cr) : (s.writeCR cr v).readCR cr = v := by
  cases cr with
  | pmod | lmax | cmax | status | einfolo | einfohi | kslo | kshi => cases hw
  | k | n | w | h | blk | b | seed | sel | scseed | scidx => exact setWidth_setWidth_of_fits (Nat.lt_succ_of_le hv)
  | clen => rfl
  | xi j | sseed j =>
    simp only [State.writeCR, State.readCR, Fin.getElem_fin, Vector.getElem_set_self]
    exact setWidth_setWidth_of_fits (Nat.lt_succ_of_le hv)
  | len j => simp only [State.writeCR, State.readCR, Fin.getElem_fin, Vector.getElem_set_self]

/-- No other register reads differently: the two are different fields, or different elements of one vector. -/
theorem readCR_writeCR_of_ne {cr cr' : CReg} (h : cr' ≠ cr) (s : State) (v : BitVec 32) :
    (s.writeCR cr v).readCR cr' = s.readCR cr' := by
  cases cr <;> cases cr' <;> try rfl
  case xi.xi j j' | len.len j j' | sseed.sseed j j' =>
    have hne : j.val ≠ j'.val := fun hv => h (by rw [Fin.ext hv])
    simp only [State.writeCR, State.readCR, Fin.getElem_fin, Vector.getElem_set_ne _ _ hne]
  all_goals exact absurd rfl h

/-! ### `CRW` and `CRR` -/

theorem exec_crw_of_le {s : State} {cr : CReg} {v : BitVec 32} (hw : cr.writable = true) (hv : v.toNat ≤ s.maxCR cr) :
    exec (.crw cr v) s = .next ((s.writeCR cr v).respond 0 0) := by
  simp only [exec, execCrw, hw, not_true_eq_false, if_false, if_neg (Nat.not_lt.2 hv), completeQuiet_ok]

theorem exec_crw_of_read_only {cr : CReg} (hw : cr.writable = false) (s : State) (v : BitVec 32) :
    exec (.crw cr v) s = .next (takeFault .illegal (encode (.crw cr v)) s) := by
  simp only [exec, execCrw, hw, Bool.false_eq_true, not_false_eq_true, if_true, completeQuiet_error]

theorem exec_crw_of_lt {s : State} {cr : CReg} {v : BitVec 32} (hw : cr.writable = true) (hv : s.maxCR cr < v.toNat) :
    exec (.crw cr v) s = .next (takeFault .operand (encode (.crw cr v)) s) := by
  simp only [exec, execCrw, hw, not_true_eq_false, if_false, if_pos hv, completeQuiet_error]

/-- Settles O19: the bound of each writable register is its maximum. -/
theorem crwWritesOneRegister : Obligations.CrwWritesOneRegister := by
  intro s cr imm hw hbound
  have hmax : imm.toNat ≤ s.maxCR cr := by
    cases cr with
    | pmod | lmax | cmax | status | einfolo | einfohi | kslo | kshi => cases hw
    | _ => exact hbound
  refine ⟨_, exec_crw_of_le hw hmax, readCR_writeCR_same hw hmax, fun cr' hne => readCR_writeCR_of_ne hne s imm, ?_⟩
  simp

/-- Settles O20: by the register. -/
theorem crwRefusals : Obligations.CrwRefusals := by
  intro s cr imm
  cases cr with
  | pmod | lmax | cmax | status | einfolo | einfohi | kslo | kshi =>
    exact ⟨fun _ => exec_crw_of_read_only rfl s imm, False.elim⟩
  | _ => exact ⟨fun h => by simp at h, fun h => exec_crw_of_lt rfl h⟩

/-- Bits 31:8 of `STATUS` read 0 (10_state.md R26). -/
theorem toNat_statusWord (s : State) : (statusWord s).toNat = s.err.toNat :=
  (BitVec.toNat_append 0#24 s.err).trans (by simp)

/-- Settles O21: by the register; the capacities are numbers below `2^32` and the other registers are fields of at
most 32 bits. -/
theorem crrReads : Obligations.CrrReads := by
  intro s cr hL hC
  refine ⟨s.readCR cr, rfl, ?_⟩
  cases cr with
  | pmod | einfolo | einfohi | clen | len => rfl
  | lmax => exact Nat.mod_eq_of_lt hL
  | cmax => exact Nat.mod_eq_of_lt hC
  | status => exact toNat_statusWord s
  | k | n | w | h | blk | b | seed | sel | scseed | scidx | xi | sseed => exact BitVec.toNat_setWidth_of_le (by decide)
  | kslo => simp [State.readCR]
  | kshi =>
    have := s.ks.isLt
    simp [State.readCR]
    omega

end Sys2Proof.Machine
end
section
/-! The step, hard reset and the parameter checks, as their rules state them. -/

namespace Sys2Proof.Machine

/-- Settles O7: the step lemma for a word that decodes. -/
theorem stepRunsDecodedCommand : Obligations.StepRunsDecodedCommand :=
  fun _ _ _ _ hcmds hd => step_of_decode hcmds hd

/-- Settles O8: the step lemma for an empty port. -/
theorem stepWaitsWithoutCommand : Obligations.StepWaitsWithoutCommand :=
  fun _ hcmds => step_of_no_command hcmds

/-- Every control register but four reads 0 after hard reset (10_state.md R24, R51). -/
theorem readCR_hardReset (L C : Nat) {cr : CReg} (h : cr ∉ [CReg.pmod, .lmax, .cmax, .blk]) :
    (State.hardReset L C).readCR cr = 0 := by
  cases cr with
  | pmod | lmax | cmax | blk => simp at h
  | status | kshi | xi | len | sseed => simp [State.readCR, statusWord, State.hardReset]
  | _ => rfl

/-- Settles O13: every vector is a replicated 0, and the capacities fit the 32 bits `CRR` answers. -/
theorem hardResetValues : Obligations.HardResetValues := by
  refine ⟨fun L C hL hC => ?_, rfl⟩
  have hlmax : ((State.hardReset L C).readCR .lmax).toNat = L := Nat.mod_eq_of_lt (lt_trans hL (by decide))
  have hcmax : ((State.hardReset L C).readCR .cmax).toNat = C := Nat.mod_eq_of_lt hC
  exact ⟨fun a => Vector.getElem_replicate a.isLt, rfl,
    fun j => ⟨Vector.getElem_replicate j.isLt, Vector.getElem_replicate j.isLt, Vector.getElem_replicate j.isLt⟩,
    fun p => Vector.getElem_replicate p.isLt, rfl, hlmax, hcmax, rfl, fun _ => readCR_hardReset L C, rfl, rfl⟩

/-- Settles O36: the grid check is the first of both commands. -/
theorem emptyOrOversizeGridFaults : Obligations.EmptyOrOversizeGridFaults := by
  intro s d g h
  have hgrid : s.gridLength = .error .invalidParameters := if_pos h
  simp only [exec, execPbuild, execPxor, hgrid, completeQuiet_error, and_self]

/-- Settles O39: the threshold check fails by itself, as the first part of `check_split()` and as the first part of
`recon_checks()`. -/
theorem thresholdOutOfRangeFaults : Obligations.ThresholdOutOfRangeFaults := by
  intro s a b h i hi
  have hthreshold := threshold_of_not_legal h
  have hsplit : s.checkSplit = .error .invalidParameters := checkSplit_of_not_legal fun hl => h hl.1
  have hrecon : s.reconChecks = .error .invalidParameters := reconChecks_error.1 fun hl => h hl.1
  simp only [List.mem_cons, List.not_mem_nil, or_false] at hi
  rcases hi with rfl | rfl | rfl | rfl | rfl | rfl | rfl | rfl
  case inl | inr.inl | inr.inr.inl | inr.inr.inr.inl =>
    simp only [exec, execPeval, execLagr, execVand, execSolve, hthreshold, completeQuiet_error]
  all_goals simp only [exec, execSplit, execRecon, execDistrib, execRecover, hsplit, hrecon, completeQuiet_error]

end Sys2Proof.Machine
end

section
/-! `PUT` and `GET` (20_memory.md R64 to R68): the refusals of the two host accesses in their order, and what the
commands answer for an element that exists. -/

namespace Sys2Proof.Machine

/-! ### The refusals of `MemWrite` and `MemRead` -/

/-- The slot rule of 20_memory.md R64 as its two cases. -/
theorem slotLegal_iff {sp : Space} {slot : Fin 16} :
    sp.slotLegal slot = true ↔ (sp = .sh ∧ slot.val ≤ 9) ∨ (sp ≠ .sh ∧ slot = 0) := by
  cases sp <;> simp [Space.slotLegal]

theorem memWrite_tg (s : State) (slot : Fin 16) (a v : Nat) : s.memWrite .tg slot a v = .error .illegal := rfl

theorem memWrite_of_slot_not_legal {sp : Space} {slot : Fin 16} (hslot : ¬ sp.slotLegal slot = true) (s : State)
    (a v : Nat) : s.memWrite sp slot a v = .error .illegal := by
  by_cases htg : sp = .tg
  · rw [htg, memWrite_tg]
  · simp only [State.memWrite, if_neg htg, accessSlot_of_not_legal hslot]

theorem memRead_of_slot_not_legal {sp : Space} {slot : Fin 16} (hslot : ¬ sp.slotLegal slot = true) (s : State)
    (a : Nat) : s.memRead sp slot a = .error .illegal := by
  simp only [State.memRead, accessSlot_of_not_legal hslot]

section
variable {s : State} {sp : Space} {slot : Fin 16} {a v : Nat}

theorem memWrite_of_size_le (htg : sp ≠ .tg) (hslot : sp.slotLegal slot = true) (ha : s.spaceSize sp ≤ a) :
    s.memWrite sp slot a v = .error .addr := by
  obtain ⟨j, rfl, hj⟩ := eq_slotField_of_legal hslot
  simp only [State.memWrite, if_neg htg, accessSlot_of_legal hj, if_pos ha]

theorem memWrite_of_max_lt (htg : sp ≠ .tg) (hslot : sp.slotLegal slot = true) (ha : a < s.spaceSize sp)
    (hv : elementMax sp < v) : s.memWrite sp slot a v = .error .operand := by
  obtain ⟨j, rfl, hj⟩ := eq_slotField_of_legal hslot
  simp only [State.memWrite, if_neg htg, accessSlot_of_legal hj, if_neg (Nat.not_le.2 ha), if_pos hv]

theorem memRead_of_size_le (hslot : sp.slotLegal slot = true) (ha : s.spaceSize sp ≤ a) :
    s.memRead sp slot a = .error .addr := by
  obtain ⟨j, rfl, hj⟩ := eq_slotField_of_legal hslot
  simp only [State.memRead, accessSlot_of_legal hj, if_pos ha]

/-- The view needs a grid (20_memory.md R68). -/
theorem memRead_tg_of_grid_not_legal (hslot : Space.tg.slotLegal slot = true) (ha : a < s.spaceSize .tg)
    (hgrid : ¬ s.GridLegal) : s.memRead .tg slot a = .error .invalidParameters := by
  obtain ⟨j, rfl, hj⟩ := eq_slotField_of_legal hslot
  simp only [State.memRead, accessSlot_of_legal hj, if_neg (Nat.not_le.2 ha), if_true, gridLength_of_not_legal hgrid]

end

/-! ### Stored elements -/

/-- A stored element is in the range of its space (20_memory.md R65). -/
theorem element_le_elementMax (s : State) (sp : Space) (j : Fin 10) (a : Nat) : s.element sp j a ≤ elementMax sp := by
  cases sp with
  | sg | dg | pm | tg | cg => exact Nat.le_of_lt_succ (BitVec.isLt _)
  | sh | xv | yv | cv | mat => exact Nat.le_of_lt_succ (Fin.isLt _)

theorem elementMax_le (sp : Space) : elementMax sp ≤ 256 := by cases sp <;> decide

/-- Storing an element writes the vector registers and the buffers at most. -/
theorem setElement_eq_with (s : State) (sp : Space) (j : Fin 10) (a v : Nat) :
    s.setElement sp j a v =
      { s with
        xv := (s.setElement sp j a v).xv, yv := (s.setElement sp j a v).yv, cv := (s.setElement sp j a v).cv
        mat := (s.setElement sp j a v).mat, mem := (s.setElement sp j a v).mem } := by
  cases sp <;> rfl

/-! ### `PUT` and `GET` -/

section
variable {s : State} {sp : Space} {slot : Fin 16} {addr : BitVec 32} {data : BitVec 16} {e : ErrKind}

theorem exec_put_of_memWrite_ok {t : State} (h : s.memWrite sp slot addr.toNat data.toNat = .ok t) :
    exec (.put sp slot addr data) s = .next (t.respond 0 0) := by
  simp only [exec, execPut, h, completeQuiet_ok]

theorem exec_put_of_memWrite_error (h : s.memWrite sp slot addr.toNat data.toNat = .error e) :
    exec (.put sp slot addr data) s = .next (takeFault e (encode (.put sp slot addr data)) s) := by
  simp only [exec, execPut, h, completeQuiet_error]

theorem exec_get_of_memRead_error (h : s.memRead sp slot addr.toNat = .error e) :
    exec (.get sp slot addr) s = .next (takeFault e (encode (.get sp slot addr)) s) := by
  simp only [exec, execGet, h, complete_error]

/-- An element is small enough to be answered whole (20_memory.md R66). -/
theorem exec_get_of_memRead_ok {v : Nat} (h : s.memRead sp slot addr.toNat = .ok v) (hv : v ≤ 256) :
    ∃ d : BitVec 32, exec (.get sp slot addr) s = .next (s.respond 0 d) ∧ d.toNat = v :=
  ⟨BitVec.ofNat 32 v, by simp only [exec, execGet, h, complete_ok], Nat.mod_eq_of_lt (lt_of_le_of_lt hv (by decide))⟩

end

/-- Settles O22: the command commits `setElement`, whose elements are known one by one. -/
theorem putStoresOneElement : Obligations.PutStoresOneElement := by
  intro s sp j addr data htg hj hbound
  obtain ⟨ha, hv⟩ : addr.toNat < s.spaceSize sp ∧ data.toNat ≤ elementMax sp := by cases sp <;> exact hbound
  have helement (sp' : Space) (j' : Fin 10) (a' : Nat) (htg' : sp' ≠ .tg) :=
    element_setElement s sp sp' j j' addr.toNat a' data.toNat htg htg' ha hv
  refine ⟨_, exec_put_of_memWrite_ok (memWrite_of_legal htg hj ha hv), ?_, fun sp' j' a' htg' hother => ?_, ?_⟩
  · exact (helement sp j addr.toNat htg).trans (if_pos ⟨rfl, rfl, fun _ => rfl⟩)
  · exact (helement sp' j' a' htg').trans (if_neg hother)
  · exact congrArg (State.respond · 0 0) (setElement_eq_with s sp j addr.toNat data.toNat)

/-- Settles O23: each clause is one refusal of `MemWrite` or `MemRead`. -/
theorem putGetRefusals : Obligations.PutGetRefusals := by
  intro s sp slot addr data legalSlot size top
  have hslot : sp.slotLegal slot = true ↔ legalSlot := slotLegal_iff
  have hsize : s.spaceSize sp = size := by cases sp <;> rfl
  have htop : elementMax sp = top := by cases sp <;> rfl
  rw [← hslot, ← hsize, ← htop]
  refine ⟨fun h => exec_put_of_memWrite_error ?_,
    fun htg hl ha => exec_put_of_memWrite_error (memWrite_of_size_le htg hl ha),
    fun htg hl ha hv => exec_put_of_memWrite_error (memWrite_of_max_lt htg hl ha hv),
    fun hl => exec_get_of_memRead_error (memRead_of_slot_not_legal hl s _),
    fun hl ha => exec_get_of_memRead_error (memRead_of_size_le hl ha), ?_⟩
  · rcases h with rfl | hl
    · exact memWrite_tg ..
    · exact memWrite_of_slot_not_legal hl ..
  · rintro rfl hl ha hgrid
    exact exec_get_of_memRead_error (memRead_tg_of_grid_not_legal hl ha hgrid)

/-- Settles O24: by whether the space is the view or has elements of its own. -/
theorem getReadsOneElement : Obligations.GetReadsOneElement := by
  intro s sp j addr hj hgrid hbound
  have ha : addr.toNat < s.spaceSize sp := by cases sp <;> exact hbound
  by_cases htg : sp = .tg
  · subst htg
    have hle : (s.mem.pmAt addr.toNat).toNat % s.gridCells ≤ 256 :=
      (Nat.mod_le _ _).trans ((element_le_elementMax s .pm j addr.toNat).trans (elementMax_le .pm))
    exact exec_get_of_memRead_ok (memRead_tg_of_legal (hj (by decide)) ha (hgrid rfl)) hle
  · have hle : s.element sp j addr.toNat ≤ 256 := (element_le_elementMax s sp j _).trans (elementMax_le sp)
    obtain ⟨d, hexec, hd⟩ := exec_get_of_memRead_ok (memRead_of_legal htg hj ha) hle
    refine ⟨d, hexec, hd.trans ?_⟩
    cases sp with
    | tg => exact absurd rfl htg
    | _ => rfl

end Sys2Proof.Machine
end

section
/-! Decoding and encoding are inverse to each other (30_encoding.md R91 to R101). -/

namespace Sys2Proof

theorem ifZero_of_eq_zero {w : CmdWord} {lo len : Nat} (h : w.extractLsb' lo len = 0) (r : Except Reject Instr) :
    ifZero w lo len r = r := if_pos h

theorem ifWellFormed_of_wellFormed {i : Instr} (h : i.wellFormed = true) (e : Reject) : ifWellFormed i e = .ok i :=
  if_pos h

theorem withSpace_of_code {w : CmdWord} {sp : Space} {f : Space → Instr} (hw : aField w = sp.code)
    (h : (f sp).wellFormed = true) : withSpace w f = .ok (f sp) := by
  rw [withSpace, hw, ofCode?_spaceCode]
  exact ifWellFormed_of_wellFormed h _

theorem withCReg_of_num {w : CmdWord} {cr : CReg} {f : CReg → Instr} (hw : crField w = cr.num)
    (h : (f cr).wellFormed = true) : withCReg w f = .ok (f cr) := by
  rw [withCReg, hw, ofNum?_num]
  exact ifWellFormed_of_wellFormed h _

theorem withGrids_of_codes {w : CmdWord} {d g : Grid} (hd : aField w = d.code) (hg : bField w = g.code)
    (f : Grid → Grid → Instr) : withGrids w f = .ok (f d g) := by
  rw [withGrids, hd, hg, ofCode?_gridCode, ofCode?_gridCode]

/-- The word of a legal command decodes to it: its opcode selects its row, its unused bits are zero, and its fields
are its operands. -/
theorem decode_encode {i : Instr} (h : i.wellFormed = true) : decode (encode i) = .ok i := by
  cases i with
  | nop | rst | clre | kseed | pbuild | split | vand | solve | recon | distrib | recover =>
    simp [decode, encode, Instr.opcode, ifZero_of_eq_zero]
  | fadd | fsub | fmul | finv | frd | knext | peval | lagr | fli =>
    simp [decode, encode, Instr.opcode, ifZero_of_eq_zero]
  | embed | extract =>
    simp [decode, encode, Instr.opcode, ifZero_of_eq_zero, ifWellFormed_of_wellFormed h]
  | crw cr imm =>
    have hcreg := withCReg_of_num (f := fun cr => .crw cr imm) (crField_formatC 0x03 cr.num imm) h
    simpa [decode, encode, Instr.opcode, ifZero_of_eq_zero] using hcreg
  | crr cr =>
    have hcreg := withCReg_of_num (f := fun cr => .crr cr) (crField_formatC 0x04 cr.num 0) h
    simpa [decode, encode, Instr.opcode, ifZero_of_eq_zero] using hcreg
  | put sp slot addr data =>
    have hspace := withSpace_of_code (f := fun sp => .put sp slot addr data)
      (aField_formatM 0x08 sp.code (fieldBits slot) data addr) h
    simpa [decode, encode, Instr.opcode] using hspace
  | get sp slot addr =>
    have hspace := withSpace_of_code (f := fun sp => .get sp slot addr)
      (aField_formatM 0x09 sp.code (fieldBits slot) 0 addr) h
    simpa [decode, encode, Instr.opcode, ifZero_of_eq_zero] using hspace
  | pxor d g =>
    have hgrids := withGrids_of_codes (aField_formatF 0x29 d.code g.code 0) (bField_formatF 0x29 d.code g.code 0) .pxor
    simpa [decode, encode, Instr.opcode, ifZero_of_eq_zero] using hgrids

/-- Every selector range of 30_encoding.md R101 is checked before a command is answered. -/
theorem wellFormed_of_decode {w : CmdWord} {i : Instr} (h : decode w = .ok i) : i.wellFormed = true := by
  unfold decode at h
  split at h
  case h_4 | h_5 =>
    obtain ⟨-, hcreg⟩ := ifZero_ok h
    obtain ⟨-, -, -, hwf⟩ := withCReg_ok hcreg
    exact hwf
  case h_6 =>
    obtain ⟨-, -, -, hwf⟩ := withSpace_ok h
    exact hwf
  case h_7 =>
    obtain ⟨-, hspace⟩ := ifZero_ok h
    obtain ⟨-, -, -, hwf⟩ := withSpace_ok hspace
    exact hwf
  case h_17 =>
    obtain ⟨-, hgrids⟩ := ifZero_ok h
    obtain ⟨d, g, -, -, rfl⟩ := withGrids_ok hgrids
    rfl
  case h_24 | h_25 =>
    obtain ⟨-, hslot⟩ := ifZero_ok h
    exact (ifWellFormed_ok hslot).2
  case h_28 => cases h
  all_goals
    obtain ⟨-, hi⟩ := ifZero_ok h
    cases hi
    rfl

/-- Settles O1: command by command. -/
theorem decodeInvertsEncode : Obligations.DecodeInvertsEncode :=
  fun _ h => decode_encode h

/-- Settles O2: the word is recovered from its fields, and the command passed the range tests. -/
theorem encodeInvertsDecode : Obligations.EncodeInvertsDecode :=
  fun _ _ h => ⟨encode_of_decode h, wellFormed_of_decode h⟩

end Sys2Proof
end

section
/-! The opcode table of 30_encoding.md R98 against the decoder: a row admits a word when the word has the row's opcode
and zero bits and its selectors lie in the row's ranges; the decoder makes the same three tests. -/

namespace Sys2Proof.Machine

/-! ### The rows by their opcode -/

theorem nodup_tableOpcodes : (opcodeTable.map fun r => opField r.pattern).Nodup := by decide

/-- Every mask keeps bits 63:56 (30_encoding.md R98). -/
theorem opField_mask : ∀ r ∈ opcodeTable, opField r.mask = BitVec.allOnes 8 := by decide

theorem opField_of_admits {r : OpcodeRow} {w : CmdWord} (hr : r ∈ opcodeTable) (h : r.admits w = true) :
    opField w = opField r.pattern := by
  have hmask : w &&& r.mask = r.pattern := by
    rw [OpcodeRow.admits, Bool.and_eq_true] at h
    exact of_decide_eq_true h.1
  calc opField w = opField w &&& opField r.mask := by rw [opField_mask r hr, BitVec.and_allOnes]
    _ = opField r.pattern := by rw [← hmask]; exact BitVec.extractLsb'_and.symm

/-- At most one row admits a word: their opcodes differ. -/
theorem row_unique {w : CmdWord} {m n : Fin opcodeTable.length} (hm : (opcodeTable.get m).admits w = true)
    (hn : (opcodeTable.get n).admits w = true) : m = n := by
  have hop := (opField_of_admits (List.get_mem ..) hm).symm.trans (opField_of_admits (List.get_mem ..) hn)
  exact Fin.ext ((nodup_tableOpcodes.getElem_inj_iff (hi := by simp) (hj := by simp)).1 (by simpa using hop))

/-- The row of an opcode. -/
def rowOf (op : BitVec 8) : Option OpcodeRow := opcodeTable.find? fun r => opField r.pattern == op

theorem exists_admits_iff {w : CmdWord} {r : OpcodeRow} (h : rowOf (opField w) = some r) :
    (∃ r' ∈ opcodeTable, r'.admits w = true) ↔ r.admits w = true := by
  have hr : r ∈ opcodeTable := List.mem_of_find?_eq_some h
  have hop : opField r.pattern = opField w := by simpa using List.find?_some h
  refine ⟨fun ⟨r', hr', hw⟩ => ?_, fun hw => ⟨r, hr, hw⟩⟩
  have heq := List.inj_on_of_nodup_map nodup_tableOpcodes hr hr' (hop.trans (opField_of_admits hr' hw))
  rwa [heq]

/-! ### The tests of a row -/

/-- The mask of a row whose words are zero in the `len` bits from bit `lo` up (30_encoding.md R98, R100). -/
def rowMask (lo len : Nat) : CmdWord := formatN 0xFF ||| (BitVec.allOnes len).setWidth 64 <<< lo

theorem getLsbD_rowMask {lo len i : Nat} (hi : i < 64) :
    (rowMask lo len).getLsbD i = (decide (56 ≤ i) || (decide (lo ≤ i) && decide (i < lo + len))) := by
  have hop : (formatN 0xFF).getLsbD i = decide (56 ≤ i) := by
    revert i; decide
  rw [rowMask, BitVec.getLsbD_or, hop, BitVec.getLsbD_shiftLeft, BitVec.getLsbD_setWidth, BitVec.getLsbD_allOnes]
  grind

/-- Under such a mask a word is a bare opcode when that is its opcode and the masked bits below it are zero. -/
theorem and_rowMask_eq_iff {lo len : Nat} (hlen : lo + len ≤ 56) (w : CmdWord) (op : BitVec 8) :
    w &&& rowMask lo len = formatN op ↔ opField w = op ∧ w.extractLsb' lo len = 0 := by
  have hformat (i : Nat) : (formatN op).getLsbD i = (decide (56 ≤ i) && op.getLsbD (i - 56)) := by
    simp [formatN]; grind
  constructor
  · intro h
    have hbit (i : Nat) (hi : i < 64) := congrArg (fun v : CmdWord => v.getLsbD i) h
    simp only [BitVec.getLsbD_and, hformat] at hbit
    constructor
    · refine BitVec.eq_of_getLsbD_eq fun i hi => ?_
      have := hbit (56 + i) (by omega)
      rw [getLsbD_rowMask (by omega)] at this
      simpa [opField, hi] using this
    · refine BitVec.eq_of_getLsbD_eq fun i hi => ?_
      have := hbit (lo + i) (by omega)
      rw [getLsbD_rowMask (by omega)] at this
      simpa [hi, show ¬ 56 ≤ lo + i by omega] using this
  · rintro ⟨rfl, hzero⟩
    refine BitVec.eq_of_getLsbD_eq fun i hi => ?_
    rw [BitVec.getLsbD_and, getLsbD_rowMask hi, hformat]
    have := getLsbD_of_extractLsb'_eq_zero (i := i) hzero
    simp [opField]
    grind

/-- Bits 55:48 lie in one of the ranges; no ranges constrain nothing. -/
def inRanges (ranges : List (Nat × Nat)) (b : BitVec 8) : Bool :=
  ranges.isEmpty || ranges.any fun p => decide (p.1 ≤ b.toNat) && decide (b.toNat ≤ p.2)

theorem admits_iff {lo len : Nat} (hlen : lo + len ≤ 56) (op : BitVec 8) (ranges : List (Nat × Nat)) (w : CmdWord) :
    OpcodeRow.admits ⟨formatN op, rowMask lo len, ranges⟩ w = true ↔
      opField w = op ∧ w.extractLsb' lo len = 0 ∧ inRanges ranges (crField w) = true := by
  rw [OpcodeRow.admits, Bool.and_eq_true, decide_eq_true_iff, and_rowMask_eq_iff hlen, and_assoc]
  rfl

/-! ### The tests of the decoder -/

theorem ifZero_isOk_iff {w : CmdWord} {lo len : Nat} {r : Except Reject Instr} :
    (∃ i, ifZero w lo len r = .ok i) ↔ w.extractLsb' lo len = 0 ∧ ∃ i, r = .ok i := by
  refine ⟨fun ⟨i, h⟩ => ?_, fun ⟨hzero, i, h⟩ => ⟨i, (if_pos hzero).trans h⟩⟩
  obtain ⟨hzero, hi⟩ := ifZero_ok h
  exact ⟨hzero, i, hi⟩

theorem ifWellFormed_isOk_iff {i : Instr} {e : Reject} : (∃ i', ifWellFormed i e = .ok i') ↔ i.wellFormed = true := by
  refine ⟨fun ⟨i', h⟩ => ?_, fun h => ⟨i, if_pos h⟩⟩
  obtain ⟨rfl, hwf⟩ := ifWellFormed_ok h
  exact hwf

theorem withCReg_isOk_iff {w : CmdWord} {f : CReg → Instr} :
    (∃ i, withCReg w f = .ok i) ↔ ((CReg.ofNum? (crField w)).any fun cr => (f cr).wellFormed) = true := by
  unfold withCReg
  split
  next cr hcr => rw [ifWellFormed_isOk_iff, hcr, Option.any_some]
  next hnone => simp [hnone]

theorem withSpace_isOk_iff {w : CmdWord} {f : Space → Instr} :
    (∃ i, withSpace w f = .ok i) ↔ ((Space.ofCode? (aField w)).any fun sp => (f sp).wellFormed) = true := by
  unfold withSpace
  split
  next sp hsp => rw [ifWellFormed_isOk_iff, hsp, Option.any_some]
  next hnone => simp [hnone]

theorem withGrids_isOk_iff {w : CmdWord} {f : Grid → Grid → Instr} :
    (∃ i, withGrids w f = .ok i) ↔
      ((Grid.ofCode? (aField w)).isSome && (Grid.ofCode? (bField w)).isSome) = true := by
  unfold withGrids
  cases Grid.ofCode? (aField w) <;> cases Grid.ofCode? (bField w) <;> simp

/-! ### Bits 55:48 as the operands of the formats -/

theorem aField_eq (w : CmdWord) : aField w = (crField w).extractLsb' 4 4 := by
  refine BitVec.eq_of_getLsbD_eq fun i hi => ?_
  simp [aField, crField]
  grind

theorem bField_eq (w : CmdWord) : bField w = (crField w).extractLsb' 0 4 := by
  refine BitVec.eq_of_getLsbD_eq fun i hi => ?_
  simp [bField, crField]
  grind

/-- The writable registers are those of the `CRW` row. -/
theorem any_writable_eq_inRanges : ∀ b : BitVec 8, (CReg.ofNum? b).any CReg.writable =
    inRanges [(0x08, 0x12), (0x20, 0x29), (0x30, 0x39), (0x40, 0x49)] b := by decide

/-- The registers are those of the `CRR` row. -/
theorem any_register_eq_inRanges : ∀ b : BitVec 8, ((CReg.ofNum? b).any fun _ => true) =
    inRanges [(0x00, 0x02), (0x04, 0x06), (0x08, 0x14), (0x20, 0x29), (0x30, 0x39), (0x40, 0x49)] b := by decide

/-- The space and slot of `PUT` are those of its row. -/
theorem put_selectors_eq_inRanges : ∀ b : BitVec 8,
    ((Space.ofCode? (b.extractLsb' 4 4)).any fun sp => decide (sp ≠ .tg) && sp.slotLegal (b.extractLsb' 0 4).toFin) =
      inRanges [(0x00, 0x00), (0x10, 0x10), (0x20, 0x20), (0x40, 0x49), (0x50, 0x50), (0x60, 0x60), (0x70, 0x70),
        (0x80, 0x80), (0x90, 0x90)] b := by decide

/-- `GET` has the view `TG` besides. -/
theorem get_selectors_eq_inRanges : ∀ b : BitVec 8,
    ((Space.ofCode? (b.extractLsb' 4 4)).any fun sp => sp.slotLegal (b.extractLsb' 0 4).toFin) =
      inRanges [(0x00, 0x00), (0x10, 0x10), (0x20, 0x20), (0x30, 0x30), (0x40, 0x49), (0x50, 0x50), (0x60, 0x60),
        (0x70, 0x70), (0x80, 0x80), (0x90, 0x90)] b := by decide

/-- The two grids of `PXOR` are those of its row. -/
theorem pxor_selectors_eq_inRanges : ∀ b : BitVec 8,
    ((Grid.ofCode? (b.extractLsb' 4 4)).isSome && (Grid.ofCode? (b.extractLsb' 0 4)).isSome) =
      inRanges [(0x00, 0x01), (0x10, 0x11)] b := by decide

/-- The slot of `EMBED` and `EXTRACT` is that of their rows, once the four bits below it are zero. -/
theorem slot_selector_eq_inRanges : ∀ b : BitVec 8, b.extractLsb' 0 4 = 0 →
    decide ((b.extractLsb' 4 4).toFin.val ≤ 9) = inRanges [(0x00, 0x90)] b := by decide

theorem bField_eq_zero {w : CmdWord} (h : w.extractLsb' 0 52 = 0) : (crField w).extractLsb' 0 4 = 0 := by
  rw [← bField_eq]
  refine BitVec.eq_of_getLsbD_eq fun i hi => ?_
  have := getLsbD_of_extractLsb'_eq_zero (i := 48 + i) h
  simp [bField]
  grind

/-! ### The decoder and the table -/

section

variable {w : CmdWord} {num lo len : Nat} {res : Except Reject Instr} {ranges : List (Nat × Nat)}

/-- An arm of the decoder accepts a word exactly if the row of its opcode admits it, when the test after the
must-be-zero bits accepts the row's ranges. -/
theorem arm_isOk_iff (hnum : (opField w).toNat = num)
    (hrow : rowOf (BitVec.ofNat 8 num) = some ⟨formatN (BitVec.ofNat 8 num), rowMask lo len, ranges⟩)
    (hlen : lo + len ≤ 56)
    (hres : w.extractLsb' lo len = 0 → ((∃ i, res = .ok i) ↔ inRanges ranges (crField w) = true)) :
    (∃ i, ifZero w lo len res = .ok i) ↔ ∃ r ∈ opcodeTable, r.admits w = true := by
  have hop : opField w = BitVec.ofNat 8 num := by rw [← hnum, BitVec.ofNat_toNat, BitVec.setWidth_eq]
  rw [← hop] at hrow
  rw [exists_admits_iff hrow, admits_iff hlen, ifZero_isOk_iff, and_congr_right hres, and_iff_right rfl]

/-- The arm of a command without selectors. -/
theorem unconstrained_arm_isOk_iff {i : Instr} (hnum : (opField w).toNat = num)
    (hrow : rowOf (BitVec.ofNat 8 num) = some ⟨formatN (BitVec.ofNat 8 num), rowMask lo len, []⟩)
    (hlen : lo + len ≤ 56) :
    (∃ i', ifZero w lo len (.ok i) = .ok i') ↔ ∃ r ∈ opcodeTable, r.admits w = true :=
  arm_isOk_iff hnum hrow hlen fun _ => iff_of_true ⟨i, rfl⟩ rfl

/-- The arm of `EMBED` and `EXTRACT`: with the bits below it zero, the slot alone is in bits 55:48. -/
theorem slot_arm_isOk_iff {i : Instr} (hnum : (opField w).toNat = num)
    (hrow : rowOf (BitVec.ofNat 8 num) = some ⟨formatN (BitVec.ofNat 8 num), rowMask 0 52, [(0x00, 0x90)]⟩)
    (hi : i.wellFormed = decide ((aField w).toFin.val ≤ 9)) :
    (∃ i', ifZero w 0 52 (ifWellFormed i .selectorRange) = .ok i') ↔ ∃ r ∈ opcodeTable, r.admits w = true := by
  refine arm_isOk_iff hnum hrow (by decide) fun hzero => ?_
  rw [ifWellFormed_isOk_iff, hi, aField_eq, slot_selector_eq_inRanges _ (bField_eq_zero hzero)]

end

/-- The opcodes of the rows, in numbers. -/
theorem toNat_opField_pattern : ∀ r ∈ opcodeTable, (opField r.pattern).toNat ∈
    [0x00, 0x01, 0x02, 0x03, 0x04, 0x08, 0x09, 0x10, 0x11, 0x12, 0x13, 0x14, 0x15, 0x20, 0x21, 0x28, 0x29, 0x30, 0x31,
      0x38, 0x39, 0x3A, 0x3B, 0x40, 0x41, 0x48, 0x49] := by decide

/-- The decoder accepts exactly the words of the table: arm by arm, each against the row of its opcode. -/
theorem decode_isOk_iff (w : CmdWord) : (∃ i, decode w = .ok i) ↔ ∃ r ∈ opcodeTable, r.admits w = true := by
  unfold decode
  split
  all_goals rename_i hnum
  case h_4 =>
    refine arm_isOk_iff hnum rfl (by decide) fun _ => ?_
    rw [withCReg_isOk_iff, ← any_writable_eq_inRanges]
    rfl
  case h_5 =>
    refine arm_isOk_iff hnum rfl (by decide) fun _ => ?_
    rw [withCReg_isOk_iff, ← any_register_eq_inRanges]
    rfl
  case h_6 =>
    have hzero : w.extractLsb' 0 0 = 0 := BitVec.of_length_zero
    rw [← ifZero_of_eq_zero hzero (withSpace _ _)]
    refine arm_isOk_iff hnum rfl (by decide) fun _ => ?_
    rw [withSpace_isOk_iff, ← put_selectors_eq_inRanges, ← aField_eq, ← bField_eq]
    rfl
  case h_7 =>
    refine arm_isOk_iff hnum rfl (by decide) fun _ => ?_
    rw [withSpace_isOk_iff, ← get_selectors_eq_inRanges, ← aField_eq, ← bField_eq]
    rfl
  case h_17 =>
    refine arm_isOk_iff hnum rfl (by decide) fun _ => ?_
    rw [withGrids_isOk_iff, ← pxor_selectors_eq_inRanges, ← aField_eq, ← bField_eq]
  case h_24 | h_25 => exact slot_arm_isOk_iff hnum rfl rfl
  case h_28 =>
    refine iff_of_false (fun ⟨i, h⟩ => by cases h) fun ⟨r, hr, hw⟩ => ?_
    have hop := toNat_opField_pattern r hr
    rw [← opField_of_admits hr hw] at hop
    simp only [List.mem_cons, List.not_mem_nil, or_false] at hop
    simp_all only [imp_false, or_self]
  all_goals exact unconstrained_arm_isOk_iff hnum rfl (by decide)

/-- Settles O3: the decoder against the rows, and the rows against each other. -/
theorem legalWordsAreTheOpcodeTable : Obligations.LegalWordsAreTheOpcodeTable :=
  fun w => ⟨decode_isOk_iff w, fun _ _ => row_unique⟩

end Sys2Proof.Machine
end

section
/-! Rejected words, and the response of every word (30_encoding.md R102, R103, R109). -/

namespace Sys2Proof

/-- `op` is the word's top byte, in numbers (30_encoding.md R91). -/
theorem toNat_opField (w : CmdWord) : (opField w).toNat = w.toNat / 2 ^ 56 := by
  rw [opField, BitVec.extractLsb'_toNat, Nat.shiftRight_eq_div_pow]
  exact Nat.mod_eq_of_lt (Nat.div_lt_of_lt_mul w.isLt)

/-- Settles O5: none of the ranges holds an opcode of the table, so the decoder falls to its last arm. -/
theorem unassignedOpcodesAreIllegal : Obligations.UnassignedOpcodesAreIllegal := by
  intro w h
  simp only [← toNat_opField] at h
  unfold decode
  split
  case h_28 => rfl
  all_goals omega

/-- Settles O4: by evaluating the decoder on each word. -/
theorem exampleWordsDecode : Obligations.ExampleWordsDecode := by
  unfold Obligations.ExampleWordsDecode
  decide

end Sys2Proof

namespace Sys2Proof.Machine

/-- Settles O6: the step takes the fault `E_ILLEGAL`, which is one update; and the decoder is a function. -/
theorem illegalWordFaults : Obligations.IllegalWordFaults := by
  refine ⟨fun s w rest e hcmds hd => ?_, fun w => ?_⟩
  · rw [step_of_reject hcmds hd, takeFault_eq]
    rfl
  · cases hd : decode w with
    | ok i => exact .inl ⟨i, rfl, fun i' hi' => (Except.ok.inj hi').symm⟩
    | error e => exact .inr ⟨⟨e, rfl⟩, fun i hi => by cases hi⟩

/-- Every command but `CRR`, `GET` and `FRD` ends as one that answers no data (30_encoding.md R109). -/
theorem answers_data_or_quiet (i : Instr) (s : State) :
    ((∃ cr, i = .crr cr) ∨ (∃ sp slot addr, i = .get sp slot addr) ∨ ∃ a, i = .frd a) ∨
      ∃ r, exec i s = completeQuiet i s r := by
  cases i with
  | crr cr => exact .inl (.inl ⟨cr, rfl⟩)
  | get sp slot addr => exact .inl (.inr (.inl ⟨sp, slot, addr, rfl⟩))
  | frd a => exact .inl (.inr (.inr ⟨a, rfl⟩))
  | nop | rst | clre | fadd | fsub | fmul | kseed | knext => exact .inr ⟨.ok _, rfl⟩
  | _ => exact .inr ⟨_, rfl⟩

/-- A command that answers no data responds with data 0, whether it faults or not. -/
theorem completeQuiet_data_eq_zero {i : Instr} {s t : State} {x : Except ErrKind State} {r : Response}
    {rs : List Response} (h : completeQuiet i s x = .next t) (hr : t.resps = r :: rs) : r.data = 0 := by
  rcases completeQuiet_cases h with ⟨u, -, rfl⟩ | ⟨e, -, rfl⟩
  · rw [respond_resps, List.cons.injEq] at hr
    rw [← hr.1]
  · rw [takeFault_resps, List.cons.injEq] at hr
    rw [← hr.1]

/-- Every command gives one response: status 0, or the code of its fault with data 0. -/
theorem exec_responds (i : Instr) (s : State) :
    ∃ (t : State) (r : Response), exec i s = .next t ∧ t.cmds = s.cmds ∧ t.resps = r :: s.resps ∧
      (r.status = 0 ∨ (r.status ∈ raisedCodes ∧ r.data = 0)) := by
  rcases exec_cases i s with ⟨u, d, hexec, hcmds, hresps, -, -⟩ | ⟨e, hexec⟩
  · exact ⟨_, ⟨0, d⟩, hexec, hcmds, by rw [respond_resps, hresps], .inl rfl⟩
  · exact ⟨_, ⟨e.code, 0⟩, hexec, takeFault_cmds .., takeFault_resps .., .inr ⟨code_mem_raisedCodes e, rfl⟩⟩

/-- Settles O9: an illegal word takes `E_ILLEGAL`, and a command's response has data only if the command answers
data. -/
theorem oneResponsePerCommand : Obligations.OneResponsePerCommand := by
  intro s w rest hcmds
  cases hd : decode w with
  | error e =>
    exact ⟨_, ⟨ErrKind.illegal.code, 0⟩, step_of_reject hcmds hd, takeFault_cmds .., takeFault_resps ..,
      .inr ⟨code_mem_raisedCodes .illegal, rfl⟩, fun h => absurd rfl h⟩
  | ok i =>
    obtain ⟨t, r, hexec, ht, hr, hsound⟩ := exec_responds i { s with cmds := rest }
    refine ⟨t, r, (step_of_decode hcmds hd).trans hexec, ht, hr, hsound, fun hdata => ?_⟩
    simp only [Except.ok.injEq]
    rcases answers_data_or_quiet i { s with cmds := rest } with hanswers | ⟨x, hquiet⟩
    · exact hanswers
    · exact absurd (completeQuiet_data_eq_zero (hquiet.symm.trans hexec) hr) hdata

end Sys2Proof.Machine
end

section
/-! `NOP` and `CLRE` (40_system_access.md R121, R123): both pass without a check, so each ends as `completeQuiet_ok`
says. -/

namespace Sys2Proof.Machine

/-- `NOP` commits the state it started from. -/
theorem exec_nop (s : State) : exec .nop s = .next (s.respond 0 0) :=
  completeQuiet_ok .nop s s

/-- `CLRE` commits the clearing of the sticky error (60_exceptions.md R288). -/
theorem exec_clre (s : State) : exec .clre s = .next ((clearError s).respond 0 0) :=
  completeQuiet_ok .clre s (clearError s)

/-- Settles O18: the response is all `NOP` adds to the state; `CLRE` adds it to the state with the error cleared. -/
theorem nopKeepsClreClears : Obligations.NopKeepsClreClears :=
  fun s => ⟨exec_nop s, exec_clre s⟩

end Sys2Proof.Machine
end

section
/-! The field commands (41_field.md): the laws of the four field functions, the field registers after a write, and
what each of the six commands ends with. -/

namespace Sys2Proof.Machine

/-! ### The functions as numbers (41_field.md R141 to R143) -/

theorem fadd_val (a b : GF) : (fadd a b).val = (a.val + b.val) % 257 := rfl

theorem fsub_val (a b : GF) : (fsub a b).val = (a.val + 257 - b.val) % 257 := rfl

theorem fmul_val (a b : GF) : (fmul a b).val = (a.val * b.val) % 257 := rfl

/-- A product is 1 exactly when the numbers' product is 1 modulo 257. -/
theorem fmul_eq_one_iff {a b : GF} : fmul a b = 1 ↔ (a.val * b.val) % 257 = 1 := by
  rw [Fin.ext_iff, fmul_val]
  rfl

/-! ### The laws, each from the law of the classes modulo 257 (41_field.md R146) -/

theorem fadd_comm (a b : GF) : fadd a b = fadd b a :=
  gfClass_injective.1 (by simp only [gfClass_fadd, add_comm])

theorem fmul_comm (a b : GF) : fmul a b = fmul b a :=
  gfClass_injective.1 (by simp only [gfClass_fmul, mul_comm])

theorem fadd_assoc (a b c : GF) : fadd (fadd a b) c = fadd a (fadd b c) :=
  gfClass_injective.1 (by simp only [gfClass_fadd, add_assoc])

theorem fmul_assoc (a b c : GF) : fmul (fmul a b) c = fmul a (fmul b c) :=
  gfClass_injective.1 (by simp only [gfClass_fmul, mul_assoc])

theorem fmul_fadd (a b c : GF) : fmul a (fadd b c) = fadd (fmul a b) (fmul a c) :=
  gfClass_injective.1 (by simp only [gfClass_fmul, gfClass_fadd, mul_add])

theorem fadd_zero (a : GF) : fadd a 0 = a :=
  gfClass_injective.1 (by rw [gfClass_fadd, gfClass_zero, add_zero])

theorem fmul_one (a : GF) : fmul a 1 = a :=
  gfClass_injective.1 (by rw [gfClass_fmul, gfClass_one, mul_one])

theorem fmul_zero (a : GF) : fmul a 0 = 0 :=
  gfClass_injective.1 (by rw [gfClass_fmul, gfClass_zero, mul_zero])

theorem fsub_self (a : GF) : fsub a a = 0 :=
  gfClass_injective.1 (by rw [gfClass_fsub, gfClass_zero, sub_self])

theorem fadd_fsub_cancel (a b : GF) : fadd (fsub a b) b = a :=
  gfClass_injective.1 (by rw [gfClass_fadd, gfClass_fsub, sub_add_cancel])

/-- There are no zero divisors, because 257 is prime. -/
theorem fmul_eq_zero_iff {a b : GF} : fmul a b = 0 ↔ a = 0 ∨ b = 0 := by
  have : Fact (Nat.Prime 257) := ⟨by norm_num⟩
  rw [← gfClass_eq_zero, gfClass_fmul, mul_eq_zero, gfClass_eq_zero, gfClass_eq_zero]

/-! ### Inverses (41_field.md R144) -/

/-- `finv` finds exactly the elements whose product with the argument is 1: two such elements are equal, so the
search has one result. -/
theorem finv_eq_some_iff {a x : GF} : finv a = some x ↔ fmul a x = 1 := by
  have : Fact (Nat.Prime 257) := ⟨by norm_num⟩
  rw [← gfClass_injective, gfClass_fmul, gfClass_one]
  refine ⟨gfClass_finv, fun hx => ?_⟩
  have ha : a ≠ 0 := by
    rintro rfl
    simp at hx
  obtain ⟨y, hy⟩ := finv_some ha
  have hyx : y = x := gfClass_injective.1 ((gfClass_finv_eq hy).trans (eq_inv_of_mul_eq_one_right hx).symm)
  rw [hy, hyx]

/-- What has an inverse is the inverse of it. -/
theorem finv_symm {a x : GF} (h : finv a = some x) : finv x = some a := by
  rw [finv_eq_some_iff, fmul_comm]
  exact finv_eq_some_iff.1 h

/-- 0 is no inverse. -/
theorem finv_result_ne_zero {a x : GF} (h : finv a = some x) : x ≠ 0 := by
  rintro rfl
  exact absurd (finv_symm h) (by simp [finv_eq_none.2 rfl])

/-- Settles O29: law by law; `finv` is its own inverse because the product does not depend on the order. -/
theorem fieldLaws : Obligations.FieldLaws :=
  fun a b c => ⟨fadd_comm a b, fmul_comm a b, fadd_assoc a b c, fmul_assoc a b c, fmul_fadd a b c, fadd_zero a,
    fmul_one a, fmul_zero a, fsub_self a, fadd_fsub_cancel a b, fmul_eq_zero_iff,
    fun _ hx => ⟨finv_eq_some_iff.1 hx, finv_symm hx⟩,
    finv_eq_some_iff.2 (fmul_one 1), finv_eq_some_iff.2 (by decide)⟩

/-! ### The field registers after a write -/

theorem writeF_get_same (s : State) (a : Fin 16) (v : GF) : (s.writeF a v).f[a] = v :=
  Vector.getElem_set_self a.isLt

theorem writeF_get_of_ne (s : State) {a r : Fin 16} (h : r ≠ a) (v : GF) : (s.writeF a v).f[r] = s.f[r] :=
  Vector.getElem_set_ne a.isLt r.isLt (Fin.val_ne_of_ne h.symm)

/-- A command that commits a field write puts the value in its destination and leaves everything else as it was. -/
theorem next_writeF_only {i : Instr} {s : State} {a : Fin 16} {v : GF} (P : GF → Prop) (hv : P v)
    (h : exec i s = .next ((s.writeF a v).respond 0 0)) :
    ∃ t : State, exec i s = .next t ∧ P t.f[a] ∧ (∀ r : Fin 16, r ≠ a → t.f[r] = s.f[r]) ∧
      t = { s with f := t.f, resps := ⟨0, 0⟩ :: s.resps } :=
  ⟨_, h, (writeF_get_same s a v).symm ▸ hv, fun _ hr => writeF_get_of_ne s hr v, rfl⟩

/-! ### The commands -/

section
variable {s : State} {a b : Fin 16} {imm : BitVec 32}

theorem exec_fli_of_le (h : imm.toNat ≤ 256) :
    exec (.fli a imm) s = .next ((s.writeF a (Fin.ofNat 257 imm.toNat)).respond 0 0) := by
  simp only [exec, execFli, if_neg (Nat.not_lt.2 h), completeQuiet_ok]

theorem exec_fli_of_lt (h : 256 < imm.toNat) :
    exec (.fli a imm) s = .next (takeFault .operand (encode (.fli a imm)) s) := by
  simp only [exec, execFli, if_pos h, completeQuiet_error]

theorem exec_finv_of_some {x : GF} (h : finv s.f[b] = some x) :
    exec (.finv a b) s = .next ((s.writeF a x).respond 0 0) := by
  simp only [exec, execFinv, State.readF, h, completeQuiet_ok]

theorem exec_finv_of_zero (h : s.f[b] = 0) :
    exec (.finv a b) s = .next (takeFault .noInverse (encode (.finv a b)) s) := by
  simp only [exec, execFinv, State.readF, finv_eq_none.2 h, completeQuiet_error]

end

theorem exec_fadd (s : State) (a b c : Fin 16) :
    exec (.fadd a b c) s = .next ((s.writeF a (fadd s.f[b] s.f[c])).respond 0 0) :=
  completeQuiet_ok (.fadd a b c) s _

theorem exec_fsub (s : State) (a b c : Fin 16) :
    exec (.fsub a b c) s = .next ((s.writeF a (fsub s.f[b] s.f[c])).respond 0 0) :=
  completeQuiet_ok (.fsub a b c) s _

theorem exec_fmul (s : State) (a b c : Fin 16) :
    exec (.fmul a b c) s = .next ((s.writeF a (fmul s.f[b] s.f[c])).respond 0 0) :=
  completeQuiet_ok (.fmul a b c) s _

theorem exec_frd (s : State) (a : Fin 16) :
    exec (.frd a) s = .next (s.respond 0 (BitVec.ofNat 32 s.f[a].val)) :=
  complete_ok (.frd a) s s _

/-- Settles O27: a nonzero source has an inverse, which is written; 0 has none. -/
theorem finvInvertsOrFaults : Obligations.FinvInvertsOrFaults := by
  intro s a b
  refine ⟨fun hb => ?_, exec_finv_of_zero⟩
  obtain ⟨x, hx⟩ := finv_some hb
  have hprod : (s.f[b].val * x.val) % 257 = 1 := fmul_eq_one_iff.1 (finv_eq_some_iff.1 hx)
  exact next_writeF_only (fun v => (s.f[b].val * v.val) % 257 = 1) hprod (exec_finv_of_some hx)

/-- Settles O28: a number `y` in `[1, 256]` with product 1 is a field element, so `finv` finds it. -/
theorem inverseIsUnique : Obligations.InverseIsUnique := by
  refine ⟨fun a ha => ?_, finv_eq_none.2 rfl, fun _ _ _ => exec_finv_of_zero⟩
  obtain ⟨x, hx⟩ := finv_some (Fin.pos_iff_ne_zero.1 ha)
  refine ⟨x, hx, Fin.pos_iff_ne_zero.2 (finv_result_ne_zero hx), Nat.le_of_lt_succ x.isLt,
    fmul_eq_one_iff.1 (finv_eq_some_iff.1 hx), fun y _ hy hprod => ?_⟩
  have hfound : finv a = some ⟨y, Nat.lt_succ_of_le hy⟩ := finv_eq_some_iff.2 (fmul_eq_one_iff.2 hprod)
  have hxy : (⟨y, Nat.lt_succ_of_le hy⟩ : GF) = x := Option.some.inj (hfound.symm.trans hx)
  exact congrArg Fin.val hxy

/-- Settles O25: a value up to 256 is its own residue modulo 257. -/
theorem fliLoadsOrRefuses : Obligations.FliLoadsOrRefuses :=
  fun _ _ imm => ⟨fun h => next_writeF_only (fun v => v.val = imm.toNat) (Nat.mod_eq_of_lt (Nat.lt_succ_of_le h))
    (exec_fli_of_le h), exec_fli_of_lt⟩

/-- Settles O26: each command commits the value of its function at the sources' old values. -/
theorem fieldSumDifferenceProduct : Obligations.FieldSumDifferenceProduct :=
  fun s a b c => ⟨next_writeF_only (fun v => v.val = _) (fadd_val _ _) (exec_fadd s a b c),
    next_writeF_only (fun v => v.val = _) (fsub_val _ _) (exec_fsub s a b c),
    next_writeF_only (fun v => v.val = _) (fmul_val _ _) (exec_fmul s a b c)⟩

/-- Settles O30: a field element is small enough to be answered whole. -/
theorem frdResponds : Obligations.FrdResponds :=
  fun s a => ⟨_, exec_frd s a, Nat.mod_eq_of_lt (s.f[a].isLt.trans (by decide))⟩

end Sys2Proof.Machine
end

section
/-! The keystream (42_keystream.md): what `KSEED`, `KNEXT` and `PBUILD` end with, and runs of `KNEXT`. The sequence
itself is that of `ksAfter` and `ksBytes`. -/

namespace Sys2Proof.Machine

/-! ### The seeded state and the sequence, as numbers (42_keystream.md R161, R162) -/

/-- The seed reaches the low 16 bits only, so the multiplier's high bits stand unchanged. -/
theorem toNat_ksSeed (v : BitVec 16) : (ksSeed v).toNat = 0x5DEEC * 2 ^ 16 + (0xE66D ^^^ v.toNat) := by
  have hv : v.toNat < 2 ^ 16 := v.isLt
  have hmask : ksSeed v = 0x5DEECE66D#48 ^^^ v.setWidth 48 :=
    (BitVec.and_allOnes (x := v.setWidth 48 ^^^ 0x5DEECE66D#48)).trans (BitVec.xor_comm _ _)
  have hnat : (ksSeed v).toNat = 0x5DEECE66D ^^^ v.toNat := by
    rw [hmask, BitVec.toNat_xor, BitVec.toNat_setWidth_of_le (by decide)]
    rfl
  have hhigh : (0x5DEECE66D ^^^ v.toNat) / 2 ^ 16 = 0x5DEEC := by
    rw [Nat.xor_div_two_pow, Nat.div_eq_of_lt hv, Nat.xor_zero]
  have hlow : (0x5DEECE66D ^^^ v.toNat) % 2 ^ 16 = 0xE66D ^^^ v.toNat := by
    rw [Nat.xor_mod_two_pow, Nat.mod_eq_of_lt hv]
  rw [hnat, ← Nat.div_add_mod' (0x5DEECE66D ^^^ v.toNat) (2 ^ 16), hhigh, hlow]

/-- A sequence of numbers that starts at a generator state and follows R162 is the generator's sequence of states. -/
theorem toNat_ksAfter {st : Nat → Nat} {s : BitVec 48} (hzero : s.toNat = st 0)
    (hsucc : ∀ i, st (i + 1) = (0x5DEECE66D * st i + 0xB) % 2 ^ 48) (count : Nat) :
    (ksAfter count s).toNat = st count := by
  induction count with
  | zero => exact hzero
  | succ count ih => rw [ksAfter_succ, toNat_ksStep, ih, hsucc]

/-! ### The commands -/

theorem exec_kseed (s : State) : exec .kseed s = .next ({ s with ks := ksSeed s.seed }.respond 0 0) :=
  completeQuiet_ok .kseed s _

theorem exec_knext (s : State) (a : Fin 16) :
    exec (.knext a) s = .next (({ s with ks := ksStep s.ks }.writeF a (sampleToGF (ksByte s.ks))).respond 0 0) :=
  completeQuiet_ok (.knext a) s _

theorem exec_pbuild_of_legal {s : State} (h : s.GridLegal) :
    exec .pbuild s = .next ((s.buildTable s.gridCells).respond 0 0) := by
  simp only [exec, execPbuild, gridLength_of_legal h, completeQuiet_ok]

/-- Settles O31: the register written holds the byte drawn, and a byte is its own residue modulo 257. -/
theorem kseedKnextAdvanceGenerator : Obligations.KseedKnextAdvanceGenerator := by
  intro s a
  have hbyte : (sampleToGF (ksByte s.ks)).val = (ksStep s.ks).toNat / 2 ^ 40 :=
    (sampleToGF_val _).trans (toNat_ksByte _)
  exact ⟨⟨_, exec_kseed s, toNat_ksSeed s.seed, rfl⟩,
    ⟨_, exec_knext s a, toNat_ksStep s.ks, (congrArg Fin.val (writeF_get_same _ a _)).trans hbyte,
      fun _ hr => writeF_get_of_ne _ hr _, rfl⟩⟩

/-- Settles O33: element `p` is the byte of draw `p + 1`, whose state is number `p + 1` of the sequence. -/
theorem pbuildBuildsTable : Obligations.PbuildBuildsTable := by
  intro s st hgrid hzero hsucc
  have hstate := toNat_ksAfter ((toNat_ksSeed s.seed).trans hzero.symm) hsucc
  refine ⟨_, exec_pbuild_of_legal hgrid, fun p hp => ?_, fun p hp => ?_, hstate _, rfl⟩
  · rw [respond_mem, pmAt_buildTable, getElem?_ksBytes _ _ p hp, Option.getD_some, toNat_ksByte, ← ksAfter_succ,
      hstate]
  · rw [respond_mem, pmAt_buildTable, List.getElem?_eq_none (by rwa [length_ksBytes]), Option.getD_none]

/-! ### Runs -/

/-- A run goes on from the state its first step ends in. -/
theorem run_of_step {s t : State} (h : step s = .next t) (count : Nat) :
    Sys2Proof.core.run (count + 1) s = Sys2Proof.core.run count t := by
  have hstep : Sys2Proof.core.step s = .next t := h
  simp only [Host.Core.run, hstep]

/-- A run over an issued command goes on from the state the command ends in. -/
theorem run_of_exec {s t : State} {i : Instr} {rest : List CmdWord} (hwf : i.wellFormed = true)
    (hcmds : s.cmds = encode i :: rest) (h : exec i { s with cmds := rest } = .next t) (count : Nat) :
    Sys2Proof.core.run (count + 1) s = Sys2Proof.core.run count t :=
  run_of_step ((step_of_decode hcmds (decode_encode hwf)).trans h) count

/-- `count + 1` pending draws advance the generator as often, keep `SEED`, and leave the last byte in the register:
nothing else of the state the run starts from has a part in it. -/
theorem run_knext {s : State} {a : Fin 16} {count : Nat}
    (hcmds : s.cmds = List.replicate (count + 1) (encode (.knext a))) :
    ∃ t : State, Sys2Proof.core.run (count + 1) s = .next t ∧ t.ks = ksAfter (count + 1) s.ks ∧
      t.f[a] = sampleToGF (ksByte (ksAfter count s.ks)) ∧ t.seed = s.seed := by
  induction count generalizing s with
  | zero => exact ⟨_, run_of_exec rfl hcmds (exec_knext _ a) 0, rfl, writeF_get_same _ a _, rfl⟩
  | succ count ih =>
    rw [run_of_exec rfl hcmds (exec_knext _ a)]
    exact ih rfl

/-- `KSEED` and `count + 1` draws end with a generator state, a last byte and a `SEED` given by `SEED` alone. -/
theorem run_kseed_knext {s : State} {a : Fin 16} {count : Nat}
    (hcmds : s.cmds = encode .kseed :: List.replicate (count + 1) (encode (.knext a))) :
    ∃ t : State, Sys2Proof.core.run (count + 2) s = .next t ∧ t.ks = ksAfter (count + 1) (ksSeed s.seed) ∧
      t.f[a] = sampleToGF (ksByte (ksAfter count (ksSeed s.seed))) ∧ t.seed = s.seed := by
  rw [run_of_exec rfl hcmds (exec_kseed _)]
  exact run_knext rfl

/-- Settles O32: both runs end with the values of the one seed's sequence. -/
theorem keystreamIsDeterministic : Obligations.KeystreamIsDeterministic := by
  intro s s' a a' N hseed hcmds hcmds'
  obtain ⟨t, hrun, hks, hbyte, hkept⟩ := run_kseed_knext hcmds
  obtain ⟨t', hrun', hks', hbyte', -⟩ := run_kseed_knext hcmds'
  exact ⟨t, t', hrun, hrun', by rw [hks, hks', hseed], by rw [hbyte, hbyte', hseed], hkept⟩

end Sys2Proof.Machine
end

section
/-! The permutation (43_permutation.md): what `PXOR` ends with, the table as a function of the seed alone, and what
masking twice with one table leaves. -/

namespace Sys2Proof.Machine

/-! ### States with one grid -/

theorem gridCells_congr {s u : State} (hw : u.w = s.w) (hh : u.h = s.h) : u.gridCells = s.gridCells := by
  rw [State.gridCells, hw, hh]

theorem gridLegal_congr {s u : State} (hw : u.w = s.w) (hh : u.h = s.h) (hlmax : u.lmax = s.lmax) :
    u.GridLegal ↔ s.GridLegal := by
  rw [State.GridLegal, gridCells_congr hw hh, hw, hh, hlmax]

/-! ### The table (43_permutation.md R171) -/

/-- An entry of the table is a byte of the seed's sequence; the length only says how far the table goes. -/
theorem pmAt_buildTable_of_lt (s : State) {L p : Nat} (hp : p < L) :
    (s.buildTable L).mem.pmAt p = ksByte (ksAfter p (ksSeed s.seed)) := by
  rw [pmAt_buildTable, getElem?_ksBytes _ _ p hp, Option.getD_some]

/-- Settles O34: entries and generator state are values of the one seed's sequence. -/
theorem tableDependsOnSeedAndLength : Obligations.TableDependsOnSeedAndLength := by
  intro s s' t t' hgrid hgrid' hseed ht ht'
  obtain rfl := Host.Outcome.next.inj ((exec_pbuild_of_legal hgrid).symm.trans ht)
  obtain rfl := Host.Outcome.next.inj ((exec_pbuild_of_legal hgrid').symm.trans ht')
  refine ⟨fun p hp hp' => ?_, fun hcells => ?_⟩
  · rw [respond_mem, respond_mem, pmAt_buildTable_of_lt s hp, pmAt_buildTable_of_lt s' hp', hseed]
  · rw [respond_ks, respond_ks, buildTable_ks, buildTable_ks, hcells, hseed]

/-! ### Masking (43_permutation.md R172, R175) -/

theorem exec_pxor_of_legal {s : State} (h : s.GridLegal) (d g : Grid) :
    exec (.pxor d g) s = .next ((s.xorGrid d g s.gridCells).respond 0 0) := by
  simp only [exec, execPxor, gridLength_of_legal h, completeQuiet_ok]

theorem gridAt_xorGrid_of_lt (s : State) (d g : Grid) {L p : Nat} (hp : p < L) :
    (s.xorGrid d g L).mem.gridAt d p = s.mem.gridAt g p ^^^ s.mem.pmAt p := by
  rw [gridAt_xorGrid, if_pos hp]

theorem gridAt_writeGrid_of_ne {d g : Grid} (h : g ≠ d) (s : State) (vs : List Byte) (p : Nat) :
    (s.writeGrid d vs).mem.gridAt g p = s.mem.gridAt g p := by
  match d, g with
  | .sg, .sg | .dg, .dg => exact absurd rfl h
  | .sg, .dg => exact dgAt_writeGrid_sg s vs p
  | .dg, .sg => exact sgAt_writeGrid_dg s vs p

/-- Past the grid length masking changes neither grid. -/
theorem gridAt_xorGrid_of_le (s : State) (d g g' : Grid) {L p : Nat} (hp : L ≤ p) :
    (s.xorGrid d g L).mem.gridAt g' p = s.mem.gridAt g' p := by
  by_cases hg : g' = d
  · rw [hg, gridAt_xorGrid, if_neg (Nat.not_lt.2 hp)]
  · exact gridAt_writeGrid_of_ne hg s _ p

@[simp] theorem pmAt_xorGrid (s : State) (d g : Grid) (L p : Nat) :
    (s.xorGrid d g L).mem.pmAt p = s.mem.pmAt p := pmAt_writeGrid ..

/-- 43_permutation.md R176: masking `g` into `d` and then `d` into `g` leaves `g` as it was, also where `d` is `g`. -/
theorem gridAt_xorGrid_xorGrid (s : State) (d g : Grid) (L p : Nat) :
    ((s.xorGrid d g L).xorGrid g d L).mem.gridAt g p = s.mem.gridAt g p := by
  rcases Nat.lt_or_ge p L with hp | hp
  · rw [gridAt_xorGrid_of_lt _ _ _ hp, gridAt_xorGrid_of_lt _ _ _ hp, pmAt_xorGrid, BitVec.xor_assoc,
      BitVec.xor_self, BitVec.xor_zero]
  · rw [gridAt_xorGrid_of_le _ _ _ _ hp, gridAt_xorGrid_of_le _ _ _ _ hp]

/-- Settles O35: the elements as `xorGrid` writes them, the frame by the destination. -/
theorem pxorMasksGrid : Obligations.PxorMasksGrid := by
  intro s d g hgrid
  refine ⟨_, exec_pxor_of_legal hgrid d g, fun p hp => gridAt_xorGrid_of_lt s d g hp,
    fun p hp => gridAt_xorGrid_of_le s d g d hp, ?_, ?_⟩
  · rintro rfl; rfl
  · rintro rfl; rfl

/-- After `PXOR` the grid has the length it had, so a second `PXOR` back completes and restores the source. -/
theorem exec_pxor_pxor_restores {s : State} (h : s.GridLegal) (d g : Grid) :
    ∃ t u : State, exec (.pxor d g) s = .next t ∧ exec (.pxor g d) t = .next u ∧
      ∀ p, u.mem.gridAt g p = s.mem.gridAt g p := by
  have hw : ((s.xorGrid d g s.gridCells).respond 0 0).w = s.w := writeGrid_w ..
  have hh : ((s.xorGrid d g s.gridCells).respond 0 0).h = s.h := writeGrid_h ..
  have hlmax : ((s.xorGrid d g s.gridCells).respond 0 0).lmax = s.lmax := writeGrid_lmax ..
  refine ⟨_, _, exec_pxor_of_legal h d g, exec_pxor_of_legal ((gridLegal_congr hw hh hlmax).2 h) g d, fun p => ?_⟩
  rw [gridCells_congr hw hh, respond_xorGrid]
  exact gridAt_xorGrid_xorGrid s d g s.gridCells p

/-- Settles O37: both parts are masking there and back. -/
theorem diffusionIsInvolution : Obligations.DiffusionIsInvolution :=
  fun _ hgrid => ⟨exec_pxor_pxor_restores hgrid .dg .sg, fun g => exec_pxor_pxor_restores hgrid g g⟩

end Sys2Proof.Machine
end

section
/-! Reconstruction from the shares of one `SPLIT` (45_reconstruction.md R218), and from that the round trip of the
scheme (47_scheme.md R254): `DISTRIB` splits the masked secret, `RECOVER` rebuilds the mask from the shares' seed. -/

namespace Sys2Proof.Machine

/-! ### What `SPLIT` writes into a slot (44_share_generation.md R194) -/

theorem splitStreams_xi_of_lt {s : State} {j : Fin 10} (h : j.val < s.n.toNat) (count : Nat) :
    (s.splitStreams count).xi[j] = BitVec.ofNat 16 (j.val + 1) := by
  simp [h]

theorem splitStreams_len_of_lt {s : State} {j : Fin 10} (h : j.val < s.n.toNat) (count : Nat) :
    (s.splitStreams count).len[j] = BitVec.ofNat 32 count := by
  simp [h]

theorem splitStreams_sseed_of_lt {s : State} {j : Fin 10} (h : j.val < s.n.toNat) (count : Nat) :
    (s.splitStreams count).sseed[j] = s.seed := by
  simp [h]

/-- The length of a stream fits `LEN`, whatever the capacity. -/
theorem streamLength_lt (s : State) : s.streamLength < 2 ^ 32 :=
  calc s.streamLength ≤ s.w.toNat * s.h.toNat := Nat.div_le_self _ _
    _ < 2 ^ 16 * 2 ^ 16 := Nat.mul_lt_mul'' s.w.isLt s.h.isLt

/-! ### The blocks of a grid (44_share_generation.md R187, R189) -/

theorem gridCoeff_le (s : State) (q i : Nat) : s.gridCoeff q i ≤ 255 := by
  unfold State.gridCoeff
  split
  · exact Nat.le_of_lt_succ (s.mem.dgAt q).isLt
  · exact Nat.le_of_lt_succ (s.mem.dgAt (q * s.k.toNat + i)).isLt

/-- Coefficient `i` of block `q` is the grid's element `q * BLK + i`, in both modes. -/
theorem ofNat_gridCoeff {s : State} (h : s.BlockLegal) {q i : Nat} (hi : i < s.blk.toNat) :
    BitVec.ofNat 8 (s.gridCoeff q i) = s.mem.dgAt (q * s.blk.toNat + i) := by
  unfold State.gridCoeff
  split
  · rename_i hone
    obtain rfl : i = 0 := by omega
    rw [hone, Nat.mul_one, Nat.add_zero, BitVec.ofNat_toNat, BitVec.setWidth_eq]
  · rename_i hone
    rw [h.1.resolve_left hone, BitVec.ofNat_toNat, BitVec.setWidth_eq]

/-- The blocks of a grid, one after the other, are the grid. -/
theorem flatten_gridCoeff {s : State} (h : s.BlockLegal) (hpos : 0 < s.blk.toNat) :
    ((List.range s.streamLength).map fun q =>
      (List.range s.blk.toNat).map fun i => BitVec.ofNat 8 (s.gridCoeff q i)).flatten =
      (List.range s.gridCells).map s.mem.dgAt := by
  have hcells : s.streamLength * s.blk.toNat = s.gridCells := Nat.div_mul_cancel (Nat.dvd_of_mod_eq_zero h.2)
  refine List.ext_getElem? fun p => ?_
  rcases Nat.lt_or_ge p s.gridCells with hp | hp
  · have hq : p / s.blk.toNat < s.streamLength := by rwa [Nat.div_lt_iff_lt_mul hpos, hcells]
    have hi : p % s.blk.toNat < s.blk.toNat := Nat.mod_lt _ hpos
    rw [List.getElem?_map, List.getElem?_range hp, Option.map_some, ← Nat.div_add_mod' p s.blk.toNat,
      getElem?_flatten_blocks _ _ _ _ _ hq hi, ofNat_gridCoeff h hi]
  · rw [List.getElem?_eq_none (by rwa [length_flatten_blocks, hcells]), List.getElem?_eq_none (by simpa using hp)]

/-! ### A state that holds shares of another -/

/-- `u` has the parameters of `s` and, in as many of the slots `SPLIT` writes as `K` says, the indexes and streams
`SPLIT` writes in `s`: what 45_reconstruction.md R218 asks of the state `RECON` starts in.
`holdsShares_splitStreams` ties it to `SPLIT`. -/
structure HoldsShares (s u : State) : Prop where
  k : u.k = s.k
  w : u.w = s.w
  h : u.h = s.h
  blk : u.blk = s.blk
  lmax : u.lmax = s.lmax
  count : u.selectedCount = u.k.toNat
  xi : ∀ j : Fin 10, u.Selects j → u.xi[j].toNat = j.val + 1
  len : ∀ j : Fin 10, u.Selects j → u.len[j].toNat = s.streamLength
  sh : ∀ j : Fin 10, u.Selects j → ∀ q < s.streamLength,
    u.mem.shAt j q = horner (s.shareCoeffs q) (Fin.ofNat 257 (j.val + 1))

/-- A state that kept the parameters and the selected slots of a state after `SPLIT` holds its shares. -/
theorem holdsShares_splitStreams {s u : State} (hk : u.k = s.k) (hw : u.w = s.w) (hh : u.h = s.h)
    (hblk : u.blk = s.blk) (hlmax : u.lmax = s.lmax) (hcount : u.selectedCount = u.k.toNat)
    (hslot : ∀ j : Fin 10, u.Selects j → j.val < s.n.toNat)
    (hxi : ∀ j : Fin 10, u.Selects j → u.xi[j] = (s.splitStreams s.streamLength).xi[j])
    (hlen : ∀ j : Fin 10, u.Selects j → u.len[j] = (s.splitStreams s.streamLength).len[j])
    (hsh : ∀ j : Fin 10, u.Selects j → ∀ q < s.streamLength,
      u.mem.shAt j q = (s.splitStreams s.streamLength).mem.shAt j q) :
    HoldsShares s u := by
  refine ⟨hk, hw, hh, hblk, hlmax, hcount, fun j hj => ?_, fun j hj => ?_, fun j hj q hq => ?_⟩
  · rw [hxi j hj, splitStreams_xi_of_lt (hslot j hj), BitVec.toNat_ofNat, Nat.mod_eq_of_lt (by omega)]
  · rw [hlen j hj, splitStreams_len_of_lt (hslot j hj), BitVec.toNat_ofNat, Nat.mod_eq_of_lt (streamLength_lt s)]
  · rw [hsh j hj q hq, shAt_splitStreams, if_pos ⟨hslot j hj, hq⟩]

theorem HoldsShares.streamLength_eq {s u : State} (hu : HoldsShares s u) : u.streamLength = s.streamLength := by
  rw [State.streamLength, gridCells_congr hu.w hu.h, hu.blk]

/-- The parameters and the shares pass `recon_checks()` (45_reconstruction.md R216). -/
theorem HoldsShares.reconLegal {s u : State} (hu : HoldsShares s u) (hs : s.SplitLegal) : u.ReconLegal := by
  obtain ⟨hthreshold, -, -, hgrid, hblk⟩ := hs
  have hthreshold' : u.ThresholdLegal := by rwa [State.ThresholdLegal, hu.k]
  have hblk' : u.BlockLegal := by rwa [State.BlockLegal, gridCells_congr hu.w hu.h, hu.blk, hu.k]
  refine ⟨⟨hthreshold', (gridLegal_congr hu.w hu.h hu.lmax).2 hgrid, hblk'⟩, hu.count, fun j hj => ?_,
    fun i j hi hj hij => ?_, fun j hj => ?_⟩
  · rw [hu.xi j hj]
    omega
  · have hnat := congrArg BitVec.toNat hij
    rw [hu.xi i hi, hu.xi j hj] at hnat
    omega
  · rw [hu.len j hj, hu.streamLength_eq]

/-- The streams are the values of the polynomials with the grid's coefficients. -/
theorem HoldsShares.sharesOf {s u : State} (hu : HoldsShares s u) : u.SharesOf s.gridCoeff := by
  intro j hj q hq
  obtain ⟨hlen, hcoeff⟩ := shareCoeffs_spec s q
  have hx : (Fin.ofNat 257 (j.val + 1) : GF).val = j.val + 1 := Nat.mod_eq_of_lt (by omega)
  rw [hu.streamLength_eq] at hq
  rw [hu.sh j hj q hq, horner_val, hlen, polyValue_congr hcoeff, hx, hu.xi j hj, hu.k]

/-- Reconstruction answers the grid that was split (45_reconstruction.md R218). -/
theorem HoldsShares.reconGrid_eq {s u : State} (hu : HoldsShares s u) (hs : s.SplitLegal) (L : Nat) :
    u.reconGrid ⟨u.selected, u.selected.map (fun j => Fin.ofNat 257 u.xi[j].toNat), L, u.streamLength⟩ =
      .ok ((List.range s.gridCells).map s.mem.dgAt) := by
  have hlegal := hu.reconLegal hs
  obtain ⟨⟨hk, -⟩, -, -, -, hblk⟩ := hs
  have hpos : 0 < s.blk.toNat := by omega
  rw [reconGrid_ok hlegal hu.sharesOf (fun q _ i _ => gridCoeff_le s q i), hu.streamLength_eq, hu.blk,
    flatten_gridCoeff hblk hpos]

/-- A state that holds shares selects a slot, since `K` is not 0. -/
theorem HoldsShares.exists_selects {s u : State} (hu : HoldsShares s u) (hs : s.SplitLegal) : ∃ j, u.Selects j := by
  have hlen : 0 < u.selected.length := by
    have hcount : u.selected.length = s.k.toNat := by rw [← hu.k]; exact hu.count
    have hk : 2 ≤ s.k.toNat := hs.1.1
    omega
  exact ⟨u.selected[0], mem_selected.1 (List.getElem_mem hlen)⟩

/-! ### `DISTRIB` and `RECOVER` (47_scheme.md R252, R253) -/

/-- The state whose diffused grid `DISTRIB` splits: the table built and the secret masked with it. -/
def State.diffused (s : State) : State := (s.buildTable s.gridCells).xorGrid .dg .sg s.gridCells

/-- Diffusing changes no parameter. -/
theorem splitLegal_diffused {s : State} : s.diffused.SplitLegal ↔ s.SplitLegal := Iff.rfl

theorem exec_distrib_of_legal {s : State} (h : s.SplitLegal) :
    exec .distrib s = .next ((s.diffused.splitStreams s.streamLength).respond 0 0) := by
  simp only [exec, execDistrib, checkSplit_of_legal h, completeQuiet_ok, State.diffused]

/-- An element of the diffused grid is the secret's, masked with the seed's byte. -/
theorem dgAt_diffused (s : State) {p : Nat} (hp : p < s.gridCells) :
    s.diffused.mem.dgAt p = s.mem.sgAt p ^^^ ksByte (ksAfter p (ksSeed s.seed)) :=
  calc s.diffused.mem.dgAt p = (s.buildTable s.gridCells).mem.sgAt p ^^^ (s.buildTable s.gridCells).mem.pmAt p :=
        gridAt_xorGrid_of_lt _ .dg .sg hp
    _ = s.mem.sgAt p ^^^ ksByte (ksAfter p (ksSeed s.seed)) := by
        rw [pmAt_buildTable_of_lt s hp]
        rfl

/-- The state `RECOVER` ends with, short of the response: the grid `vs` recovered, the seed loaded, the table built
and the grid unmasked. -/
def State.recovered (s : State) (vs : List Byte) (seed : BitVec 16) (L : Nat) : State :=
  ({ s.writeGrid .dg vs with seed := seed }.buildTable L).xorGrid .sg .dg L

/-- From the shares of a grid with one seed, `RECOVER` recovers that grid and unmasks it with that seed's table. -/
theorem exec_recover_of_holdsShares {s u : State} (hu : HoldsShares s u) (hs : s.SplitLegal) {seed : BitVec 16}
    (hseed : ∀ j : Fin 10, u.Selects j → u.sseed[j] = seed) :
    exec .recover u =
      .next ((u.recovered ((List.range s.gridCells).map s.mem.dgAt) seed s.gridCells).respond 0 0) := by
  obtain ⟨j, hj⟩ := hu.exists_selects hs
  have hagree : u.SeedsAgree := fun i j hi hj => (hseed i hi).trans (hseed j hj).symm
  simp only [exec, execRecover, reconChecks_of_legal (hu.reconLegal hs), commonSeed_ok hagree hj, hseed j hj,
    hu.reconGrid_eq hs, gridCells_congr hu.w hu.h, completeQuiet_ok, State.recovered]

/-- An element of the recovered secret is the recovered grid's, masked with the seed's byte. -/
theorem sgAt_recovered (s : State) {vs : List Byte} (seed : BitVec 16) {L p : Nat} (hp : p < L) {v : Byte}
    (hv : vs[p]? = some v) :
    (s.recovered vs seed L).mem.sgAt p = v ^^^ ksByte (ksAfter p (ksSeed seed)) := by
  have hdg : (s.writeGrid .dg vs).mem.gridAt .dg p = v := by rw [gridAt_writeGrid, hv, Option.getD_some]
  change (s.recovered vs seed L).mem.gridAt .sg p = _
  rw [State.recovered, gridAt_xorGrid_of_lt _ _ _ hp, gridAt_buildTable, pmAt_buildTable_of_lt _ hp]
  exact congrArg (· ^^^ ksByte (ksAfter p (ksSeed seed))) hdg

/-- Settles O60: the shares give back the diffused grid, and the table built from their seed is the one it was masked
with. -/
theorem distribRecoverRoundTrip : Obligations.DistribRecoverRoundTrip := by
  intro s t u hs ht hk hw hh hblk hlmax hcount hslot hkept
  obtain rfl := Host.Outcome.next.inj ((exec_distrib_of_legal hs).symm.trans ht)
  have hu : HoldsShares s.diffused u :=
    holdsShares_splitStreams hk hw hh hblk hlmax hcount hslot (fun j hj => (hkept j hj).1)
      (fun j hj => (hkept j hj).2.1) (fun j hj => (hkept j hj).2.2.2)
  have hseed : ∀ j : Fin 10, u.Selects j → u.sseed[j] = s.seed := by
    intro j hj
    obtain ⟨-, -, hsseed, -⟩ := hkept j hj
    exact hsseed.trans (splitStreams_sseed_of_lt (s := s.diffused) (hslot j hj) s.streamLength)
  refine ⟨_, exec_recover_of_holdsShares hu (splitLegal_diffused.2 hs) hseed, rfl, rfl, fun p hp => ?_⟩
  have hdg : ((List.range s.gridCells).map s.diffused.mem.dgAt)[p]? = some (s.diffused.mem.dgAt p) := by
    rw [List.getElem?_map, List.getElem?_range hp, Option.map_some]
  calc (u.recovered ((List.range s.gridCells).map s.diffused.mem.dgAt) s.seed s.gridCells).mem.sgAt p
      = s.diffused.mem.dgAt p ^^^ ksByte (ksAfter p (ksSeed s.seed)) := sgAt_recovered u s.seed hp hdg
    _ = s.mem.sgAt p := by rw [dgAt_diffused s hp, BitVec.xor_assoc, BitVec.xor_self, BitVec.xor_zero]

end Sys2Proof.Machine
end

section
/-! Share generation (44_share_generation.md): what `PEVAL` and `SPLIT` end with, the checks of `SPLIT` and `DISTRIB`,
and `RECON` on the shares of one `SPLIT` (45_reconstruction.md R218). -/

namespace Sys2Proof.Machine

/-! ### Polynomial evaluation (44_share_generation.md R185, R186, R193) -/

/-- Horner's form over the first `k` elements of a vector register is the sum of R185. -/
theorem horner_vecTake_val {n : Nat} (v : Vector GF n) (k : Nat) (x : GF) :
    (horner (vecTake v k) x).val = polyValue k (fun i => (vecAt v i).val) x.val := by
  rw [horner_val, length_vecTake]
  exact polyValue_congr (fun i hi => by rw [getD_vecTake v hi]) x.val

theorem exec_peval_of_legal {s : State} (h : s.ThresholdLegal) (a b : Fin 16) :
    exec (.peval a b) s = .next ((s.writeF a (horner (vecTake s.cv s.k.toNat) s.f[b])).respond 0 0) := by
  simp only [exec, execPeval, threshold_of_legal h, completeQuiet_ok, State.readF]

/-- Settles O38: Horner's form is the sum, written as every field command writes its result. -/
theorem pevalEvaluatesPolynomial : Obligations.PevalEvaluatesPolynomial :=
  fun s a b hk => next_writeF_only
    (fun v => v.val = polyValue s.k.toNat (fun i => (vecAt s.cv i).val) s.f[b].val)
    (horner_vecTake_val s.cv s.k.toNat s.f[b]) (exec_peval_of_legal hk a b)

/-! ### The checks (44_share_generation.md R195) -/

theorem exec_split_of_legal {s : State} (h : s.SplitLegal) :
    exec .split s = .next ((s.splitStreams s.streamLength).respond 0 0) := by
  simp only [exec, execSplit, checkSplit_of_legal h, completeQuiet_ok]

theorem exec_split_of_not_legal {s : State} (h : ¬ s.SplitLegal) :
    exec .split s = .next (takeFault .invalidParameters (encode .split) s) := by
  simp only [exec, execSplit, checkSplit_of_not_legal h, completeQuiet_error]

theorem exec_distrib_of_not_legal {s : State} (h : ¬ s.SplitLegal) :
    exec .distrib s = .next (takeFault .invalidParameters (encode .distrib) s) := by
  simp only [exec, execDistrib, checkSplit_of_not_legal h, completeQuiet_error]

/-- Settles O41: both commands make the same checks, and none of their writes touches the responses. -/
theorem splitChecksAreExact : Obligations.SplitChecksAreExact := by
  rintro s i (rfl | rfl)
  · exact ⟨exec_split_of_not_legal, fun h => ⟨_, exec_split_of_legal h, rfl⟩⟩
  · exact ⟨exec_distrib_of_not_legal, fun h => ⟨_, exec_distrib_of_legal h, rfl⟩⟩

/-! ### The streams (44_share_generation.md R187 to R191, R194) -/

/-- A share sample is the value of the polynomial of its position or block. -/
theorem horner_shareCoeffs_val (s : State) (q : Nat) {x : Nat} (hx : x ≤ 10) :
    (horner (s.shareCoeffs q) (Fin.ofNat 257 x)).val = polyValue s.k.toNat (s.gridCoeff q) x := by
  obtain ⟨hlen, hcoeff⟩ := shareCoeffs_spec s q
  have hval : (Fin.ofNat 257 x : GF).val = x := Nat.mod_eq_of_lt (by omega)
  rw [horner_val, hlen, hval, polyValue_congr hcoeff]

section
variable {s : State} {j : Fin 10} {count q : Nat}

theorem shAt_splitStreams_val_of_lt (hj : j.val < s.n.toNat) (hq : q < count) :
    ((s.splitStreams count).mem.shAt j q).val = polyValue s.k.toNat (s.gridCoeff q) (j.val + 1) := by
  rw [shAt_splitStreams, if_pos ⟨hj, hq⟩, horner_shareCoeffs_val s q (by omega)]

theorem shAt_splitStreams_of_count_le (hq : count ≤ q) :
    (s.splitStreams count).mem.shAt j q = s.mem.shAt j q := by
  rw [shAt_splitStreams, if_neg fun h => Nat.not_lt.2 hq h.2]

theorem shAt_splitStreams_of_n_le (hj : s.n.toNat ≤ j.val) :
    (s.splitStreams count).mem.shAt j q = s.mem.shAt j q := by
  rw [shAt_splitStreams, if_neg fun h => Nat.not_lt.2 hj h.1]

theorem splitStreams_xi_toNat_of_lt (hj : j.val < s.n.toNat) (count : Nat) :
    (s.splitStreams count).xi[j].toNat = j.val + 1 := by
  rw [splitStreams_xi_of_lt hj, BitVec.toNat_ofNat, Nat.mod_eq_of_lt (by omega)]

theorem splitStreams_len_toNat_of_lt (hj : j.val < s.n.toNat) :
    (s.splitStreams s.streamLength).len[j].toNat = s.streamLength := by
  rw [splitStreams_len_of_lt hj, BitVec.toNat_ofNat, Nat.mod_eq_of_lt (streamLength_lt s)]

/-- The registers of a slot above the `N` written ones stay (44_share_generation.md R194). -/
theorem splitStreams_registers_of_n_le (hj : s.n.toNat ≤ j.val) (count : Nat) :
    (s.splitStreams count).xi[j] = s.xi[j] ∧ (s.splitStreams count).len[j] = s.len[j] ∧
      (s.splitStreams count).sseed[j] = s.sseed[j] := by
  simp [Nat.not_lt.2 hj]

end

/-- Settles O40: a written slot holds the polynomial's values below the stream length and what it held above it; a
slot above `N` and its registers are untouched. -/
theorem splitGeneratesShares : Obligations.SplitGeneratesShares := by
  intro s hs
  refine ⟨_, exec_split_of_legal hs, fun j hj => ⟨fun q hq => ?_, fun q hq => ?_, ?_, ?_, ?_⟩,
    fun j hj => ⟨fun q => ?_, ?_⟩, ?_⟩
  · rw [respond_mem, shAt_splitStreams_val_of_lt hj hq]
  · rw [respond_mem, shAt_splitStreams_of_count_le hq]
  · rw [respond_xi, splitStreams_xi_toNat_of_lt hj]
  · rw [respond_len, splitStreams_len_toNat_of_lt hj]
  · rw [respond_sseed, splitStreams_sseed_of_lt hj]
  · rw [respond_mem, shAt_splitStreams_of_n_le hj]
  · rw [respond_xi, respond_len, respond_sseed]
    exact splitStreams_registers_of_n_le hj s.streamLength
  · rfl

/-! ### `SPLIT` and then `RECON` (45_reconstruction.md R218) -/

/-- From the shares of a grid, `RECON` writes that grid to `DG`. -/
theorem exec_recon_of_holdsShares {s u : State} (hu : HoldsShares s u) (hs : s.SplitLegal) :
    exec .recon u = .next ((u.writeGrid .dg ((List.range s.gridCells).map s.mem.dgAt)).respond 0 0) := by
  simp only [exec, execRecon, reconChecks_of_legal (hu.reconLegal hs), hu.reconGrid_eq hs, completeQuiet_ok]

/-- Settles O53: the kept slots hold the shares of the diffused grid, so that grid is what `RECON` writes. -/
theorem splitReconRoundTrip : Obligations.SplitReconRoundTrip := by
  intro s t u hs ht hk hw hh hblk hlmax hcount hslot hkept
  obtain rfl := Host.Outcome.next.inj ((exec_split_of_legal hs).symm.trans ht)
  simp only [respond_k, splitStreams_k, respond_w, splitStreams_w, respond_h, splitStreams_h, respond_blk,
    splitStreams_blk, respond_lmax, splitStreams_lmax] at hk hw hh hblk hlmax
  have hu : HoldsShares s u :=
    holdsShares_splitStreams hk hw hh hblk hlmax hcount hslot (fun j hj => (hkept j hj).1)
      (fun j hj => (hkept j hj).2.1) (fun j hj => (hkept j hj).2.2)
  refine ⟨_, exec_recon_of_holdsShares hu hs, rfl, fun p hp => ?_⟩
  rw [respond_mem, dgAt_writeGrid, List.getElem?_map, List.getElem?_range hp, Option.map_some, Option.getD_some]

end Sys2Proof.Machine
end

section
/-! Interpolation and the solver (45_reconstruction.md R200 to R214): what `LAGR`, `VAND` and `SOLVE` end with, and the
laws of elimination and interpolation over `ZMod 257` said of the registers, in numbers. -/

namespace Sys2Proof.Machine

/-! ### Sums in numbers -/

/-- A field element is the value of a polynomial exactly when its class is that of the sum. -/
theorem val_eq_polyValue_iff {y : GF} {k : Nat} {c : Nat → Nat} {x : Nat} :
    y.val = polyValue k c x ↔ gfClass y = ∑ i ∈ Finset.range k, (c i : ZMod 257) * (x : ZMod 257) ^ i := by
  rw [← natCast_polyValue, gfClass, ZMod.natCast_eq_natCast_iff', Nat.mod_eq_of_lt y.isLt, polyValue, Nat.mod_mod]

/-- A row of `MAT` sends a vector to a field element exactly when the class of the sum is that of the element. -/
theorem rowValue_eq_val_iff {m : Vector GF 110} {k i : Nat} {v : Nat → Nat} {y : GF} :
    rowValue m k i v = y.val ↔
      ∑ j ∈ Finset.range k, gfClass (vecAt m (11 * i + j)) * (v j : ZMod 257) = gfClass y := by
  rw [← natCast_rowValue, gfClass, ZMod.natCast_eq_natCast_iff', Nat.mod_eq_of_lt y.isLt, rowValue, Nat.mod_mod]

theorem fpow_val (x : GF) (j : Nat) : (fpow x j).val = x.val ^ j % 257 :=
  val_eq_mod _ _ (by rw [gfClass_fpow, gfClass, Nat.cast_pow])

/-! ### Vectors that the block of `MAT` sends to zero -/

/-- A vector of numbers as a vector of classes for the augmented matrix, with 0 for column `k`. -/
def augmentZero (k : Nat) (v : Nat → Nat) (j : Nat) : ZMod 257 := if j = k then 0 else (v j : ZMod 257)

theorem augmentZero_last (k : Nat) (v : Nat → Nat) : augmentZero k v k = 0 := if_pos rfl

theorem augmentZero_of_lt {k j : Nat} (h : j < k) (v : Nat → Nat) : augmentZero k v j = (v j : ZMod 257) :=
  if_neg (Nat.ne_of_lt h)

/-- With 0 for the last column, the rows of the augmented matrix vanish exactly where the block sends `v` to zero. -/
theorem nullVec_loadSystem_iff {s : State} {k : Nat} {x : Nat → ZMod 257} {v : Nat → Nat}
    (hx : ∀ j < k, x j = (v j : ZMod 257)) (hlast : x k = 0) :
    NullVec k (s.loadSystem k) x ↔ ∀ i < k, rowValue s.mat k i v = 0 := by
  refine forall₂_congr fun i hi => ?_
  have hrow : ∑ j ∈ Finset.range k, gfClass (vecAt s.mat (11 * i + j)) * x j =
      ∑ j ∈ Finset.range k, gfClass (vecAt s.mat (11 * i + j)) * (v j : ZMod 257) :=
    Finset.sum_congr rfl fun j hj => by rw [hx j (Finset.mem_range.1 hj)]
  rw [sum_loadSystem s k x hi, hlast, mul_zero, add_zero, hrow, ← gfClass_zero]
  exact rowValue_eq_val_iff.symm

/-- A block that sends only the zero vector to zero is regular (45_reconstruction.md R206). -/
theorem loadSystem_regular {s : State} {k : Nat}
    (h : ∀ v : Nat → Nat, (∀ i < k, rowValue s.mat k i v = 0) → ∀ j < k, v j % 257 = 0) {x : Nat → ZMod 257}
    (hx : NullVec k (s.loadSystem k) x) (hlast : x k = 0) : ∀ j < k, x j = 0 := by
  have hval : ∀ j, x j = ((x j).val : ZMod 257) := fun j => (ZMod.natCast_zmod_val (x j)).symm
  have hrows := (nullVec_loadSystem_iff (v := fun j => (x j).val) (fun j _ => hval j) hlast).1 hx
  intro j hj
  rw [hval j, ZMod.natCast_eq_zero_iff]
  exact Nat.dvd_of_mod_eq_zero (h _ hrows j hj)

/-- A block that sends to zero a vector that is not zero makes the elimination fail (45_reconstruction.md R206). -/
theorem gaussJordan_loadSystem_of_singular {s : State} {k m : Nat} {v : Nat → Nat}
    (hv : ∀ i < k, rowValue s.mat k i v = 0) (hm : m < k) (hne : v m % 257 ≠ 0) :
    gaussJordan k (s.loadSystem k) = .error .singularSystem := by
  have hlast := augmentZero_last k v
  have hnull := (nullVec_loadSystem_iff (fun j hj => augmentZero_of_lt hj v) hlast).2 hv
  refine gaussJordan_of_singular (shaped_loadSystem s k) hnull hlast hm fun h0 => hne ?_
  rw [augmentZero_of_lt hm, ZMod.natCast_eq_zero_iff] at h0
  exact Nat.mod_eq_zero_of_dvd h0

/-! ### The commands -/

/-- The Vandermonde system of the points and values in `XV` and `YV` (45_reconstruction.md R205). -/
def State.pointSystem (s : State) : List (List GF) :=
  vandermonde (vecTake s.xv s.k.toNat) (vecTake s.yv s.k.toNat)

section
variable {s : State}

theorem exec_lagr_of_ok (h : s.ThresholdLegal) (a : Fin 16) {x : GF}
    (hx : lagrange0 (vecTake s.xv s.k.toNat) (vecTake s.yv s.k.toNat) = .ok x) :
    exec (.lagr a) s = .next ((s.writeF a x).respond 0 0) := by
  simp only [exec, execLagr, threshold_of_legal h, hx, completeQuiet_ok]

theorem exec_lagr_of_error (h : s.ThresholdLegal) (a : Fin 16) {e : ErrKind}
    (he : lagrange0 (vecTake s.xv s.k.toNat) (vecTake s.yv s.k.toNat) = .error e) :
    exec (.lagr a) s = .next (takeFault e (encode (.lagr a)) s) := by
  simp only [exec, execLagr, threshold_of_legal h, he, completeQuiet_error]

theorem exec_vand_of_legal (h : s.ThresholdLegal) :
    exec .vand s = .next ((s.storeSystem s.k.toNat s.pointSystem).respond 0 0) := by
  simp only [exec, execVand, threshold_of_legal h, completeQuiet_ok, State.pointSystem]

theorem exec_solve_of_ok {k : Nat} (hk : s.threshold = .ok k) {B : List (List GF)}
    (hB : gaussJordan k (s.loadSystem k) = .ok B) :
    exec .solve s = .next (((s.storeSystem k B).storeCoeffs k (solution k B)).respond 0 0) := by
  simp only [exec, execSolve, hk, hB, completeQuiet_ok]

theorem exec_solve_of_error {k : Nat} (hk : s.threshold = .ok k) {e : ErrKind}
    (he : gaussJordan k (s.loadSystem k) = .error e) :
    exec .solve s = .next (takeFault e (encode .solve) s) := by
  simp only [exec, execSolve, hk, he, completeQuiet_error]

end

/-- Settles O43: an equal pair makes a denominator 0. -/
theorem lagrFaultsOnEqualPoints : Obligations.LagrFaultsOnEqualPoints := by
  intro s a i j hk hij hj heq
  refine exec_lagr_of_error hk a (lagrange0_eq_points hij (by rwa [length_vecTake]) ?_)
  rwa [getD_vecTake s.xv (hij.trans hj), getD_vecTake s.xv hj]

/-- Settles O46: the elimination fails on a singular block. -/
theorem solveFaultsOnSingular : Obligations.SolveFaultsOnSingular :=
  fun _ _ _ hk hv hm hne => exec_solve_of_error (threshold_of_legal hk) (gaussJordan_loadSystem_of_singular hv hm hne)

/-! ### `MAT` after a system is stored (10_state.md R44) -/

section
variable {k i j : Nat}

theorem vecAt_systemMatrix_block (m : Vector GF 110) (A : List (List GF)) (hk : k ≤ 10) (hi : i < k) (hj : j < k) :
    vecAt (systemMatrix m k A) (11 * i + j) = entry A i j := by
  rw [vecAt_systemMatrix m k A (by omega) (by omega), if_pos ⟨hi, hj⟩]

theorem vecAt_systemMatrix_last (m : Vector GF 110) (A : List (List GF)) (hk : k ≤ 10) (hi : i < k) :
    vecAt (systemMatrix m k A) (11 * i + 10) = entry A i k := by
  rw [vecAt_systemMatrix m k A (by omega) le_rfl, if_neg (by omega), if_pos ⟨hi, rfl⟩]

theorem vecAt_systemMatrix_outside (m : Vector GF 110) (A : List (List GF)) (hi : i < 10) (hj : j ≤ 10)
    (h : k ≤ i ∨ (k ≤ j ∧ j ≠ 10)) : vecAt (systemMatrix m k A) (11 * i + j) = vecAt m (11 * i + j) := by
  rw [vecAt_systemMatrix m k A hi hj, if_neg (by omega), if_neg (by omega)]

/-- Storing a system and responding changes `MAT` and the responses only. -/
theorem respond_storeSystem_eq (s : State) (k : Nat) (A : List (List GF)) :
    (s.storeSystem k A).respond 0 0 =
      { s with mat := ((s.storeSystem k A).respond 0 0).mat, resps := ⟨0, 0⟩ :: s.resps } := by
  ext1 <;> simp

/-- Storing a system with its solution and responding changes `MAT`, `CV` and the responses only. -/
theorem respond_storeCoeffs_storeSystem_eq (s : State) (k : Nat) (A : List (List GF)) (c : List GF) :
    ((s.storeSystem k A).storeCoeffs k c).respond 0 0 =
      { s with
        mat := (((s.storeSystem k A).storeCoeffs k c).respond 0 0).mat
        cv := (((s.storeSystem k A).storeCoeffs k c).respond 0 0).cv
        resps := ⟨0, 0⟩ :: s.resps } := by
  ext1 <;> simp

end

/-! ### The system of the points -/

theorem shaped_pointSystem (s : State) : Shaped s.k.toNat s.pointSystem := by
  have hshape := shaped_vandermonde (xs := vecTake s.xv s.k.toNat) (ys := vecTake s.yv s.k.toNat) (by simp)
  rwa [length_vecTake] at hshape

theorem entry_pointSystem (s : State) {i j : Nat} (hi : i < s.k.toNat) (hj : j < s.k.toNat) :
    entry s.pointSystem i j = fpow (vecAt s.xv i) j := by
  rw [State.pointSystem, entry_vandermonde (by simp) (by simpa using hi) (by simpa using hj), getD_vecTake s.xv hi]

theorem entry_pointSystem_last (s : State) {i : Nat} (hi : i < s.k.toNat) :
    entry s.pointSystem i s.k.toNat = vecAt s.yv i := by
  have hlast := entry_vandermonde_last (xs := vecTake s.xv s.k.toNat) (ys := vecTake s.yv s.k.toNat) (by simp)
    (i := i) (by simpa using hi)
  rwa [length_vecTake, getD_vecTake s.yv hi] at hlast

/-- Settles O44: `VAND` stores the system of the points, element by element. -/
theorem vandBuildsSystem : Obligations.VandBuildsSystem := by
  intro s hk
  refine ⟨_, exec_vand_of_legal hk, fun i hi j hj => ?_, fun i hi => ?_, fun i j hi hj hout => ?_,
    respond_storeSystem_eq s _ _⟩
  · rw [respond_mat, storeSystem_mat, vecAt_systemMatrix_block _ _ hk.2 hi hj, entry_pointSystem s hi hj, fpow_val]
  · rw [respond_mat, storeSystem_mat, vecAt_systemMatrix_last _ _ hk.2 hi, entry_pointSystem_last s hi]
  · rw [respond_mat, storeSystem_mat, vecAt_systemMatrix_outside _ _ hi hj hout]

/-! ### The solution -/

theorem getD_solution {k i : Nat} (h : i < k) (B : List (List GF)) : (solution k B).getD i 0 = entry B i k := by
  simp [solution, h]

/-- `CV` after the solution of a reduced matrix is stored. -/
theorem vecAt_coeffVector_solution (v : Vector GF 10) {k i : Nat} (hk : k ≤ 10) (hi : i < k) (B : List (List GF)) :
    vecAt (coeffVector v k (solution k B)) i = entry B i k := by
  rw [vecAt_coeffVector v hk, if_pos hi, getD_solution hi]

/-- Settles O45: the reduced matrix is stored with its last column as the solution. -/
theorem solveFindsSolution : Obligations.SolveFindsSolution := by
  intro s hk hregular
  obtain ⟨B, hB, -, hunit, hsol⟩ := gaussJordan_of_regular (shaped_loadSystem s s.k.toNat)
    fun x hx hlast => loadSystem_regular hregular hx hlast
  refine ⟨_, exec_solve_of_ok (threshold_of_legal hk) hB, fun i hi => rowValue_eq_val_iff.2 ?_,
    fun i hi j hj => ?_, fun i hi => ?_, fun i j hi hj hout => ?_, fun i hi => ?_,
    respond_storeCoeffs_storeSystem_eq s _ _ _⟩
  · rw [← entry_loadSystem_last s hi, ← hsol i hi]
    refine Finset.sum_congr rfl fun j hj => ?_
    have hj := Finset.mem_range.1 hj
    rw [entry_loadSystem s hi hj, respond_cv, storeCoeffs_cv, storeSystem_cv,
      vecAt_coeffVector_solution _ hk.2 hj, gfClass, gfClass]
  · rw [respond_mat, storeCoeffs_mat, storeSystem_mat, vecAt_systemMatrix_block _ _ hk.2 hi hj, hunit i hi j hj]
    split <;> rfl
  · rw [respond_mat, storeCoeffs_mat, storeSystem_mat, vecAt_systemMatrix_last _ _ hk.2 hi, respond_cv,
      storeCoeffs_cv, storeSystem_cv, vecAt_coeffVector_solution _ hk.2 hi]
  · rw [respond_mat, storeCoeffs_mat, storeSystem_mat, vecAt_systemMatrix_outside _ _ hi hj hout]
  · rw [respond_cv, storeCoeffs_cv, storeSystem_cv, vecAt_coeffVector _ hk.2, if_neg (Nat.not_lt.2 hi)]

/-! ### `VAND` and then `SOLVE` -/

section
variable {s : State}

/-- `VAND` keeps `K`. -/
theorem threshold_respond_storeSystem (h : s.ThresholdLegal) (A : List (List GF)) :
    ((s.storeSystem s.k.toNat A).respond 0 0).threshold = .ok s.k.toNat := by
  rw [← threshold_of_legal h, State.threshold, State.threshold, respond_k, storeSystem_k]

/-- `SOLVE` after `VAND` loads the system of the points. -/
theorem loadSystem_respond_pointSystem (h : s.ThresholdLegal) :
    ((s.storeSystem s.k.toNat s.pointSystem).respond 0 0).loadSystem s.k.toNat = s.pointSystem := by
  rw [respond_loadSystem, loadSystem_storeSystem s h.2 (shaped_pointSystem s)]

end

/-- Settles O48: the stored system has two equal rows, and `VAND` does not look at them. -/
theorem equalPointsMakeSystemSingular : Obligations.EqualPointsMakeSystemSingular := by
  intro s i j hk hij hj heq
  have hsing : gaussJordan s.k.toNat s.pointSystem = .error .singularSystem := by
    have hpoints : (vecTake s.xv s.k.toNat).getD i 0 = (vecTake s.xv s.k.toNat).getD j 0 := by
      rwa [getD_vecTake s.xv (hij.trans hj), getD_vecTake s.xv hj]
    have hv := gaussJordan_vandermonde_eq (ys := vecTake s.yv s.k.toNat) (by simp) hij (by simpa using hj) hpoints
    rwa [length_vecTake] at hv
  refine ⟨_, exec_vand_of_legal hk, ?_, exec_solve_of_error (threshold_respond_storeSystem hk s.pointSystem) ?_⟩
  · rw [respond_resps, storeSystem_resps]
  · rw [loadSystem_respond_pointSystem hk, hsing]

/-! ### At distinct points (45_reconstruction.md R200, R201, R209) -/

/-- An interpolation reads its coefficients from the reduced system. -/
theorem interpolate_elim {xs ys c : List GF} (h : interpolate xs ys = .ok c) :
    ∃ B, gaussJordan xs.length (vandermonde xs ys) = .ok B ∧ c = solution xs.length B := by
  rw [interpolate] at h
  split at h
  · rename_i B hB
    cases h
    exact ⟨B, hB, rfl⟩
  · cases h

/-- At distinct points the elimination of the system of the points answers a solution whose elements are the
coefficients of a polynomial through the points, and the Lagrange form answers its constant term. -/
theorem pointSystem_of_distinct {s : State} (h : s.ThresholdLegal)
    (hd : ∀ i < s.k.toNat, ∀ j < s.k.toNat, vecAt s.xv i = vecAt s.xv j → i = j) :
    ∃ B, gaussJordan s.k.toNat s.pointSystem = .ok B ∧
      lagrange0 (vecTake s.xv s.k.toNat) (vecTake s.yv s.k.toNat) = .ok (entry B 0 s.k.toNat) ∧
      ∀ i < s.k.toNat,
        (vecAt s.yv i).val = polyValue s.k.toNat (fun m => (entry B m s.k.toNat).val) (vecAt s.xv i).val := by
  have hdist := distinctPoints_vecTake.2 hd
  have hlen : (vecTake s.xv s.k.toNat).length = (vecTake s.yv s.k.toNat).length := by simp
  obtain ⟨c, hc, -, hval⟩ := interpolate_ok hlen hdist
  have hlagr := lagrange0_ok hlen hdist hc
  obtain ⟨B, hB, rfl⟩ := interpolate_elim hc
  rw [length_vecTake] at hB hlagr hval
  refine ⟨B, hB, by rw [hlagr, getD_solution (by have := h.1; omega)], fun i hi => val_eq_polyValue_iff.2 ?_⟩
  rw [← getD_vecTake s.yv hi, ← hval i hi, getD_vecTake s.xv hi]
  refine Finset.sum_congr rfl fun j hj => ?_
  rw [getD_solution (Finset.mem_range.1 hj), gfClass, gfClass]

/-- Settles O42: the solution of the system of the points holds the coefficients. -/
theorem lagrInterpolates : Obligations.LagrInterpolates := by
  intro s a hk hd
  obtain ⟨B, -, hlagr, hval⟩ := pointSystem_of_distinct hk hd
  exact ⟨_, fun m => (entry B m s.k.toNat).val, exec_lagr_of_ok hk a hlagr, hval,
    fun m => Nat.le_of_lt_succ (entry B m s.k.toNat).isLt, congrArg Fin.val (writeF_get_same s a _),
    fun _ hr => writeF_get_of_ne s hr _, rfl⟩

/-- Settles O47: `LAGR` changes neither the points nor `K`, so `VAND` and `SOLVE` work on the system of the points. -/
theorem lagrangeAgreesWithSolver : Obligations.LagrangeAgreesWithSolver := by
  intro s a hk hd
  obtain ⟨B, hB, hlagr, hval⟩ := pointSystem_of_distinct hk hd
  set t : State := (s.writeF a (entry B 0 s.k.toNat)).respond 0 0
  have htk : t.ThresholdLegal := hk
  have hsolve : gaussJordan t.k.toNat
      (((t.storeSystem t.k.toNat t.pointSystem).respond 0 0).loadSystem t.k.toNat) = .ok B := by
    rw [loadSystem_respond_pointSystem htk]
    exact hB
  have hcv : ∀ m < s.k.toNat, vecAt (coeffVector s.cv s.k.toNat (solution s.k.toNat B)) m = entry B m s.k.toNat :=
    fun m hm => vecAt_coeffVector_solution s.cv hk.2 hm B
  refine ⟨t, _, _, exec_lagr_of_ok hk a hlagr, exec_vand_of_legal htk,
    exec_solve_of_ok (threshold_respond_storeSystem htk t.pointSystem) hsolve, ?_, ?_, fun i hi => ?_⟩
  · simp only [respond_f, storeCoeffs_f, storeSystem_f, respond_cv, storeCoeffs_cv, storeSystem_cv]
    exact (writeF_get_same s a _).trans (hcv 0 (by have := hk.1; omega)).symm
  · simp only [respond_resps, storeCoeffs_resps, storeSystem_resps]
    rfl
  · simp only [respond_cv, storeCoeffs_cv, storeSystem_cv]
    exact (hval i hi).trans (polyValue_congr (fun m hm => congrArg Fin.val (hcv m hm).symm) _)

end Sys2Proof.Machine
end

section
/-! Reconstruction (45_reconstruction.md R215 to R220, 47_scheme.md R253): what `RECON` and `RECOVER` end with, and the
faults the two commands can report. -/

namespace Sys2Proof.Machine

/-- What `recon_checks()` answers when it passes (45_reconstruction.md R216). -/
def State.reconInput (s : State) : ReconInput :=
  ⟨s.selected, s.selected.map (fun j => Fin.ofNat 257 s.xi[j].toNat), s.gridCells, s.streamLength⟩

section
variable {s : State} {e : ErrKind}

theorem reconChecks_eq_reconInput (h : s.ReconLegal) : s.reconChecks = .ok s.reconInput := reconChecks_of_legal h

/-! ### The commands -/

theorem exec_recon_of_ok (h : s.ReconLegal) {vs : List Byte} (hvs : s.reconGrid s.reconInput = .ok vs) :
    exec .recon s = .next ((s.writeGrid .dg vs).respond 0 0) := by
  simp only [exec, execRecon, reconChecks_eq_reconInput h, hvs, completeQuiet_ok]

theorem exec_recon_of_grid_error (h : s.ReconLegal) (he : s.reconGrid s.reconInput = .error e) :
    exec .recon s = .next (takeFault e (encode .recon) s) := by
  simp only [exec, execRecon, reconChecks_eq_reconInput h, he, completeQuiet_error]

theorem exec_recover_of_seed_error (h : s.ReconLegal) (he : s.commonSeed s.selected = .error e) :
    exec .recover s = .next (takeFault e (encode .recover) s) := by
  simp only [exec, execRecover, reconChecks_of_legal h, he, completeQuiet_error]

theorem exec_recover_of_grid_error (h : s.ReconLegal) {seed : BitVec 16} (hseed : s.commonSeed s.selected = .ok seed)
    (he : s.reconGrid s.reconInput = .error e) : exec .recover s = .next (takeFault e (encode .recover) s) := by
  have hseed' : s.commonSeed s.reconInput.sel = .ok seed := hseed
  simp only [exec, execRecover, reconChecks_eq_reconInput h, hseed', he, completeQuiet_error]

/-- Both commands begin with `recon_checks()`. -/
theorem exec_of_reconChecks_error {i : Instr} (hi : i = .recon ∨ i = .recover) (he : s.reconChecks = .error e) :
    exec i s = .next (takeFault e (encode i) s) := by
  rcases hi with rfl | rfl
  · simp only [exec, execRecon, he, completeQuiet_error]
  · simp only [exec, execRecover, he, completeQuiet_error]

end

/-- Settles O51: `recon_checks()` fails at its first failing check, and the seeds are compared after it. -/
theorem reconChecksInOrder : Obligations.ReconChecksInOrder := by
  intro s i hi
  obtain ⟨hgrid, hfew, hmany, hrange, hdistinct, hlengths⟩ := reconChecks_error (s := s)
  exact ⟨fun h => exec_of_reconChecks_error hi (hgrid h),
    fun h1 h2 => exec_of_reconChecks_error hi (hfew h1 h2),
    fun h1 h2 => exec_of_reconChecks_error hi (hmany h1 h2),
    fun h1 h2 h3 => exec_of_reconChecks_error hi (hrange h1 h2 h3),
    fun h1 h2 h3 h4 => exec_of_reconChecks_error hi (hdistinct h1 h2 h3 h4),
    fun h1 h2 h3 h4 h5 => exec_of_reconChecks_error hi (hlengths h1 h2 h3 h4 h5),
    fun h hseeds => exec_recover_of_seed_error h (commonSeed_error hseeds)⟩

/-! ### The recovered grid (45_reconstruction.md R215, R217) -/

/-- A state that passes `recon_checks()` selects a slot, since `K` is not 0. -/
theorem exists_selects_of_reconLegal {s : State} (h : s.ReconLegal) : ∃ j, s.Selects j := by
  obtain ⟨⟨⟨hk, -⟩, -⟩, hcount, -⟩ := h
  have hlen : 0 < s.selected.length := lt_of_lt_of_eq (by omega : 0 < s.k.toNat) hcount.symm
  exact ⟨s.selected[0], mem_selected.1 (List.getElem_mem hlen)⟩

/-- Settles O49: the recovered grid is the stored coefficients, block after block. -/
theorem reconRecoversCoefficients : Obligations.ReconRecoversCoefficients := by
  intro s C h _ hshares hbytes
  have ⟨⟨_, _, _, hdvd⟩, _⟩ := h
  have hcells : s.streamLength * s.blk.toNat = s.gridCells := Nat.div_mul_cancel (Nat.dvd_of_mod_eq_zero hdvd)
  refine ⟨_, exec_recon_of_ok h (reconGrid_ok h hshares hbytes s.gridCells), fun q hq i hi => ?_,
    fun p hp => ?_, rfl⟩
  · have hC := hbytes q hq i hi
    rw [respond_mem, dgAt_writeGrid, getElem?_flatten_blocks _ _ _ _ _ hq hi, Option.getD_some, BitVec.toNat_ofNat,
      Nat.mod_eq_of_lt (by omega)]
  · rw [respond_mem, dgAt_writeGrid, List.getElem?_eq_none (by rwa [length_flatten_blocks, hcells]), Option.getD_none]

/-- Settles O50: neither command gets past a coefficient that is no Sample. -/
theorem recovered256Faults : Obligations.Recovered256Faults := by
  intro s C q i h _ hshares hq hi hC
  have hgrid : s.reconGrid s.reconInput = .error .operand := reconGrid_error h hshares hq hi hC s.gridCells
  refine ⟨exec_recon_of_grid_error h hgrid, fun hseeds => ?_⟩
  obtain ⟨j, hj⟩ := exists_selects_of_reconLegal h
  exact exec_recover_of_grid_error h (commonSeed_ok hseeds hj) hgrid

/-! ### The faults of the two commands (45_reconstruction.md R220) -/

/-- The faults `RECON` and `RECOVER` can report: those of the checks, and that of a coefficient of 256. -/
def reconFaults : List ErrKind :=
  [.invalidParameters, .insufficientShares, .duplicateIndex, .mismatchedLength, .operand]

theorem reconChecks_error_mem {s : State} {e : ErrKind} (h : s.reconChecks = .error e) : e ∈ reconFaults := by
  obtain ⟨hgrid, hfew, hmany, hrange, hdistinct, hlengths⟩ := reconChecks_error (s := s)
  have mem_of : ∀ e' ∈ reconFaults, s.reconChecks = .error e' → e ∈ reconFaults := fun e' hmem h' => by
    rw [h] at h'; cases h'; exact hmem
  by_cases h1 : s.ReconGridLegal
  case neg => exact mem_of _ (by decide) (hgrid h1)
  rcases Nat.lt_trichotomy s.selectedCount s.k.toNat with h2 | h2 | h2
  · exact mem_of _ (by decide) (hfew h1 h2)
  · by_cases h3 : s.IndexesInRange
    case neg => exact mem_of _ (by decide) (hrange h1 h2 h3)
    by_cases h4 : s.IndexesDistinct
    case neg => exact mem_of _ (by decide) (hdistinct h1 h2 h3 h4)
    by_cases h5 : s.LengthsMatch
    case neg => exact mem_of _ (by decide) (hlengths h1 h2 h3 h4 h5)
    rw [reconChecks_of_legal ⟨h1, h2, h3, h4, h5⟩] at h
    cases h
  · exact mem_of _ (by decide) (hmany h1 h2)

theorem commonSeed_error_eq {s : State} {sel : List (Fin 10)} {e : ErrKind} (h : s.commonSeed sel = .error e) :
    e = .invalidParameters := by
  cases sel with
  | nil => cases h; rfl
  | cons j rest =>
    rw [State.commonSeed] at h
    split at h
    · cases h
    · cases h; rfl

theorem gfToSample_error_eq {x : GF} {e : ErrKind} (h : gfToSample x = .error e) : e = .operand := by
  rw [gfToSample] at h
  split at h
  · cases h; rfl
  · cases h

/-- The indexes are distinct points, so every interpolation succeeds and only a coefficient of 256 can fault. -/
theorem reconGrid_error_eq {s : State} (h : s.ReconLegal) {e : ErrKind} (he : s.reconGrid s.reconInput = .error e) :
    e = .operand := by
  rw [State.reconGrid] at he
  split at he
  · rename_i e' hcollect
    cases he
    obtain ⟨q, -, hblock⟩ := collectE_error_elim hcollect
    obtain ⟨c, hc, -⟩ := interpolate_ok (xs := s.reconInput.xs) (ys := s.reconInput.sel.map fun j => s.mem.shAt j q)
      (by simp [State.reconInput]) (distinctPoints_selected h)
    simp only [State.reconBlock, hc] at hblock
    obtain ⟨x, -, hx⟩ := collectE_error_elim hblock
    exact gfToSample_error_eq hx
  · cases he

/-- Everything a command without data can end with, when its result has one of the faults of a list or none. -/
theorem completeQuiet_faults {i : Instr} {s t : State} {r : Except ErrKind State} {faults : List ErrKind}
    (h : completeQuiet i s r = .next t) (hr : ∀ e, r = .error e → e ∈ faults) :
    (∃ u : State, t = u.respond 0 0) ∨ ∃ e ∈ faults, t = takeFault e (encode i) s := by
  rcases completeQuiet_cases h with ⟨u, -, ht⟩ | ⟨e, he, ht⟩
  · exact .inl ⟨u, ht⟩
  · exact .inr ⟨e, hr e he, ht⟩

/-- Everything the two commands can end with: status 0, or one of their faults. -/
theorem exec_recon_recover_cases {s t : State} {i : Instr} (hi : i = .recon ∨ i = .recover) (h : exec i s = .next t) :
    (∃ u : State, t = u.respond 0 0) ∨ ∃ e ∈ reconFaults, t = takeFault e (encode i) s := by
  have hgrid_mem : ∀ {r e}, s.reconChecks = .ok r → s.reconGrid r = .error e → e ∈ reconFaults := by
    intro r e hchecks he
    obtain ⟨hlegal, rfl⟩ := reconChecks_ok hchecks
    rw [reconGrid_error_eq hlegal he]
    decide
  rcases hi with rfl | rfl
  · refine completeQuiet_faults h fun e he => ?_
    split at he
    · rename_i e' hchecks
      cases he
      exact reconChecks_error_mem hchecks
    · rename_i r hchecks
      split at he
      · rename_i e' hgrid
        cases he
        exact hgrid_mem hchecks hgrid
      · cases he
  · refine completeQuiet_faults h fun e he => ?_
    split at he
    · rename_i e' hchecks
      cases he
      exact reconChecks_error_mem hchecks
    · rename_i r hchecks
      split at he
      · rename_i e' hseed
        cases he
        rw [commonSeed_error_eq hseed]
        decide
      · split at he
        · rename_i e' hgrid
          cases he
          exact hgrid_mem hchecks hgrid
        · cases he

/-- Settles O52: neither of the two codes is that of a fault of the two commands. -/
theorem reconNeverSingular : Obligations.ReconNeverSingular := by
  intro s t i r hi h hresps
  have hcodes : ∀ e ∈ reconFaults, e.code ≠ 0x05 ∧ e.code ≠ 0x07 := by decide
  rcases exec_recon_recover_cases hi h with ⟨u, rfl⟩ | ⟨e, he, rfl⟩
  · rw [respond_resps] at hresps
    rw [← (List.cons.inj hresps).1]
    decide
  · rw [takeFault_resps] at hresps
    rw [← (List.cons.inj hresps).1]
    exact hcodes e he

end Sys2Proof.Machine
end

section
/-! The codec (46_stego.md): the faults of `EMBED` and `EXTRACT`, what the two commands end with, and that `EXTRACT`
takes out what `EMBED` put in. -/

namespace Sys2Proof.Machine

/-! ### The faults (46_stego.md R230, R234 to R237) -/

/-- Both commands begin with the same checks. -/
theorem exec_of_codecChecks_error {s : State} {slot : Fin 16} {e : ErrKind} (he : s.codecChecks slot = .error e) :
    exec (.embed slot) s = .next (takeFault e (encode (.embed slot)) s) ∧
      exec (.extract slot) s = .next (takeFault e (encode (.extract slot)) s) := by
  simp only [exec, execEmbed, execExtract, he, completeQuiet_error, and_self]

theorem exec_embed_of_element_256 {s : State} {j : Fin 10} (hwidth : s.WidthLegal) (hfits : s.FitsCarrier j)
    (h256 : ∃ i < s.len[j].toNat, (s.mem.shAt j i).val = 256) :
    exec (.embed (slotField j)) s = .next (takeFault .operand (encode (.embed (slotField j))) s) := by
  simp only [exec, execEmbed, codecChecks_of_legal hwidth hfits, shareBytes_error h256, completeQuiet_error]

/-- Settles O57: the shared checks fail at the first failing one, and the elements are read after them. -/
theorem codecRefusals : Obligations.CodecRefusals := by
  intro s
  obtain ⟨hillegal, hslot⟩ := codecChecks_error (s := s)
  refine ⟨fun slot h => exec_of_codecChecks_error (hillegal slot h), fun j => ?_⟩
  obtain ⟨hwidth, hcapacity⟩ := hslot j
  exact ⟨fun h => exec_of_codecChecks_error (hwidth h), fun h h' => exec_of_codecChecks_error (hcapacity h h'),
    exec_embed_of_element_256⟩

/-! ### What `EMBED` ends with (46_stego.md R231 to R233, R236) -/

/-- Every element of the slot's stream is a byte (46_stego.md R234). -/
abbrev State.StreamIsBytes (s : State) (j : Fin 10) : Prop := ∀ i < s.len[j].toNat, (s.mem.shAt j i).val ≤ 255

/-- The stream of slot `j` as bytes. -/
def State.streamBytes (s : State) (j : Fin 10) : List Byte :=
  (List.range s.len[j].toNat).map fun i => BitVec.ofNat 8 (s.mem.shAt j i).val

/-- The state `EMBED j` ends with, short of the response. -/
def State.embedded (s : State) (j : Fin 10) : State :=
  { s with
    mem := { s.mem with cg := bufSetList s.mem.cg 0 (s.embeddedBytes s.b.toNat (s.streamBytes j)) }
    scseed := s.sseed[j]
    scidx := s.xi[j] }

section
variable {s : State} {j : Fin 10}

theorem exec_embed_of_legal (hwidth : s.WidthLegal) (hfits : s.FitsCarrier j) (hbytes : s.StreamIsBytes j) :
    exec (.embed (slotField j)) s = .next ((s.embedded j).respond 0 0) := by
  simp only [exec, execEmbed, codecChecks_of_legal hwidth hfits, shareBytes_ok hbytes, completeQuiet_ok,
    State.embedded, State.streamBytes]

/-- An `EMBED` that answers no error passed its checks, and its slot held bytes. -/
theorem embed_legal_of_status_zero {t : State} (ht : exec (.embed (slotField j)) s = .next t)
    (hresps : t.resps = ⟨0, 0⟩ :: s.resps) : s.WidthLegal ∧ s.FitsCarrier j ∧ s.StreamIsBytes j := by
  have hno_fault : ∀ e, exec (.embed (slotField j)) s ≠ .next (takeFault e (encode (.embed (slotField j))) s) := by
    intro e he
    obtain rfl := Host.Outcome.next.inj (he.symm.trans ht)
    rw [takeFault_resps] at hresps
    exact code_ne_zero e (congrArg Response.status (List.cons.inj hresps).1)
  obtain ⟨-, hslot⟩ := codecRefusals s
  obtain ⟨hbad_width, hbad_fit, h256⟩ := hslot j
  have hwidth : s.WidthLegal := by
    by_contra hc
    exact hno_fault _ (hbad_width hc).1
  have hfits : s.FitsCarrier j := by
    by_contra hc
    exact hno_fault _ (hbad_fit hwidth hc).1
  refine ⟨hwidth, hfits, fun i hi => ?_⟩
  by_contra hc
  exact hno_fault _ (h256 hwidth hfits ⟨i, hi, by omega⟩)

@[simp] theorem length_streamBytes (s : State) (j : Fin 10) : (s.streamBytes j).length = s.len[j].toNat := by
  rw [State.streamBytes, List.length_map, List.length_range]

theorem streamBytes_getD {i : Nat} (hi : i < s.len[j].toNat) :
    (s.streamBytes j).getD i 0 = BitVec.ofNat 8 (s.mem.shAt j i).val := by
  rw [List.getD_eq_getElem?_getD, State.streamBytes, List.getElem?_map, List.getElem?_range hi, Option.map_some,
    Option.getD_some]

/-- An element that is a byte, read as one and back. -/
theorem toNat_ofNat_shAt {i : Nat} (hle : (s.mem.shAt j i).val ≤ 255) :
    (BitVec.ofNat 8 (s.mem.shAt j i).val).toNat = (s.mem.shAt j i).val := by
  rw [BitVec.toNat_ofNat, Nat.mod_eq_of_lt (by omega)]

/-- Carrier byte `i · per + m` takes group `m` of share byte `i`. -/
theorem cgAt_embedded_of_lt {i m : Nat} (hi : i < s.len[j].toNat) (hm : m < perShare s.b.toNat) :
    (s.embedded j).mem.cgAt (i * perShare s.b.toNat + m) =
      embedByte s.b.toNat (s.mem.cgAt (i * perShare s.b.toNat + m))
        (shareGroup s.b.toNat (BitVec.ofNat 8 (s.mem.shAt j i).val) m) := by
  have hi' : i < (s.streamBytes j).length := by rwa [length_streamBytes]
  rw [State.embedded, cgAt_bufSetList, getElem?_embeddedBytes s _ hi' hm, Option.getD_some, streamBytes_getD hi]

theorem cgAt_embedded_of_le {a : Nat} (ha : s.len[j].toNat * perShare s.b.toNat ≤ a) :
    (s.embedded j).mem.cgAt a = s.mem.cgAt a := by
  have hlen : (s.embeddedBytes s.b.toNat (s.streamBytes j)).length ≤ a := by
    rwa [length_embeddedBytes, length_streamBytes]
  rw [State.embedded, cgAt_bufSetList, List.getElem?_eq_none hlen, Option.getD_none]

end

/-- Settles O54: each byte of the stream's part of the carrier as `embedByte` makes it, in numbers. -/
theorem embedWritesGroups : Obligations.EmbedWritesGroups := by
  intro s j hwidth hfits hbytes
  obtain ⟨hB, -, -⟩ := width_mul_perShare hwidth
  refine ⟨_, exec_embed_of_legal hwidth hfits hbytes, fun i hi m hm => ?_, fun a ha => cgAt_embedded_of_le ha, rfl⟩
  have hgroup := toNat_shareGroup hB (BitVec.ofNat 8 (s.mem.shAt j i).val) m
  have hlt : (shareGroup s.b.toNat (BitVec.ofNat 8 (s.mem.shAt j i).val) m).toNat < 2 ^ s.b.toNat := by
    rw [hgroup]
    exact Nat.mod_lt _ (Nat.two_pow_pos _)
  rw [respond_mem]
  refine (congrArg BitVec.toNat (cgAt_embedded_of_lt hi hm)).trans ?_
  rw [toNat_embedByte hB _ _ hlt, hgroup, toNat_ofNat_shAt (hbytes i hi)]
  rfl

/-! ### What `EXTRACT` ends with (46_stego.md R233, R237) -/

/-- The state `EXTRACT j` ends with, short of the response. -/
def State.extracted (s : State) (j : Fin 10) : State :=
  { s with
    mem := { s.mem with
      sh := s.mem.sh.set j.val (bufSetList s.mem.sh[j] 0
        ((List.range s.len[j].toNat).map fun i => sampleToGF (s.extractedByte s.b.toNat i))) }
    xi := s.xi.set j.val s.scidx
    sseed := s.sseed.set j.val s.scseed }

section
variable {s : State} {j j' : Fin 10} {i : Nat}

theorem exec_extract_of_legal (hwidth : s.WidthLegal) (hfits : s.FitsCarrier j) :
    exec (.extract (slotField j)) s = .next ((s.extracted j).respond 0 0) := by
  simp only [exec, execExtract, codecChecks_of_legal hwidth hfits, completeQuiet_ok, State.extracted]

theorem shAt_extracted_of_lt (hi : i < s.len[j].toNat) :
    (s.extracted j).mem.shAt j i = sampleToGF (s.extractedByte s.b.toNat i) := by
  rw [State.extracted, shAt_bufSetList, if_pos rfl, List.getElem?_map, List.getElem?_range hi, Option.map_some,
    Option.getD_some]

theorem shAt_extracted_of_le (hi : s.len[j].toNat ≤ i) : (s.extracted j).mem.shAt j i = s.mem.shAt j i := by
  rw [State.extracted, shAt_bufSetList, if_pos rfl, List.getElem?_eq_none (by simpa using hi), Option.getD_none]

theorem shAt_extracted_of_ne (h : j' ≠ j) (i : Nat) : (s.extracted j).mem.shAt j' i = s.mem.shAt j' i := by
  rw [State.extracted, shAt_bufSetList, if_neg h]

/-- The registers of the slot are the side-channel's. -/
theorem extracted_registers (s : State) (j : Fin 10) :
    (s.extracted j).xi[j] = s.scidx ∧ (s.extracted j).sseed[j] = s.scseed := by
  simp [State.extracted]

theorem extracted_registers_of_ne (h : j' ≠ j) :
    (s.extracted j).xi[j'] = s.xi[j'] ∧ (s.extracted j).sseed[j'] = s.sseed[j'] := by
  have hval : j.val ≠ j'.val := fun hc => h (Fin.ext hc.symm)
  simp [State.extracted, hval]

end

/-- Settles O55: each element is the byte the carrier holds for it, as the sum of its groups. -/
theorem extractAssemblesBytes : Obligations.ExtractAssemblesBytes := by
  intro s j hwidth hfits
  obtain ⟨hxi, hsseed⟩ := extracted_registers s j
  refine ⟨_, exec_extract_of_legal hwidth hfits, fun i hi => ?_, fun i hi => shAt_extracted_of_le hi,
    fun j' hj' => ?_, hxi, hsseed, rfl⟩
  · rw [respond_mem, shAt_extracted_of_lt hi, sampleToGF_val, toNat_extractedByte s hwidth]
  · obtain ⟨hxi', hsseed'⟩ := extracted_registers_of_ne (s := s) hj'
    exact ⟨hxi', hsseed', shAt_extracted_of_ne hj'⟩

/-! ### `EMBED` and then `EXTRACT` (46_stego.md R238) -/

/-- The carrier bytes of share byte `i` lie below the end of the stream. -/
theorem carrier_index_lt {n per i m : Nat} (hi : i < n) (hm : m < per) : i * per + m < n * per :=
  calc i * per + m < i * per + per := Nat.add_lt_add_left hm _
    _ = (i + 1) * per := (Nat.succ_mul i per).symm
    _ ≤ n * per := Nat.mul_le_mul_right per hi

/-- A carrier that holds the bytes `EMBED` wrote for share byte `i` gives that byte back. -/
theorem extractedByte_of_embedded {s u : State} {j : Fin 10} {i : Nat} (hwidth : s.WidthLegal)
    (hi : i < s.len[j].toNat)
    (hcg : ∀ m < perShare s.b.toNat, u.mem.cgAt (i * perShare s.b.toNat + m) =
      (s.embedded j).mem.cgAt (i * perShare s.b.toNat + m)) :
    u.extractedByte s.b.toNat i = BitVec.ofNat 8 (s.mem.shAt j i).val := by
  obtain ⟨hB, -, -⟩ := width_mul_perShare hwidth
  have hgroups : ((List.range (perShare s.b.toNat)).map fun m =>
      extractGroup s.b.toNat (u.mem.cgAt (i * perShare s.b.toNat + m))) =
        (List.range (perShare s.b.toNat)).map (shareGroup s.b.toNat (BitVec.ofNat 8 (s.mem.shAt j i).val)) := by
    refine List.map_congr_left fun m hm => ?_
    have hm := List.mem_range.1 hm
    rw [hcg m hm, cgAt_embedded_of_lt hi hm, extractGroup_embedByte hB]
  rw [State.extractedByte, hgroups, assembleByte_shareGroup hwidth]

/-- Settles O56: the embedding that succeeded was legal, so the kept carrier holds the groups of the stream's bytes, and
each byte is assembled from its own. -/
theorem embedExtractRoundTrip : Obligations.EmbedExtractRoundTrip := by
  intro s t u j j' ht hresps hb hclen hscseed hscidx hlen hcg
  obtain ⟨hwidth, hfits, hbytes⟩ := embed_legal_of_status_zero ht hresps
  obtain rfl := Host.Outcome.next.inj ((exec_embed_of_legal hwidth hfits hbytes).symm.trans ht)
  replace hb : u.b = s.b := hb
  replace hclen : u.clen = s.clen := hclen
  replace hlen : u.len[j'] = s.len[j] := hlen
  have hwidth' : u.WidthLegal := by rwa [State.WidthLegal, hb]
  have hfits' : u.FitsCarrier j' := by rwa [State.FitsCarrier, hb, hclen, hlen]
  obtain ⟨hxi, hsseed⟩ := extracted_registers u j'
  refine ⟨_, exec_extract_of_legal hwidth' hfits', rfl, fun i hi => ?_, hxi.trans hscidx, hsseed.trans hscseed⟩
  have hbyte : u.extractedByte s.b.toNat i = BitVec.ofNat 8 (s.mem.shAt j i).val :=
    extractedByte_of_embedded hwidth hi fun m hm => hcg _ (lt_of_lt_of_le (carrier_index_lt hi hm) hfits)
  apply Fin.ext
  rw [respond_mem, shAt_extracted_of_lt (by rwa [hlen]), hb, hbyte, sampleToGF_val, toNat_ofNat_shAt (hbytes i hi)]

end Sys2Proof.Machine
end

section
/-! Faults (60_exceptions.md R285): every fault of a step is `takeFault` in the state with the word taken. -/

namespace Sys2Proof.Machine

/-- A step that responds a nonzero status takes a fault of the word issued, and nothing else of the command stays. -/
theorem step_takes_fault {s t : State} {w : CmdWord} {rest : List CmdWord} {r : Response} (hcmds : s.cmds = w :: rest)
    (ht : step s = .next t) (hr : t.resps = r :: s.resps) (hne : r.status ≠ 0) :
    ∃ e : ErrKind, r = ⟨e.code, 0⟩ ∧ t = takeFault e w { s with cmds := rest } := by
  obtain ⟨e, rfl⟩ : ∃ e, t = takeFault e w { s with cmds := rest } := by
    cases hd : decode w with
    | error _ =>
      rw [step_of_reject hcmds hd] at ht
      exact ⟨.illegal, (Host.Outcome.next.inj ht).symm⟩
    | ok i =>
      rw [step_of_decode hcmds hd] at ht
      rcases exec_ends_by_status ht hr with ⟨h0, -⟩ | ⟨-, e, -, he⟩
      · exact absurd h0 hne
      · exact ⟨e, by rw [he, encode_of_decode hd]⟩
  rw [takeFault_resps] at hr
  exact ⟨e, (List.cons.inj hr).1.symm, rfl⟩

/-- Settles O10: the fault taken is one update of the port and the error registers. -/
theorem faultIsAllOrNothing : Obligations.FaultIsAllOrNothing := by
  intro s t w rest r hcmds ht hr hne
  obtain ⟨e, rfl, rfl⟩ := step_takes_fault hcmds ht hr hne
  exact ⟨rfl, takeFault_eq e w { s with cmds := rest }⟩

end Sys2Proof.Machine
end

section
/-! Soft reset (70_reset_and_hazards.md R311) and what hard reset leaves unconfigured (70_reset_and_hazards.md R312):
each parameter check fails at reset values, and every command named there makes one of them first. -/

namespace Sys2Proof.Machine

/-! ### Soft reset -/

/-- `RST` commits the soft reset. -/
theorem exec_rst (s : State) : exec .rst s = .next ((softReset s).respond 0 0) :=
  completeQuiet_ok .rst s (softReset s)

/-- Settles O16: every vector register is a replicated 0, every other register is written out in `hardReset`. -/
theorem softResetEffect : Obligations.SoftResetEffect := by
  intro s
  refine ⟨_, exec_rst s, rfl, fun a => Vector.getElem_replicate a.isLt, rfl, rfl, rfl, rfl, rfl, rfl, rfl, rfl, rfl,
    rfl, rfl, rfl, rfl, rfl, rfl, fun j => ?_, fun p => Vector.getElem_replicate p.isLt⟩
  exact ⟨Vector.getElem_replicate j.isLt, Vector.getElem_replicate j.isLt, Vector.getElem_replicate j.isLt,
    Vector.getElem_replicate j.isLt, Vector.getElem_replicate j.isLt, Vector.getElem_replicate j.isLt⟩

/-! ### The checks at reset values -/

theorem hardReset_not_thresholdLegal (L C : Nat) : ¬ (State.hardReset L C).ThresholdLegal :=
  fun ⟨hk, _⟩ => absurd hk (by decide : ¬ 2 ≤ (0 : BitVec 4).toNat)

theorem hardReset_not_gridLegal (L C : Nat) : ¬ (State.hardReset L C).GridLegal :=
  fun ⟨hw, _⟩ => absurd hw (by decide : ¬ 1 ≤ (0 : BitVec 16).toNat)

theorem hardReset_not_widthLegal (L C : Nat) : ¬ (State.hardReset L C).WidthLegal :=
  (by decide : ¬ ((0 : BitVec 4).toNat = 1 ∨ (0 : BitVec 4).toNat = 2 ∨ (0 : BitVec 4).toNat = 8))

/-- Settles O17: `PBUILD`, `PXOR` and `GET` of `TG` need a grid, `EMBED` and `EXTRACT` a width, and the others a
threshold. -/
theorem unconfiguredCommandsFault : Obligations.UnconfiguredCommandsFault := by
  intro L C a b d g j addr haddr
  obtain ⟨hpbuild, hpxor⟩ := emptyOrOversizeGridFaults (State.hardReset L C) d g (.inl rfl)
  have hget := exec_get_of_memRead_error
    (memRead_tg_of_grid_not_legal (slot := 0) rfl haddr (hardReset_not_gridLegal L C))
  obtain ⟨-, hcodec⟩ := codecRefusals (State.hardReset L C)
  obtain ⟨hwidth, -⟩ := hcodec j
  obtain ⟨hembed, hextract⟩ := hwidth (hardReset_not_widthLegal L C)
  have hthreshold := thresholdOutOfRangeFaults (State.hardReset L C) a b (hardReset_not_thresholdLegal L C)
  simp only [List.forall_mem_cons] at hthreshold ⊢
  obtain ⟨hpeval, hlagr, hvand, hsolve, hsplit, hrecon, hdistrib, hrecover, -⟩ := hthreshold
  exact ⟨hpbuild, hpxor, hpeval, hsplit, hlagr, hvand, hsolve, hrecon, hembed, hextract, hdistrib, hrecover, hget,
    List.forall_mem_nil _⟩

end Sys2Proof.Machine
end

section
/-! The scheme operations as compositions (47_scheme.md R252, R253): `DISTRIB` and `RECOVER` against the commands they
stand for, one after the other. -/

namespace Sys2Proof.Machine

/-! ### Three commands one after the other -/

/-- Committed with one response, a state is what it is with three, but for the responses. -/
theorem respond_eq_three_responds_with {t : State} {rs : List Response} (h : t.resps = rs) :
    t.respond 0 0 = { ((t.respond 0 0).respond 0 0).respond 0 0 with resps := ⟨0, 0⟩ :: rs } := by
  subst h
  rfl

/-- Three responses add nothing but themselves to a state, however that state is written. -/
theorem three_responds_eq_with {t u : State} (h : t = u) :
    ((t.respond 0 0).respond 0 0).respond 0 0 =
      { u with resps := (((t.respond 0 0).respond 0 0).respond 0 0).resps } := by
  subst h
  rfl

/-- `PXOR` after `PBUILD` masks with the table just built. -/
theorem exec_pxor_after_pbuild {s : State} (h : s.GridLegal) (d g : Grid) :
    exec (.pxor d g) ((s.buildTable s.gridCells).respond 0 0) =
      .next ((((s.buildTable s.gridCells).xorGrid d g s.gridCells).respond 0 0).respond 0 0) := by
  have hgrid : ((s.buildTable s.gridCells).respond 0 0).GridLegal := h
  rw [exec_pxor_of_legal hgrid, respond_xorGrid]
  rfl

/-! ### `DISTRIB` (47_scheme.md R252) -/

/-- `SPLIT` after `PBUILD` and `PXOR DG, SG` splits the diffused grid. -/
theorem exec_split_after_diffusing {s : State} (h : s.SplitLegal) :
    exec .split ((s.diffused.respond 0 0).respond 0 0) =
      .next ((((s.diffused.splitStreams s.streamLength).respond 0 0).respond 0 0).respond 0 0) := by
  have hlegal : ((s.diffused.respond 0 0).respond 0 0).SplitLegal := h
  rw [exec_split_of_legal hlegal, respond_splitStreams, respond_splitStreams]
  rfl

/-- What `DISTRIB` writes; the secret grid is not among it. -/
theorem splitStreams_diffused_eq_with (s : State) (count : Nat) :
    s.diffused.splitStreams count =
      { s with
        ks := (s.diffused.splitStreams count).ks
        mem := { s.mem with
          pm := (s.diffused.splitStreams count).mem.pm
          dg := (s.diffused.splitStreams count).mem.dg
          sh := (s.diffused.splitStreams count).mem.sh }
        xi := (s.diffused.splitStreams count).xi
        len := (s.diffused.splitStreams count).len
        sseed := (s.diffused.splitStreams count).sseed } := rfl

/-- Settles O58: no operation looks at the responses, so the three commands end in the state `DISTRIB` ends in. After
that only the frame of that state is used, so `generalize` forgets how it is built. -/
theorem distribIsBuildMaskSplit : Obligations.DistribIsBuildMaskSplit := by
  intro s h
  have ⟨_, _, _, hgrid, _⟩ := h
  have hsplit := exec_split_after_diffusing h
  have hdistrib := exec_distrib_of_legal h
  have hframe := splitStreams_diffused_eq_with s s.streamLength
  have hresps : (s.diffused.splitStreams s.streamLength).resps = s.resps := rfl
  have hsg : ∀ p, (s.diffused.splitStreams s.streamLength).mem.sgAt p = s.mem.sgAt p := fun _ => rfl
  generalize s.diffused.splitStreams s.streamLength = c at hsplit hdistrib hframe hresps hsg
  refine ⟨_, _, _, exec_pbuild_of_legal hgrid, exec_pxor_after_pbuild hgrid .dg .sg, hsplit, ?_, ?_, hsg, ?_⟩
  · rw [← hresps]; rfl
  · exact hdistrib.trans (congrArg Host.Outcome.next (respond_eq_three_responds_with hresps))
  · exact three_responds_eq_with hframe

/-! ### `RECOVER` (47_scheme.md R253) -/

/-- With legal parameters, one seed and a recovered grid `RECOVER` unmasks that grid with the seed's table. -/
theorem exec_recover_of_ok {s : State} (h : s.ReconLegal) (hseeds : s.SeedsAgree) {j : Fin 10} (hj : s.Selects j)
    {vs : List Byte} (hvs : s.reconGrid s.reconInput = .ok vs) :
    exec .recover s = .next ((s.recovered vs s.sseed[j] s.gridCells).respond 0 0) := by
  have hseed : s.commonSeed s.reconInput.sel = .ok s.sseed[j] := commonSeed_ok hseeds hj
  simp only [exec, execRecover, reconChecks_eq_reconInput h, hseed, hvs, completeQuiet_ok]
  rfl

section
variable {s : State}

/-- `PBUILD` after `RECON`, with the shares' seed loaded: the grid length is the one before `RECON`. -/
theorem exec_pbuild_after_recon (h : s.GridLegal) (vs : List Byte) (seed : BitVec 16) :
    exec .pbuild { (s.writeGrid .dg vs).respond 0 0 with seed := seed } =
      .next ((({ s.writeGrid .dg vs with seed := seed }.buildTable s.gridCells).respond 0 0).respond 0 0) :=
  exec_pbuild_of_legal (s := { (s.writeGrid .dg vs).respond 0 0 with seed := seed }) h

/-- `PXOR SG, DG` after the two unmasks the recovered grid. -/
theorem exec_pxor_after_recon_pbuild (h : s.GridLegal) (vs : List Byte) (seed : BitVec 16) :
    exec (.pxor .sg .dg)
        ((({ s.writeGrid .dg vs with seed := seed }.buildTable s.gridCells).respond 0 0).respond 0 0) =
      .next ((((s.recovered vs seed s.gridCells).respond 0 0).respond 0 0).respond 0 0) :=
  exec_pxor_after_pbuild (s := { (s.writeGrid .dg vs).respond 0 0 with seed := seed }) h .sg .dg

end

/-- What `RECOVER` writes. -/
theorem recovered_eq_with (s : State) (vs : List Byte) (seed : BitVec 16) (L : Nat) :
    s.recovered vs seed L =
      { s with
        seed := seed
        ks := (s.recovered vs seed L).ks
        mem := { s.mem with
          dg := (s.recovered vs seed L).mem.dg
          pm := (s.recovered vs seed L).mem.pm
          sg := (s.recovered vs seed L).mem.sg } } := rfl

/-- Settles O59: writing the grid and the seed keeps the grid length, so the three commands end in the state `RECOVER`
ends in; the rest is its frame, as for `DISTRIB`. -/
theorem recoverIsReconBuildUnmask : Obligations.RecoverIsReconBuildUnmask := by
  intro s C j h hseeds hj _ hshares hbytes
  have ⟨⟨_, hgrid, _⟩, _⟩ := h
  obtain ⟨vs, hvs⟩ : ∃ vs, s.reconGrid s.reconInput = .ok vs := ⟨_, reconGrid_ok h hshares hbytes s.gridCells⟩
  have hpxor := exec_pxor_after_recon_pbuild hgrid vs s.sseed[j]
  have hrecover := exec_recover_of_ok h hseeds hj hvs
  have hframe := recovered_eq_with s vs s.sseed[j] s.gridCells
  have hresps : (s.recovered vs s.sseed[j] s.gridCells).resps = s.resps := rfl
  generalize s.recovered vs s.sseed[j] s.gridCells = c at hpxor hrecover hframe hresps
  refine ⟨_, _, _, exec_recon_of_ok h hvs, exec_pbuild_after_recon hgrid vs s.sseed[j], hpxor, ?_, ?_, ?_⟩
  · rw [← hresps]; rfl
  · exact hrecover.trans (congrArg Host.Outcome.next (respond_eq_three_responds_with hresps))
  · exact three_responds_eq_with hframe

end Sys2Proof.Machine
end
